-- ==== Sys2Proof/Word.lean ====
section
/-! DEFINITION. The widths of UDCT's data (00_scope.md R8: every quantity is an unsigned integer).
Byte order and bit fields are decided in Decode.lean and Machine/Operands.lean, where a repair can reach them. -/

namespace Sys2Proof

/-- A packet byte, a flash byte, or a `u8` register (R8). -/
abbrev Byte := BitVec 8

/-- A `u16` field of the setup packet: `value`, `index`, `length` (R93). -/
abbrev Half := BitVec 16

/-- A 32-bit flash address or command argument (R60, R108). -/
abbrev Word := BitVec 32

end Sys2Proof
end

