-- ==== Sys2Proof/Syntax.lean ====
section
/-! DEFINITION. The instructions of UDCT: one constructor per row of spec/opcode_table.json.
By 00_scope.md R5 an instruction is a bus event, a request carried by a `SETUP` event, or a DfuSe sub-command. -/

namespace Sys2Proof

/-- `dir` of a setup packet (30_encoding.md R94, bit 7). -/
inductive Dir where
  /-- 0: a write request (`execute_set`). -/
  | hostToDevice
  /-- 1: a read request (`execute_get`). -/
  | deviceToHost
deriving DecidableEq, Repr

/-- `type` of a setup packet (30_encoding.md R94, bits 6:5). -/
inductive ReqType where
  /-- 0 -/
  | standard
  /-- 1 -/
  | classReq
  /-- 2 -/
  | vendor
  /-- 3 -/
  | reserved
deriving DecidableEq, Repr

/-- A decoded setup packet, the source's `SetupRequest` (10_state.md R23). -/
structure SetupRequest where
  dir       : Dir
  type      : ReqType
  recipient : BitVec 5
  code      : Byte
  value     : Half
  index     : Half
  length    : Half
deriving DecidableEq, Repr

/-- The fields of a setup packet that a row of the opcode table with mask `0xFFE0` leaves free (30_encoding.md R96). -/
structure SetupFields where
  recipient : BitVec 5
  value     : Half
  index     : Half
  length    : Half
deriving DecidableEq, Repr

/-- The seven DFU requests (30_encoding.md R101). -/
inductive DfuRequest where
  | detach
  | dnload
  | upload
  | getstatus
  | clrstatus
  | getstate
  | abort
deriving DecidableEq, Repr

/-- A decoded DfuSe block-0 command (30_encoding.md R108). -/
inductive DfuseCommand where
  | setAddressPointer (arg : Word)
  | erasePage (arg : Word)
deriving DecidableEq, Repr

/-- The instructions. A constructor's comment is its row's mnemonic in spec/opcode_table.json. -/
inductive Instr where
  /-- `RESET`: bus reset (R131). -/
  | reset
  /-- `SETUP` whose payload no SETUP64 row refines: not 8 bytes long (R92, R133 step 2). -/
  | setup (payload : List Byte)
  /-- `IN`: the host took a packet of the device (R140 to R142). -/
  | inDone
  /-- `OUT`: a packet of the host arrived (R145 to R148). -/
  | outDone (packet : List Byte)
  /-- `HANDLER_STANDARD`: a standard request other than the four of `STD_REF` (R171, R185). -/
  | handlerStandard (dir : Dir) (code : Byte) (f : SetupFields)
  /-- `HANDLER_CLASS`: a class request that is none of the seven DFU requests (R171, R201). -/
  | handlerClass (dir : Dir) (code : Byte) (f : SetupFields)
  /-- `HANDLER_VENDOR`: a vendor request (R171, R186). -/
  | handlerVendor (dir : Dir) (code : Byte) (f : SetupFields)
  /-- `HANDLER_RESERVED`: a request of the reserved type (R171). -/
  | handlerReserved (dir : Dir) (code : Byte) (f : SetupFields)
  /-- `DFU_DETACH` (R245). -/
  | dfuDetach (f : SetupFields)
  /-- `DFU_DNLOAD` (R220). -/
  | dfuDnload (f : SetupFields)
  /-- `DFU_UPLOAD` (R225). -/
  | dfuUpload (f : SetupFields)
  /-- `DFU_GETSTATUS` (R230). -/
  | dfuGetstatus (f : SetupFields)
  /-- `DFU_CLRSTATUS` (R240). -/
  | dfuClrstatus (f : SetupFields)
  /-- `DFU_GETSTATE` (R235). -/
  | dfuGetstate (f : SetupFields)
  /-- `DFU_ABORT` (R242). -/
  | dfuAbort (f : SetupFields)
  /-- `DFUSE_SET_ADDRESS_POINTER` (R253). -/
  | dfuseSetAddressPointer (arg : Word)
  /-- `DFUSE_ERASE_PAGE` (R254). -/
  | dfuseErasePage (arg : Word)
  /-- `STD_SET_ADDRESS` (R182). -/
  | stdSetAddress (f : SetupFields)
  /-- `STD_GET_DESCRIPTOR` (R181). -/
  | stdGetDescriptor (f : SetupFields)
  /-- `STD_GET_CONFIGURATION` (R184). -/
  | stdGetConfiguration (f : SetupFields)
  /-- `STD_SET_CONFIGURATION` (R183). -/
  | stdSetConfiguration (f : SetupFields)
deriving DecidableEq, Repr

end Sys2Proof
end

