-- ==== Sys2Proof/Config.lean ====
section
/-! DEFINITION. The parameters of 00_scope.md R6 as plain data, the reference configuration `REF`, and the behaviours
that the spec leaves to parts outside UDCT as uninterpreted functions. How a parameter is looked up, and the constraints
of R7, are in Machine/Params.lean. -/

namespace Sys2Proof

/-- The USB device states of 10_state.md R26. -/
inductive UsbDevState where
  | default
  | address
  | configured
deriving DecidableEq, Repr

/-- `CLASS_VARIANT` (R6). -/
inductive ClassVariant where
  | plainDfu
  | dfuse
deriving DecidableEq, Repr

/-- One straight piece of `est`: from `start` words on, `base + slope * (n - start)` milliseconds.
A list of them describes every function on the word counts that occur (assumption 5). -/
structure EstSegment where
  start : Nat
  base  : Nat
  slope : Nat
deriving DecidableEq, Repr

/-- `STATE_CODE`: the byte each DFU state has in a response (R104). -/
structure StateCodes where
  idle              : Byte
  dnloadSync        : Byte
  dnBusy            : Byte
  dnloadIdle        : Byte
  manifestSync      : Byte
  manifest          : Byte
  manifestWaitReset : Byte
  uploadIdle        : Byte
  error             : Byte
deriving DecidableEq, Repr

/-- `STATUS_CODE`: the byte each status name has in a response (R105). -/
structure StatusCodes where
  ok              : Byte
  errADDRESS      : Byte
  errCHECK_ERASED : Byte
  errVERIFY       : Byte
  errSTALLEDPKT   : Byte
deriving DecidableEq, Repr

/-- `DFUSE_CMD_SET_ADDRESS` and `DFUSE_CMD_ERASE` (R108). -/
structure CmdCodes where
  setAddress : Byte
  erase      : Byte
deriving DecidableEq, Repr

/-- `CLASS_STATES`: the set of device states in which class requests reach the DFU machine (R171), one bit per state. -/
structure ClassStates where
  default    : Bool
  address    : Bool
  configured : Bool
deriving DecidableEq, Repr

/-- One row of the descriptor function `DESC` (R180); an argument with no row gives `None`. -/
structure DescEntry where
  value : Half
  index : Half
  bytes : List Byte
deriving DecidableEq, Repr

/-- The `STD` or `VND` parameter: the reference instance, or a replacement known by number (R176, assumption 9). -/
inductive Handler where
  | ref
  | other (id : Nat)
deriving DecidableEq, Repr

/-- The `FP` parameter: the three instances of 44_flash_sequencer.md R275, or any other, known by number (assumption 8). -/
inductive FlashProgrammer where
  | ideal
  | stuck
  | badProg
  | other (id : Nat)
deriving DecidableEq, Repr

/-- The parameters of R6. `WORD_BYTES` is the constant 4 of Machine/Params.lean (R6: "decided = 4"). -/
structure Config where
  /-- `CLASS_VARIANT` -/
  variant       : ClassVariant
  /-- `EP0_MAX_PACKET` -/
  mps           : Nat
  /-- `TRANSFER_SIZE` -/
  ts            : Nat
  /-- `CTRL_BUF_SIZE` -/
  ctrlBufSize   : Nat
  /-- `CAN_UPLOAD` -/
  canUpload     : Bool
  /-- `MANIFEST_DELAY` -/
  manifestDelay : Bool
  /-- `APP_BASE` -/
  appBase       : Nat
  /-- `APP_END` -/
  appEnd        : Nat
  /-- `PAGE_SIZE` -/
  pageSize      : Nat
  /-- `ERASED_BYTE` -/
  erasedByte    : Byte
  /-- `estimate_program_time_ms` -/
  est           : List EstSegment
  /-- `STATUS_ISTRING` -/
  statusIString : Byte
  /-- `STATE_CODE` -/
  stateCodes    : StateCodes
  /-- `STATUS_CODE` -/
  statusCodes   : StatusCodes
  /-- `DFUSE_CMD_SET_ADDRESS`, `DFUSE_CMD_ERASE` -/
  cmdCodes      : CmdCodes
  /-- `CLASS_STATES` -/
  classStates   : ClassStates
  /-- `DESC`, the parameter of `STD_REF` -/
  desc          : List DescEntry
  /-- `STD` -/
  std           : Handler
  /-- `VND` -/
  vnd           : Handler
  /-- `FP` -/
  fp            : FlashProgrammer
deriving DecidableEq, Repr

/-- The DFU 1.1 numbers, the default of `STATE_CODE` (R104). -/
def StateCodes.ref : StateCodes where
  idle := 2
  dnloadSync := 3
  dnBusy := 4
  dnloadIdle := 5
  manifestSync := 6
  manifest := 7
  manifestWaitReset := 8
  uploadIdle := 9
  error := 10

/-- The DFU 1.1 numbers, the default of `STATUS_CODE` (R105). -/
def StatusCodes.ref : StatusCodes where
  ok := 0x00
  errCHECK_ERASED := 0x05
  errVERIFY := 0x07
  errADDRESS := 0x08
  errSTALLEDPKT := 0x0F

/-- The defaults of the two DfuSe command bytes (R108). -/
def CmdCodes.ref : CmdCodes where
  setAddress := 0x21
  erase := 0x41

/-- The two fixture descriptors of `REF` (R180). -/
def Config.refDesc : List DescEntry :=
  [{ value := 0x0100, index := 0,
     bytes := [0x12, 0x01, 0x00, 0x02, 0x00, 0x00, 0x00, 0x40, 0x83, 0x04, 0x11, 0xDF, 0x00, 0x02, 0x01, 0x02, 0x03, 0x01] },
   { value := 0x0200, index := 0, bytes := (List.range 130).map (BitVec.ofNat 8) }]

/-- The reference configuration `REF` of R6, variant `PLAIN_DFU` (95_test_vectors.md section 1). -/
def Config.ref : Config where
  variant := .plainDfu
  mps := 64
  ts := 128
  ctrlBufSize := 128
  canUpload := true
  manifestDelay := true
  appBase := 0x08002000
  appEnd := 0x08020000
  pageSize := 256
  erasedByte := 0x00
  est := [{ start := 1, base := 1, slope := 1 }]
  statusIString := 0
  stateCodes := .ref
  statusCodes := .ref
  cmdCodes := .ref
  classStates := { default := false, address := false, configured := true }
  desc := Config.refDesc
  std := .ref
  vnd := .ref
  fp := .ideal

/-! The behaviour of the parts outside UDCT that a configuration may name by number. Each is an uninterpreted function of
everything the spec lets it depend on, so a statement about such a configuration holds for every behaviour. -/

/-- `FP.is_erased` of Flash Programmer `id` on the flash content, at byte address `a`, for `wc` words (R270). -/
opaque Config.fpIsErased (id : Nat) (flash : List (Nat × Byte)) (a wc : Nat) : Bool

/-- The bytes `FP.erase_page(a)` of Flash Programmer `id` changes, with their new values (R270). -/
opaque Config.fpErasePage (id : Nat) (flash : List (Nat × Byte)) (a : Nat) : List (Word × Byte)

/-- The bytes `FP.program(a, bytes)` of Flash Programmer `id` changes, with their new values (R270). -/
opaque Config.fpProgram (id : Nat) (flash : List (Nat × Byte)) (a : Nat) (bytes : List Byte) : List (Word × Byte)

/-- `validate(req, s)` of handler `id` with own state `own`: accepted or not, and the new own state (R176). -/
opaque Config.handlerValidate (id : Nat) (r : SetupRequest) (dev : UsbDevState) (own : List Byte) : Bool × List Byte

/-- `execute_get(req)` of handler `id`: `none` for `Error`, else the buffer; and the new own state (R176). -/
opaque Config.handlerGet (id : Nat) (r : SetupRequest) (own : List Byte) : Option (List Byte) × List Byte

/-- `execute_set(req, data)` of handler `id`: `Ok` or not, and the new own state (R176). -/
opaque Config.handlerSet (id : Nat) (r : SetupRequest) (data : List Byte) (own : List Byte) : Bool × List Byte

/-- What `execute_set` of a Standard handler does beyond its own state: the new `USB_DEV_STATE` and the addresses given to
`set_device_address`, in order (R176: only `STD.execute_set` may do either). -/
opaque Config.stdSetDevice (id : Nat) (r : SetupRequest) (data : List Byte) (dev : UsbDevState) (own : List Byte) :
    Option UsbDevState × List Byte

/-- The own state that `reset()` of handler `id` leaves (R175, R176; R340: whatever it held). -/
opaque Config.handlerReset (id : Nat) : List Byte

end Sys2Proof
end

