-- ==== Sys2Proof/WellFormed.lean ====
section
/-! DEFINITION. Which instructions are the reading of some words: the checks that make every setup packet belong to
exactly one constructor (the SETUP64 rows of spec/opcode_table.json refine the `SETUP` row and one another). -/

namespace Sys2Proof

/-- `(dir, request_code)` of the seven DFU requests, from the table of 30_encoding.md R102. -/
def classRows : List (Dir × Byte) :=
  [(.hostToDevice, 0), (.hostToDevice, 1), (.deviceToHost, 2), (.deviceToHost, 3),
   (.hostToDevice, 4), (.deviceToHost, 5), (.hostToDevice, 6)]

/-- `(dir, request_code)` of the four requests of `STD_REF`, from 30_encoding.md R110. -/
def standardRows : List (Dir × Byte) :=
  [(.hostToDevice, 5), (.deviceToHost, 6), (.deviceToHost, 8), (.hostToDevice, 9)]

/-- Well-formedness: a `setup` payload is not 8 bytes long (an 8-byte packet is one of the refined rows, R92), and a
handler row stands only for the packets that no more specific row selects. -/
def Instr.wf : Instr → Bool
  | .reset => true
  | .setup payload => payload.length != 8
  | .inDone => true
  | .outDone _ => true
  | .handlerStandard dir code _ => !standardRows.contains (dir, code)
  | .handlerClass dir code _ => !classRows.contains (dir, code)
  | .handlerVendor _ _ _ => true
  | .handlerReserved _ _ _ => true
  | .dfuDetach _ => true
  | .dfuDnload _ => true
  | .dfuUpload _ => true
  | .dfuGetstatus _ => true
  | .dfuClrstatus _ => true
  | .dfuGetstate _ => true
  | .dfuAbort _ => true
  | .dfuseSetAddressPointer _ => true
  | .dfuseErasePage _ => true
  | .stdSetAddress _ => true
  | .stdGetDescriptor _ => true
  | .stdGetConfiguration _ => true
  | .stdSetConfiguration _ => true

end Sys2Proof
end

