-- ==== Sys2Proof/Decode.lean ====
section
/-! DEFINITION. Decoding (30_encoding.md): total on any bytes, rejecting by name; and after it the encoder.
The three formats are the "format" column of spec/opcode_table.json, which are the three levels of R90. -/

namespace Sys2Proof

/-- The formats of spec/opcode_table.json. -/
inductive Format where
  /-- An event record: the kind number (R91) and the payload (R71). -/
  | event
  /-- An 8-byte setup packet (R92). -/
  | setup64
  /-- The data stage of a DfuSe block-0 `DNLOAD` (R108). -/
  | dfuseCmd40
deriving DecidableEq, Repr

/-- Why some bytes are no instruction of their format. -/
inductive DecodeError where
  /-- An event record with no kind byte. -/
  | emptyRecord
  /-- A kind number above 3 (R91 numbers only four kinds). -/
  | reservedKind
  /-- A payload on `RESET` or `IN` (R71: they carry nothing). -/
  | payloadNotAllowed
  /-- A setup packet that is not 8 bytes (R92). -/
  | wrongSetupLength
  /-- A DfuSe command block shorter than 5 bytes (R252). -/
  | shortCommand
  /-- A DfuSe command byte that is neither command (R252). -/
  | unknownCommand
deriving DecidableEq, Repr

/-! Bit fields and byte order. -/

/-- `le16` of 00_scope.md R8. -/
def le16 (lo hi : Byte) : Half := hi ++ lo

/-- `le32` of 00_scope.md R8. -/
def le32 (b0 b1 b2 b3 : Byte) : Word := b3 ++ b2 ++ b1 ++ b0

/-- The `n`-byte little-endian byte sequence of `v`: `bytes_le` of 00_scope.md R8. -/
def bytesLe : Nat → Nat → List Byte
  | 0, _ => []
  | n + 1, v => BitVec.ofNat 8 v :: bytesLe n (v / 256)

/-- Bit 7 of bmRequestType (R94). -/
def Dir.ofBit (b : BitVec 1) : Dir := if b = 1 then .deviceToHost else .hostToDevice

/-- Bits 6:5 of bmRequestType (R94). -/
def ReqType.ofBits (b : BitVec 2) : ReqType :=
  if b = 0 then .standard else if b = 1 then .classReq else if b = 2 then .vendor else .reserved

/-- The inverse of `Dir.ofBit` (R94). -/
def Dir.bit : Dir → BitVec 1
  | .hostToDevice => 0
  | .deviceToHost => 1

/-- The inverse of `ReqType.ofBits` (R94). -/
def ReqType.bits : ReqType → BitVec 2
  | .standard => 0
  | .classReq => 1
  | .vendor => 2
  | .reserved => 3

/-! Level 2: the setup packet. -/

/-- The decode function of R95; `none` exactly when the packet is not 8 bytes long (R92). -/
def decodeRequest : List Byte → Option SetupRequest
  | [b0, b1, b2, b3, b4, b5, b6, b7] =>
    some { dir := .ofBit (b0.extractLsb' 7 1), type := .ofBits (b0.extractLsb' 5 2), recipient := b0.extractLsb' 0 5,
           code := b1, value := le16 b2 b3, index := le16 b4 b5, length := le16 b6 b7 }
  | _ => none

/-- The DFU request of a class packet, by `request_code` and `dir`: the table of R102 (the shape check of R201 is
that this is not `none`). -/
def DfuRequest.ofSelector (dir : Dir) (code : Byte) : Option DfuRequest :=
  match dir with
  | .hostToDevice =>
    if code = 0 then some .detach else if code = 1 then some .dnload else if code = 4 then some .clrstatus
    else if code = 6 then some .abort else none
  | .deviceToHost =>
    if code = 2 then some .upload else if code = 3 then some .getstatus else if code = 5 then some .getstate
    else none

/-- The fields a request row leaves free. -/
def SetupRequest.fields (r : SetupRequest) : SetupFields :=
  { recipient := r.recipient, value := r.value, index := r.index, length := r.length }

/-- The request a row's fixed bits and free fields make. -/
def SetupFields.request (f : SetupFields) (dir : Dir) (type : ReqType) (code : Byte) : SetupRequest :=
  { dir := dir, type := type, recipient := f.recipient, code := code, value := f.value, index := f.index, length := f.length }

/-- The row of a standard packet (R110). -/
def Instr.ofStandard (dir : Dir) (code : Byte) (f : SetupFields) : Instr :=
  match dir with
  | .hostToDevice =>
    if code = 5 then .stdSetAddress f else if code = 9 then .stdSetConfiguration f else .handlerStandard dir code f
  | .deviceToHost =>
    if code = 6 then .stdGetDescriptor f else if code = 8 then .stdGetConfiguration f else .handlerStandard dir code f

/-- The row of a class packet (R102). -/
def Instr.ofClass (dir : Dir) (code : Byte) (f : SetupFields) : Instr :=
  match DfuRequest.ofSelector dir code with
  | some .detach => .dfuDetach f
  | some .dnload => .dfuDnload f
  | some .upload => .dfuUpload f
  | some .getstatus => .dfuGetstatus f
  | some .clrstatus => .dfuClrstatus f
  | some .getstate => .dfuGetstate f
  | some .abort => .dfuAbort f
  | none => .handlerClass dir code f

/-- The most specific row of a decoded packet (R96, R100). -/
def Instr.ofRequest (r : SetupRequest) : Instr :=
  match r.type with
  | .standard => Instr.ofStandard r.dir r.code r.fields
  | .classReq => Instr.ofClass r.dir r.code r.fields
  | .vendor => .handlerVendor r.dir r.code r.fields
  | .reserved => .handlerReserved r.dir r.code r.fields

/-- Level 2 of R90 on the payload of a `SETUP` event, total: a payload that is not 8 bytes long is the bare `SETUP` row. -/
def decodeSetup (payload : List Byte) : Instr :=
  match decodeRequest payload with
  | some r => Instr.ofRequest r
  | none => .setup payload

/-! Level 3: the DfuSe command block. -/

/-- R252: at least five bytes, the first one a command byte, the next four the little-endian argument, the rest ignored. -/
def decodeCommand (codes : CmdCodes) : List Byte → Except DecodeError DfuseCommand
  | c :: a0 :: a1 :: a2 :: a3 :: _ =>
    if c = codes.setAddress then .ok (.setAddressPointer (le32 a0 a1 a2 a3))
    else if c = codes.erase then .ok (.erasePage (le32 a0 a1 a2 a3))
    else .error .unknownCommand
  | _ => .error .shortCommand

/-- A command as an instruction. -/
def Instr.ofCommand : DfuseCommand → Instr
  | .setAddressPointer arg => .dfuseSetAddressPointer arg
  | .erasePage arg => .dfuseErasePage arg

/-! The whole decoder. -/

/-- An event record: kind numbers of R91, payloads of R71. -/
def decodeEventRecord : List Byte → Except DecodeError Instr
  | [] => .error .emptyRecord
  | kind :: payload =>
    if kind = 0 then (if payload = [] then .ok .reset else .error .payloadNotAllowed)
    else if kind = 1 then .ok (decodeSetup payload)
    else if kind = 2 then (if payload = [] then .ok .inDone else .error .payloadNotAllowed)
    else if kind = 3 then .ok (.outDone payload)
    else .error .reservedKind

/-- The decoder: the instruction that some bytes of a format are, or the name of what is wrong with them. -/
def decode (codes : CmdCodes) : Format → List Byte → Except DecodeError Instr
  | .event, bytes => decodeEventRecord bytes
  | .setup64, bytes =>
    match decodeRequest bytes with
    | some r => .ok (Instr.ofRequest r)
    | none => .error .wrongSetupLength
  | .dfuseCmd40, bytes => (decodeCommand codes bytes).map Instr.ofCommand

/-! The encoder, from the same tables. -/

/-- A setup packet (R93, R94). -/
def encodeRequest (r : SetupRequest) : List Byte :=
  [r.dir.bit ++ r.type.bits ++ r.recipient, r.code,
   r.value.extractLsb' 0 8, r.value.extractLsb' 8 8, r.index.extractLsb' 0 8, r.index.extractLsb' 8 8,
   r.length.extractLsb' 0 8, r.length.extractLsb' 8 8]

/-- A DfuSe command block of exactly five bytes (R108). -/
def encodeCommand (codes : CmdCodes) : DfuseCommand → List Byte
  | .setAddressPointer arg =>
    [codes.setAddress, arg.extractLsb' 0 8, arg.extractLsb' 8 8, arg.extractLsb' 16 8, arg.extractLsb' 24 8]
  | .erasePage arg =>
    [codes.erase, arg.extractLsb' 0 8, arg.extractLsb' 8 8, arg.extractLsb' 16 8, arg.extractLsb' 24 8]

/-- The words of a well-formed instruction, with the format they belong to. -/
def encode (codes : CmdCodes) : Instr → Format × List Byte
  | .reset => (.event, [0])
  | .setup payload => (.event, 1 :: payload)
  | .inDone => (.event, [2])
  | .outDone packet => (.event, 3 :: packet)
  | .handlerStandard dir code f => (.setup64, encodeRequest (f.request dir .standard code))
  | .handlerClass dir code f => (.setup64, encodeRequest (f.request dir .classReq code))
  | .handlerVendor dir code f => (.setup64, encodeRequest (f.request dir .vendor code))
  | .handlerReserved dir code f => (.setup64, encodeRequest (f.request dir .reserved code))
  | .dfuDetach f => (.setup64, encodeRequest (f.request .hostToDevice .classReq 0))
  | .dfuDnload f => (.setup64, encodeRequest (f.request .hostToDevice .classReq 1))
  | .dfuUpload f => (.setup64, encodeRequest (f.request .deviceToHost .classReq 2))
  | .dfuGetstatus f => (.setup64, encodeRequest (f.request .deviceToHost .classReq 3))
  | .dfuClrstatus f => (.setup64, encodeRequest (f.request .hostToDevice .classReq 4))
  | .dfuGetstate f => (.setup64, encodeRequest (f.request .deviceToHost .classReq 5))
  | .dfuAbort f => (.setup64, encodeRequest (f.request .hostToDevice .classReq 6))
  | .dfuseSetAddressPointer arg => (.dfuseCmd40, encodeCommand codes (.setAddressPointer arg))
  | .dfuseErasePage arg => (.dfuseCmd40, encodeCommand codes (.erasePage arg))
  | .stdSetAddress f => (.setup64, encodeRequest (f.request .hostToDevice .standard 5))
  | .stdGetDescriptor f => (.setup64, encodeRequest (f.request .deviceToHost .standard 6))
  | .stdGetConfiguration f => (.setup64, encodeRequest (f.request .deviceToHost .standard 8))
  | .stdSetConfiguration f => (.setup64, encodeRequest (f.request .hostToDevice .standard 9))

/-! Words numbered as spec/opcode_table.json numbers them (R96: little-endian). -/

/-- The format and the bytes of a word of the table. The table's three formats have their own widths (an event kind, 64
bits, 40 bits); a word given with only its fixed bits is widened with zeros, and a one-byte word, whose format the width
does not tell, is an event kind below 4, a DfuSe command where it is a command byte, and else a setup packet (assumption 13). -/
def tableWords (nbits w : Nat) : Format × List Byte :=
  if nbits ≤ 8 then
    if w < 4 then (.event, bytesLe 1 w)
    else if w = 0x21 ∨ w = 0x41 then (.dfuseCmd40, bytesLe 5 w)
    else (.setup64, bytesLe 8 w)
  else if nbits ≤ 32 then (.setup64, bytesLe 8 w)
  else if nbits ≤ 40 then (.dfuseCmd40, bytesLe 5 w)
  else (.setup64, bytesLe 8 w)

/-- The instruction the decoder reads from a word of the table; the DfuSe command bytes are those of `REF`, the table's. -/
def decodeTableWord (nbits w : Nat) : Option Instr :=
  (decode CmdCodes.ref (tableWords nbits w).1 (tableWords nbits w).2).toOption

end Sys2Proof
end

