-- ==== Sys2Proof/Machine/State.lean ====
section
/-! DEFINITION. The state of UDCT as plain data (10_state.md), the reasons a step can stop, and the state after reset. -/

namespace Sys2Proof.Machine

/-- `CTS`, the phase sequencer (R22). -/
inductive Cts where
  | stalled
  | dataIn
  | lastDataIn
  | statusOut
  | dataOut
  | lastDataOut
  | statusIn
deriving DecidableEq, Repr

/-- `DFU_STATE` (R30). -/
inductive DfuState where
  | idle
  | dnloadSync
  | dnBusy
  | dnloadIdle
  | manifestSync
  | manifest
  | manifestWaitReset
  | uploadIdle
  | error
deriving DecidableEq, Repr

/-- `DFU_STATUS_CODE` (R31). -/
inductive StatusCode where
  | ok
  | errADDRESS
  | errCHECK_ERASED
  | errVERIFY
  | errSTALLEDPKT
deriving DecidableEq, Repr

/-- The captured block of `PENDING` (R35). -/
structure PendingBlock where
  blockNum : Half
  length   : Half
  data     : List Byte
  target   : Nat
deriving DecidableEq, Repr

/-- `PENDING`: the work the next poll must do (R35). -/
inductive Pending where
  /-- `None` -/
  | noWork
  /-- `Block` -/
  | block (pb : PendingBlock)
  /-- `ManifestWork` -/
  | manifestWork
deriving DecidableEq, Repr

/-- One delivered event, its payload already read (R71). -/
inductive Event where
  | reset
  | setup (payload : List Byte)
  | inDone
  | outDone (packet : List Byte)
deriving DecidableEq, Repr

/-- One entry of the output trace (R70). -/
inductive Action where
  /-- `write_in(0, data, n)`: `TX <bytes>` -/
  | tx (data : List Byte)
  /-- `send_zero_length(0)`: `ZLP` -/
  | zlp
  /-- `set_stall(0)`: `STALL` -/
  | stall
  /-- `set_device_address(a)`: `ADDR a` -/
  | addr (a : Byte)
  /-- `FP.is_erased`: `ERASED? a wc -> b` -/
  | erasedQ (a wc : Nat) (b : Bool)
  /-- `FP.erase_page`: `ERASE a` -/
  | erase (a : Nat)
  /-- `FP.program`: `PROG a <bytes>` -/
  | prog (a : Nat) (bytes : List Byte)
deriving DecidableEq, Repr

/-- Where the machine stops. Both are safe: they stand only in register combinations that no rule of the spec is written
for and that no run reaches (the invariant of Safety.lean excludes them), and a stop proves nothing false. -/
inductive Fault where
  /-- Raised by `IN` in `StatusIn` when `PEND_OUT` is `None`; R141 and R150 say that it is never `None` there. Safe. -/
  | noPendingWrite
  /-- Raised by `IN` in `StatusIn` when `PEND_OUT` holds a request that no `validate` accepts as a write, so that no rule says
  what `execute_set` does with it (R174, R211, R186). Safe. -/
  | unacceptedPendingWrite
deriving DecidableEq, Repr

/-- Why an instruction or a step is refused. -/
inductive Refusal where
  /-- Raised by `exec` for an instruction that has no meaning yet. Safe. -/
  | notModelled (mnemonic : String)
  /-- Raised by `step` when the parameters break a constraint of R7: "refused by the model, not run". Safe. -/
  | invalidConfiguration
deriving DecidableEq, Repr

/-- Everything the spec gives the machine (R20 to R50), the parameters it runs with (R6), and the two sequences that connect
it to the outside: events delivered and not yet handled (R71) and output actions made (R70). -/
structure State where
  /-- The launch parameters; no step writes them (R6, R21). -/
  cfg           : Config
  /-- The input: delivered events, oldest first (R71, R75). -/
  events        : List Event
  /-- The output trace, oldest first (R70). -/
  trace         : List Action
  /-- `CTS` (R22) -/
  cts           : Cts
  /-- `SETUP_REQ` (R23) -/
  setupReq      : Option SetupRequest
  /-- `PEND_OUT` (R24) -/
  pendOut       : Option SetupRequest
  /-- `XFER_DATA` (R25): of a write, the valid bytes `[0, XFER_POS)`. -/
  xferData      : List Byte
  /-- `XFER_LEN` (R25) -/
  xferLen       : Nat
  /-- `XFER_POS` (R25) -/
  xferPos       : Nat
  /-- `USB_DEV_STATE` (R26) -/
  usbDevState   : UsbDevState
  /-- `USB_ADDR` of `STD_REF` (R27) -/
  usbAddr       : Byte
  /-- `USB_CONFIG` of `STD_REF` (R27) -/
  usbConfig     : Byte
  /-- The own state of a Standard handler other than `STD_REF` (R27, R176) -/
  stdOwn        : List Byte
  /-- The own state of a Vendor handler other than `VND_REF` (R27, R176) -/
  vndOwn        : List Byte
  /-- `DFU_STATE` (R30) -/
  dfuState      : DfuState
  /-- `DFU_STATUS_CODE` (R31) -/
  dfuStatusCode : StatusCode
  /-- `ADDR_PTR` (R32) -/
  addrPtr       : Word
  /-- `PENDING` (R35) -/
  pending       : Pending
  /-- `FLASH` (R40): the bytes that differ from what an unlisted address reads as, addresses strictly rising. -/
  flash         : List Host.Cell
deriving DecidableEq, Repr

/-- The state after reset: the table of R50, which R341 makes the power-on state too, with an empty trace, under `REF` (R6)
and with every flash byte `ERASED_BYTE`. -/
def State.reset : State where
  cfg := Config.ref
  events := []
  trace := []
  cts := .stalled
  setupReq := none
  pendOut := none
  xferData := []
  xferLen := 0
  xferPos := 0
  usbDevState := .default
  usbAddr := 0
  usbConfig := 0
  stdOwn := []
  vndOwn := []
  dfuState := .idle
  dfuStatusCode := .ok
  addrPtr := BitVec.ofNat 32 Config.ref.appBase
  pending := .noWork
  flash := []

end Sys2Proof.Machine
end

