-- ==== Sys2Proof/Machine/Memory.lean ====
section
/-! DEFINITION. `FLASH` (20_memory.md R60 to R66) as a list of cells in one canonical form: addresses strictly rising, all
below 2^32, no cell equal to what an unlisted address reads as. `d` is that byte: `ERASED_BYTE` (assumption 6). -/

namespace Sys2Proof.Machine

/-- The flash address space has the byte addresses below this (R60: 32-bit addresses). -/
def flashSpace : Nat := 2 ^ 32

/-- What an address that is not listed reads as: `ERASED_BYTE` (assumption 6). -/
def unlistedByte (c : Config) : Byte := c.erasedByte

/-- The canonical form, for cells at addresses `lo` and up. -/
def Memory.wfFrom (d : Byte) : Nat → List Host.Cell → Bool
  | _, [] => true
  | lo, (k, b) :: m => decide (lo ≤ k ∧ k < flashSpace ∧ b ≠ d) && Memory.wfFrom d (k + 1) m

/-- The canonical form. -/
def Memory.wf (d : Byte) (m : List Host.Cell) : Bool := Memory.wfFrom d 0 m

/-- The byte at an address. -/
def Memory.read (d : Byte) : List Host.Cell → Nat → Byte
  | [], _ => d
  | (k, b) :: m, a => if k = a then b else Memory.read d m a

/-- Putting a byte at an address below `flashSpace`, keeping the canonical form. -/
def Memory.put (d : Byte) : List Host.Cell → Nat → Byte → List Host.Cell
  | [], a, v => if v = d then [] else [(a, v)]
  | (k, b) :: m, a, v =>
    if a < k then (if v = d then (k, b) :: m else (a, v) :: (k, b) :: m)
    else if a = k then (if v = d then m else (a, v) :: m)
    else (k, b) :: Memory.put d m a v

/-- Writing one byte. An address outside the 32-bit space holds no byte (R60), so nothing is written there (assumption 7). -/
def Memory.write (d : Byte) (m : List Host.Cell) (a : Nat) (v : Byte) : List Host.Cell :=
  if a < flashSpace then Memory.put d m a v else m

/-- Writing bytes at consecutive addresses, lowest first (R64: byte `i` at `a + i`). -/
def Memory.writeBytes (d : Byte) : List Host.Cell → Nat → List Byte → List Host.Cell
  | m, _, [] => m
  | m, a, v :: vs => Memory.writeBytes d (Memory.write d m a v) (a + 1) vs

/-- Writing a list of separately addressed bytes, in order. -/
def Memory.writeCells (d : Byte) : List Host.Cell → List (Word × Byte) → List Host.Cell
  | m, [] => m
  | m, (a, v) :: vs => Memory.writeCells d (Memory.write d m a.toNat v) vs

/-- `FlashRead(a, n)`: the `n` bytes from `a` on (R62). -/
def Memory.readBytes (d : Byte) (m : List Host.Cell) : Nat → Nat → List Byte
  | _, 0 => []
  | a, n + 1 => Memory.read d m a :: Memory.readBytes d m (a + 1) n

/-- `FLASH[a]` (R60). -/
def State.flashByte (s : State) (a : Nat) : Byte := Memory.read (unlistedByte s.cfg) s.flash a

/-- `FlashRead(a, n)` (R62). -/
def State.flashRead (s : State) (a n : Nat) : List Byte := Memory.readBytes (unlistedByte s.cfg) s.flash a n

end Sys2Proof.Machine
end

