-- ==== Sys2Proof/Machine/Params.lean ====
section
/-! DEFINITION. Looking the parameters of 00_scope.md R6 up, and the constraints of R6 and R7. -/

namespace Sys2Proof.Machine

/-- `WORD_BYTES` (R6: "decided = 4"). -/
def wordBytes : Nat := 4

/-- `ceil_div` of R8. -/
def ceilDiv (a b : Nat) : Nat := (a + b - 1) / b

/-- `est(n)`: the last segment that starts at or before `n` decides; 0 where none does (which R7 then refuses). -/
def estimate (segments : List EstSegment) (n : Nat) : Nat :=
  segments.foldl (fun t g => if g.start ≤ n then g.base + g.slope * (n - g.start) else t) 0

/-- `DESC(value, index)` (R180). -/
def descriptor (rows : List DescEntry) (value index : Half) : Option (List Byte) :=
  (rows.find? fun e => e.value == value && e.index == index).map (·.bytes)

end Sys2Proof.Machine

namespace Sys2Proof

open Machine

/-- `STATE_CODE` (R104). -/
def StateCodes.code (c : StateCodes) : DfuState → Byte
  | .idle => c.idle
  | .dnloadSync => c.dnloadSync
  | .dnBusy => c.dnBusy
  | .dnloadIdle => c.dnloadIdle
  | .manifestSync => c.manifestSync
  | .manifest => c.manifest
  | .manifestWaitReset => c.manifestWaitReset
  | .uploadIdle => c.uploadIdle
  | .error => c.error

/-- `STATUS_CODE` (R105). -/
def StatusCodes.code (c : StatusCodes) : StatusCode → Byte
  | .ok => c.ok
  | .errADDRESS => c.errADDRESS
  | .errCHECK_ERASED => c.errCHECK_ERASED
  | .errVERIFY => c.errVERIFY
  | .errSTALLEDPKT => c.errSTALLEDPKT

/-- `USB_DEV_STATE in CLASS_STATES` (R171). -/
def ClassStates.mem (c : ClassStates) : UsbDevState → Bool
  | .default => c.default
  | .address => c.address
  | .configured => c.configured

/-- The largest word count a block can have: `ceil_div(TS, WORD_BYTES)` (R11 (f)). -/
def Config.maxWords (c : Config) : Nat := ceilDiv c.ts wordBytes

/-- `est` is between 1 and 0xFFFFFF and does not decrease, on every word count a block can have (R6, R7, D11). -/
def Config.estOk (c : Config) : Bool :=
  (List.range c.maxWords).all fun k =>
    decide (1 ≤ estimate c.est (k + 1) ∧ estimate c.est (k + 1) ≤ 0xFFFFFF ∧
      (k = 0 ∨ estimate c.est k ≤ estimate c.est (k + 1)))

/-- The nine bytes of `STATE_CODE`, in the order of R30. -/
def StateCodes.toList (c : StateCodes) : List Byte :=
  [c.idle, c.dnloadSync, c.dnBusy, c.dnloadIdle, c.manifestSync, c.manifest, c.manifestWaitReset, c.uploadIdle, c.error]

/-- The five bytes of `STATUS_CODE`. -/
def StatusCodes.toList (c : StatusCodes) : List Byte :=
  [c.ok, c.errADDRESS, c.errCHECK_ERASED, c.errVERIFY, c.errSTALLEDPKT]

/-- The constraints of R6 and R7. -/
def Config.valid (c : Config) : Bool :=
  decide (1 ≤ c.mps ∧ c.mps ≤ 65535) && decide (1 ≤ c.ts ∧ c.ts ≤ 65535)
  && decide (c.ts ≤ c.ctrlBufSize ∧ c.ctrlBufSize ≤ 65535)
  && decide (wordBytes ≤ c.pageSize ∧ c.pageSize % wordBytes = 0)
  && decide (c.appBase < c.appEnd ∧ c.appEnd + c.ts ≤ 2 ^ 32)
  && decide (c.appBase % c.pageSize = 0 ∧ c.appEnd % c.pageSize = 0)
  && c.estOk && decide c.stateCodes.toList.Nodup && decide c.statusCodes.toList.Nodup
  && decide (c.cmdCodes.setAddress ≠ c.cmdCodes.erase)

end Sys2Proof
end

