-- ==== Sys2Proof/Machine/Operands.lean ====
section
/-! DEFINITION. Operand assembly: effective addresses (20_memory.md R68), page and word arithmetic (00_scope.md R11), slices of
packets (R8), and the responses' formats (30_encoding.md R103, R106). -/

namespace Sys2Proof.Machine

/-- `p[a:b]` of R8: the bytes `p[a], ..., p[b-1]`. -/
def slice (p : List Byte) (a b : Nat) : List Byte := (p.drop a).take (b - a)

/-- `InRange(a, n)`: the programmable region `[APP_BASE, APP_END)` holds `[a, a + n)`, computed in `Nat` (R61). -/
def inRange (c : Config) (a n : Nat) : Bool := decide (c.appBase ≤ a ∧ a + n ≤ c.appEnd)

/-- `FP.address_in_range(a)` (R61, R270). -/
def addressInRange (c : Config) (a : Nat) : Bool := inRange c a 1

/-- Pointer addressing: the effective address is `ADDR_PTR` (R68). -/
def pointerAddress (s : State) : Nat := s.addrPtr.toNat

/-- Pointer plus scaled block index, in `Nat`, never wrapped; for block numbers 2 and up (R68, R256). -/
def blockAddress (s : State) (blockNum : Half) : Nat := s.addrPtr.toNat + (blockNum.toNat - 2) * s.cfg.ts

/-- `(ADDR_PTR + TS) mod 2^32`: the post-modification of the pointer (R11 (d), R68). -/
def advancedPointer (s : State) : Word := s.addrPtr + BitVec.ofNat 32 s.cfg.ts

/-- `APP_BASE` as a pointer (R206, R240, R242). -/
def basePointer (c : Config) : Word := BitVec.ofNat 32 c.appBase

/-- `wc = ceil_div(length, WORD_BYTES)` (R11 (f), R231). -/
def wordCount (n : Nat) : Nat := ceilDiv n wordBytes

/-- `L = wc * WORD_BYTES`: a length rounded up to whole words (R280). -/
def paddedLength (n : Nat) : Nat := wordCount n * wordBytes

/-- The block's bytes padded with `ERASED_BYTE` to whole words (R280, R290). -/
def paddedData (c : Config) (data : List Byte) (n : Nat) : List Byte :=
  data ++ List.replicate (paddedLength n - n) c.erasedByte

/-- The base of the page that contains `a` (R11 (h)). -/
def pageBase (c : Config) (a : Nat) : Nat := a - a % c.pageSize

/-- The page bases a block of padded length `l` at `a` intersects, ascending (R287). -/
def blockPages (c : Config) (a l : Nat) : List Nat :=
  (List.range ((pageBase c (a + l - 1) - pageBase c a) / c.pageSize + 1)).map fun k => pageBase c a + k * c.pageSize

/-- `StatusBytes(code, t, s)`: the six bytes of a `GETSTATUS` response (R103). -/
def statusBytes (c : Config) (code : StatusCode) (t : Nat) (d : DfuState) : List Byte :=
  [c.statusCodes.code code] ++ bytesLe 3 t ++ [c.stateCodes.code d] ++ [c.statusIString]

/-- The one byte of a `GETSTATE` response (R106). -/
def stateBytes (c : Config) (d : DfuState) : List Byte := [c.stateCodes.code d]

end Sys2Proof.Machine
end

