-- ==== Sys2Proof/Machine/Flags.lean ====
section
/-! DEFINITION. The flags of UDCT (checklist B3): the sticky `DFU_STATUS_CODE` (10_state.md R31, 60_exceptions.md R303), the
presence bit of `PEND_OUT` (R24), and the conditions the validator computes (42_dfu_class.md R202, R203). -/

namespace Sys2Proof.Machine

/-- `ClassError(code)`: entry to the class error state (R204, R312). `ADDR_PTR` and `PENDING` keep their values. -/
def classError (code : StatusCode) (s : State) : State :=
  { s with dfuStatusCode := code, dfuState := .error }

/-- The presence bit of `PEND_OUT` (R24). -/
def pendOutPresent (s : State) : Bool := s.pendOut.isSome

/-- The legality table of R203: is the request legal in the state? -/
def legalIn : DfuRequest → DfuState → Bool
  | .detach, _ => false
  | .dnload, d => d == .idle || d == .dnloadIdle
  | .upload, d => d == .idle || d == .uploadIdle
  | .getstatus, d => !(d == .dnBusy || d == .manifest || d == .manifestWaitReset)
  | .clrstatus, d => d == .error
  | .getstate, d => !(d == .dnBusy || d == .manifest || d == .manifestWaitReset)
  | .abort, d => d == .idle || d == .dnloadSync || d == .dnloadIdle || d == .manifestSync || d == .uploadIdle

/-- The extra conditions of R202, and the reserved DfuSe block number of R251. -/
def extraCondition (c : Config) (r : SetupRequest) : DfuRequest → Bool
  | .dnload =>
    decide (r.length.toNat ≤ c.ts) && !(c.variant == .dfuse && r.value == 1 && decide (0 < r.length.toNat))
  | .upload => c.canUpload
  | .detach => true
  | .getstatus => true
  | .clrstatus => true
  | .getstate => true
  | .abort => true

/-- `legal` of R202. -/
def legal (q : DfuRequest) (r : SetupRequest) (s : State) : Bool :=
  legalIn q s.dfuState && extraCondition s.cfg r q

/-- `USB_DEV_STATE in CLASS_STATES`: the device-state gate of class requests (R171). -/
def classGate (s : State) : Bool := s.cfg.classStates.mem s.usbDevState

end Sys2Proof.Machine
end

