-- ==== Sys2Proof/Machine/Ops.lean ====
section
/-! DEFINITION. The operations the meanings share: output (20_memory.md R70), taking an exception (40 R134, 60 R312) and
returning from one (60 R313, R314), starting and finishing transfers (40 R133, R141), and the calls on the Flash Programmer
(44 R270 to R273). -/

namespace Sys2Proof.Machine

/-- `emit X` (R9, R70). -/
def emit (x : Action) (s : State) : State := { s with trace := s.trace ++ [x] }

/-- Leaving the transfer in progress: `CTS <- Stalled`, `PEND_OUT <- None`, the transfer registers cleared (R131, R132, R134, R141). -/
def abandon (s : State) : State :=
  { s with cts := .stalled, pendOut := none, xferLen := 0, xferPos := 0, xferData := [] }

/-- `Fail()`: a stall of endpoint 0 (R134, R312). The class-level exception `ClassError` is `classError` of Flags.lean. -/
def fail (s : State) : State := emit .stall (abandon s)

/-- Return from a stall: a new `SETUP` is accepted in every phase (R132, R313), and latches its request (R133 steps 1 and 3). -/
def newTransfer (r : SetupRequest) (s : State) : State := { abandon s with setupReq := some r }

/-- Return from the `Error` state: the effect of a completed `CLRSTATUS` (R240, R314). -/
def clearClassError (s : State) : State :=
  { s with dfuStatusCode := .ok, dfuState := .idle, addrPtr := basePointer s.cfg, pending := .noWork }

/-- The first packet of a read transfer: the clamp, the packet and the phase (R133 step 5, R152, R153). -/
def startRead (buf : List Byte) (length : Nat) (s : State) : State :=
  let n := min buf.length length
  let first := min n s.cfg.mps
  let s1 := { s with xferData := buf.take n, xferLen := n }
  let s2 := if first = 0 then emit .zlp s1 else emit (.tx (slice (buf.take n) 0 first)) s1
  { s2 with xferPos := first, cts := if first = n then .lastDataIn else .dataIn }

/-- The accepted write: `PEND_OUT` saved, and either the zero-length status packet or the data stage (R133 step 6). -/
def startWrite (r : SetupRequest) (s : State) : State :=
  if s.cfg.ctrlBufSize < r.length.toNat then fail s
  else if r.length.toNat = 0 then { emit .zlp { s with pendOut := some r } with cts := .statusIn }
  else { s with
    pendOut := some r, xferLen := r.length.toNat, xferPos := 0,
    cts := if r.length.toNat ≤ s.cfg.mps then .lastDataOut else .dataOut }

/-- The whole of R133 from step 3 on, for a decoded request: the handler's `validate` may change the state and says whether
the request is accepted; `execute_get` may change the state and answers `none` for `Error`. -/
def transfer (r : SetupRequest) (validate : State → Bool × State) (get : State → Option (List Byte) × State)
    (s : State) : State :=
  let v := validate (newTransfer r s)
  if v.1 then
    match r.dir with
    | .deviceToHost =>
      let g := get v.2
      match g.1 with
      | some buf => startRead buf r.length.toNat g.2
      | none => fail g.2
    | .hostToDevice => startWrite r v.2
  else fail v.2

/-- The end of a write transfer after `execute_set`: `ok` is its result (R141). -/
def completeWrite (ok : Bool) (s : State) : State := if ok then abandon s else fail s

/-! The Flash Programmer. -/

/-- Every byte of `[a, a + n)` is `ERASED_BYTE` (R271, `FP_IDEAL`). -/
def allErased (c : Config) (flash : List Host.Cell) (a n : Nat) : Bool :=
  (Memory.readBytes (unlistedByte c) flash a n).all (· == c.erasedByte)

/-- The answer of `FP.is_erased(a, wc)` (R271). -/
def fpIsErased (c : Config) (flash : List Host.Cell) (a wc : Nat) : Bool :=
  match c.fp with
  | .ideal => allErased c flash a (wc * wordBytes)
  | .stuck => allErased c flash a (wc * wordBytes)
  | .badProg => allErased c flash a (wc * wordBytes)
  | .other id => Config.fpIsErased id flash a wc

/-- The page that contains `a`, filled with `ERASED_BYTE` (R272, `FP_IDEAL`). -/
def erasedPage (c : Config) (flash : List Host.Cell) (a : Nat) : List Host.Cell :=
  Memory.writeBytes (unlistedByte c) flash (pageBase c a) (List.replicate c.pageSize c.erasedByte)

/-- The flash after `FP.erase_page(a)` (R272, R275). -/
def fpErasePage (c : Config) (flash : List Host.Cell) (a : Nat) : List Host.Cell :=
  match c.fp with
  | .ideal => erasedPage c flash a
  | .stuck => flash
  | .badProg => erasedPage c flash a
  | .other id => Memory.writeCells (unlistedByte c) flash (Config.fpErasePage id flash a)

/-- What `FP_BADPROG` writes: the first byte with bit 0 inverted (R275). -/
def badFirstByte : List Byte → List Byte
  | [] => []
  | b :: bs => (b ^^^ 0x01) :: bs

/-- The flash after `FP.program(a, bytes)` (R273, R275). -/
def fpProgram (c : Config) (flash : List Host.Cell) (a : Nat) (bytes : List Byte) : List Host.Cell :=
  match c.fp with
  | .ideal => Memory.writeBytes (unlistedByte c) flash a bytes
  | .stuck => Memory.writeBytes (unlistedByte c) flash a bytes
  | .badProg => Memory.writeBytes (unlistedByte c) flash a (badFirstByte bytes)
  | .other id => Memory.writeCells (unlistedByte c) flash (Config.fpProgram id flash a bytes)

/-- The call `FP.is_erased(a, wc)` with its trace entry (R70, R271). -/
def callIsErased (a wc : Nat) (s : State) : Bool × State :=
  let b := fpIsErased s.cfg s.flash a wc
  (b, emit (.erasedQ a wc b) s)

/-- The call `FP.erase_page(a)` with its trace entry (R70, R272). -/
def callErasePage (a : Nat) (s : State) : State :=
  emit (.erase a) { s with flash := fpErasePage s.cfg s.flash a }

/-- One `FP.erase_page` call for each page, in order (R285, R287). -/
def callErasePages (pages : List Nat) (s : State) : State := pages.foldl (fun s p => callErasePage p s) s

/-- The call `FP.program(a, bytes, wc)` with its trace entry (R70, R273). -/
def callProgram (a : Nat) (bytes : List Byte) (s : State) : State :=
  emit (.prog a bytes) { s with flash := fpProgram s.cfg s.flash a bytes }

/-- A configuration that breaks R7 is refused, not run (R7, R345). -/
def configAccepted (s : State) : Bool := Config.valid s.cfg

end Sys2Proof.Machine
end

