-- ==== Sys2Proof/Machine/Flash.lean ====
section
/-! DEFINITION. The flash erase/program/verify sequencer: block-transfer execution (44_flash_sequencer.md R280 to R295). -/

namespace Sys2Proof.Machine

/-- Step 4: the plain variant's pointer advances, the DfuSe one's does not; back to `DnloadSync` (R257, R291). -/
def advanceAfterBlock (s : State) : State :=
  match s.cfg.variant with
  | .plainDfu => { s with addrPtr := advancedPointer s, dfuState := .dnloadSync }
  | .dfuse => { s with dfuState := .dnloadSync }

/-- Steps 3 and 4: program, read back, compare the payload bytes (R290), advance (R291). -/
def programAndVerify (pb : PendingBlock) (s : State) : State :=
  let n := pb.length.toNat
  let s1 := callProgram pb.target (paddedData s.cfg pb.data n) s
  if s1.flashRead pb.target n = pb.data then advanceAfterBlock s1 else classError .errVERIFY s1

/-- Step 2: erase only if needed, and check again (R285, R287), then steps 3 and 4. -/
def eraseIfNeeded (pb : PendingBlock) (s : State) : State :=
  let n := pb.length.toNat
  let q := callIsErased pb.target (wordCount n) s
  if q.1 then programAndVerify pb q.2
  else
    let s1 := callErasePages (blockPages s.cfg pb.target (paddedLength n)) q.2
    let q2 := callIsErased pb.target (wordCount n) s1
    if q2.1 then programAndVerify pb q2.2 else classError .errCHECK_ERASED q2.2

/-- `BlockExec(pb)` (R280): step 1 is the range check on the padded length (R281). -/
def blockExec (pb : PendingBlock) (s : State) : State :=
  if inRange s.cfg pb.target (paddedLength pb.length.toNat) then eraseIfNeeded pb s
  else classError .errADDRESS s

end Sys2Proof.Machine
end

