-- ==== Sys2Proof/Machine/Dfu.lean ====
section
/-! DEFINITION. The DFU Class State Machine (42_dfu_class.md) with the DfuSe Extension (43_dfuse_extension.md): the validator,
and what each request does when it is executed. -/

namespace Sys2Proof.Machine

/-- The validation of a class request that is one of the seven (R171, R200, R202): the device-state gate, which only stalls;
then legality, whose violation enters `Error` (R204). -/
def classJudge (q : DfuRequest) (r : SetupRequest) (s : State) : Bool × State :=
  if classGate s then
    if legal q r s then (true, s) else (false, classError .errSTALLEDPKT s)
  else (false, s)

/-- `DFU.validate` behind the gate (R171, R200): a class request that is none of the seven fails the shape check, which
writes nothing (R201). -/
def classValidate (r : SetupRequest) (s : State) : Bool × State :=
  match DfuRequest.ofSelector r.dir r.code with
  | some q => classJudge q r s
  | none => (false, s)

/-! Requests executed at `SETUP` (`execute_get`, R210). -/

/-- `UPLOAD` (R225, R258). -/
def uploadGet (r : SetupRequest) (s : State) : List Byte × State :=
  let p := pointerAddress s
  if addressInRange s.cfg p then
    (s.flashRead p (min r.length.toNat (s.cfg.appEnd - p)),
     { s with addrPtr := advancedPointer s, dfuState := .uploadIdle })
  else ([], { s with dfuState := .idle })

/-- `Manifestation()`: it reads and writes nothing (R249). -/
def manifestation (s : State) : State := s

/-- The poll in `DnloadSync` with a block pending: the response is composed before the block runs (R230, R231). -/
def pollBlock (pb : PendingBlock) (s : State) : List Byte × State :=
  (statusBytes s.cfg s.dfuStatusCode (estimate s.cfg.est (wordCount pb.length.toNat)) .dnBusy,
   blockExec pb { s with dfuState := .dnBusy, pending := .noWork })

/-- The poll in `ManifestSync` with the manifestation pending (R230). -/
def pollManifest (s : State) : List Byte × State :=
  (statusBytes s.cfg s.dfuStatusCode 0 .manifest,
   { manifestation { s with dfuState := .manifest, pending := .noWork } with dfuState := .manifestSync })

/-- A poll that reports a state, and leaves the machine in it, with timeout 0 (R230). -/
def pollInto (d : DfuState) (s : State) : List Byte × State :=
  (statusBytes s.cfg s.dfuStatusCode 0 d, { s with dfuState := d })

/-- `GETSTATUS` (R230). In the three states where it is not legal it never runs (R203); nothing changes there. -/
def getstatusGet (s : State) : List Byte × State :=
  match s.dfuState with
  | .dnloadSync =>
    match s.pending with
    | .block pb => pollBlock pb s
    | .noWork => pollInto .dnloadIdle s
    | .manifestWork => pollInto .dnloadIdle s
  | .manifestSync =>
    match s.pending with
    | .manifestWork => pollManifest s
    | .noWork => pollInto .manifestWaitReset s
    | .block _ => pollInto .manifestWaitReset s
  | .idle => pollInto .idle s
  | .dnloadIdle => pollInto .dnloadIdle s
  | .uploadIdle => pollInto .uploadIdle s
  | .error => pollInto .error s
  | .dnBusy => pollInto .dnBusy s
  | .manifest => pollInto .manifest s
  | .manifestWaitReset => pollInto .manifestWaitReset s

/-- `GETSTATE` (R235). -/
def getstateGet (s : State) : List Byte × State := (stateBytes s.cfg s.dfuState, s)

/-! DfuSe block-0 commands, executed at the completion of the status stage (R252). The Bool is `execute_set`'s result. -/

/-- `SET_ADDRESS_POINTER` (R253). -/
def setAddressPointer (arg : Word) (s : State) : Bool × State :=
  (true, { s with addrPtr := arg, pending := .noWork, dfuState := .dnloadSync })

/-- `ERASE_PAGE` (R254). -/
def erasePageCommand (arg : Word) (s : State) : Bool × State :=
  let a := arg.toNat
  let s1 := { s with pending := .noWork }
  if addressInRange s.cfg a then
    let q := callIsErased (pageBase s.cfg a) (s.cfg.pageSize / wordBytes) (callErasePage a s1)
    if q.1 then (true, { q.2 with dfuState := .dnloadSync }) else (false, classError .errCHECK_ERASED q.2)
  else (false, classError .errADDRESS s1)

/-- `BadCommand()` (R255). -/
def badCommand (s : State) : Bool × State := (false, classError .errSTALLEDPKT { s with pending := .noWork })

/-- The command block of a DfuSe `DNLOAD` of block 0: the payload length is the request's (R252). -/
def commandOf (c : Config) (length : Half) (data : List Byte) : Except DecodeError DfuseCommand :=
  if length.toNat < 5 then .error .shortCommand else decodeCommand c.cmdCodes data

/-- `DfuSeCommand(data, length)` (R252). -/
def dfuseCommand (length : Half) (data : List Byte) (s : State) : Bool × State :=
  match commandOf s.cfg length data with
  | .ok (.setAddressPointer arg) => setAddressPointer arg s
  | .ok (.erasePage arg) => erasePageCommand arg s
  | .error _ => badCommand s

/-! Requests executed at the completion of the status stage (`execute_set`, R211). -/

/-- Capturing a block for the next poll (R220, R35). -/
def captureBlock (r : SetupRequest) (data : List Byte) (target : Nat) (s : State) : State :=
  { s with
    pending := .block { blockNum := r.value, length := r.length, data := data.take r.length.toNat, target := target },
    dfuState := .dnloadSync }

/-- Zero-length `DNLOAD`: end of the download from `DnloadIdle`, nothing from `Idle` (R220, R222). -/
def endDownload (s : State) : State :=
  if s.dfuState = .dnloadIdle then
    { s with pending := if s.cfg.manifestDelay then .manifestWork else .noWork, dfuState := .manifestSync }
  else s

/-- `DNLOAD` (R220, R250). `none` for the DfuSe block number 1 with data, which `validate` never accepts (R251). -/
def dnloadSet (r : SetupRequest) (data : List Byte) (s : State) : Option (Bool × State) :=
  if r.length.toNat = 0 then some (true, endDownload s)
  else
    match s.cfg.variant with
    | .plainDfu => some (true, captureBlock r data (pointerAddress s) s)
    | .dfuse =>
      if r.value = 0 then some (dfuseCommand r.length data s)
      else if r.value = 1 then none
      else some (true, captureBlock r data (blockAddress s r.value) s)

/-- `CLRSTATUS` (R240). -/
def clrstatusSet (s : State) : State := clearClassError s

/-- `ABORT` (R242). -/
def abortSet (s : State) : State := { s with dfuState := .idle, addrPtr := basePointer s.cfg, pending := .noWork }

/-- `DFU.execute_get` (R210); `none` for the codes that cannot arrive. -/
def classGet (r : SetupRequest) (s : State) : Option (List Byte) × State :=
  match DfuRequest.ofSelector r.dir r.code with
  | some .upload => (some (uploadGet r s).1, (uploadGet r s).2)
  | some .getstatus => (some (getstatusGet s).1, (getstatusGet s).2)
  | some .getstate => (some (getstateGet s).1, (getstateGet s).2)
  | some .detach => (none, s)
  | some .dnload => (none, s)
  | some .clrstatus => (none, s)
  | some .abort => (none, s)
  | none => (none, s)

/-- `DFU.execute_set` (R211); `none` for the requests that never arrive (R211, R245). -/
def classSet (r : SetupRequest) (data : List Byte) (s : State) : Option (Bool × State) :=
  match DfuRequest.ofSelector r.dir r.code with
  | some .dnload => dnloadSet r data s
  | some .clrstatus => some (true, clrstatusSet s)
  | some .abort => some (true, abortSet s)
  | some .detach => none
  | some .upload => none
  | some .getstatus => none
  | some .getstate => none
  | none => none

/-- `DFU.reset()`: class reset (R206). -/
def classReset (s : State) : State :=
  { s with dfuState := .idle, dfuStatusCode := .ok, addrPtr := basePointer s.cfg, pending := .noWork }

end Sys2Proof.Machine
end

