-- ==== Sys2Proof/Machine/DfuInstrs.lean ====
section
/-! DEFINITION. The meanings of the seven DFU request rows: the `SETUP` event that carries the request. A read request is
executed in it; a write request is validated and its transfer opened, and the `IN` that completes its status stage executes
it (R76, R133, R211). -/

namespace Sys2Proof.Machine

/-- A handler's read that never answers `Error` (R210). -/
def reads (get : State → List Byte × State) (s : State) : Option (List Byte) × State := (some (get s).1, (get s).2)

/-- The read of a request that has none: a write request never gets there (R133). -/
def noRead (s : State) : Option (List Byte) × State := (none, s)

/-- `DFU_DETACH` (R245): a violation in every state. -/
def execDfuDetach (f : SetupFields) (s : State) : Host.Outcome State Fault Refusal :=
  let r := f.request .hostToDevice .classReq 0
  .next (transfer r (classJudge .detach r) noRead s)

/-- `DFU_DNLOAD` (R220); executed by `dnloadSet`. -/
def execDfuDnload (f : SetupFields) (s : State) : Host.Outcome State Fault Refusal :=
  let r := f.request .hostToDevice .classReq 1
  .next (transfer r (classJudge .dnload r) noRead s)

/-- `DFU_UPLOAD` (R225). -/
def execDfuUpload (f : SetupFields) (s : State) : Host.Outcome State Fault Refusal :=
  let r := f.request .deviceToHost .classReq 2
  .next (transfer r (classJudge .upload r) (reads (uploadGet r)) s)

/-- `DFU_GETSTATUS` (R230). -/
def execDfuGetstatus (f : SetupFields) (s : State) : Host.Outcome State Fault Refusal :=
  let r := f.request .deviceToHost .classReq 3
  .next (transfer r (classJudge .getstatus r) (reads getstatusGet) s)

/-- `DFU_CLRSTATUS` (R240); executed by `clrstatusSet`. -/
def execDfuClrstatus (f : SetupFields) (s : State) : Host.Outcome State Fault Refusal :=
  let r := f.request .hostToDevice .classReq 4
  .next (transfer r (classJudge .clrstatus r) noRead s)

/-- `DFU_GETSTATE` (R235). -/
def execDfuGetstate (f : SetupFields) (s : State) : Host.Outcome State Fault Refusal :=
  let r := f.request .deviceToHost .classReq 5
  .next (transfer r (classJudge .getstate r) (reads getstateGet) s)

/-- `DFU_ABORT` (R242); executed by `abortSet`. -/
def execDfuAbort (f : SetupFields) (s : State) : Host.Outcome State Fault Refusal :=
  let r := f.request .hostToDevice .classReq 6
  .next (transfer r (classJudge .abort r) noRead s)

end Sys2Proof.Machine
end

