-- ==== Sys2Proof/Machine/DfuseInstrs.lean ====
section
/-! DEFINITION. The meanings of the two DfuSe sub-command rows: the `IN` event that completes the status stage of a block-0
`DNLOAD` (R252), when its data stage is the command (Machine/Fetch.lean reads it there, assumption 12). -/

namespace Sys2Proof.Machine

/-- `DFUSE_SET_ADDRESS_POINTER` (R253), with the end of its transfer (R141). -/
def execDfuseSetAddressPointer (arg : Word) (s : State) : Host.Outcome State Fault Refusal :=
  .next (completeWrite (setAddressPointer arg s).1 (setAddressPointer arg s).2)

/-- `DFUSE_ERASE_PAGE` (R254), with the end of its transfer (R141). -/
def execDfuseErasePage (arg : Word) (s : State) : Host.Outcome State Fault Refusal :=
  .next (completeWrite (erasePageCommand arg s).1 (erasePageCommand arg s).2)

end Sys2Proof.Machine
end

