-- ==== Sys2Proof/Machine/Handlers.lean ====
section
/-! DEFINITION. The Standard and the Vendor handler behind the seam of 41_request_dispatcher.md R176: the reference instances
`STD_REF` (R180 to R185) and `VND_REF` (R186), and a replacement handler of either kind (assumption 9). -/

namespace Sys2Proof.Machine

/-! `STD_REF`. -/

/-- `SET_ADDRESS` is accepted (R182). -/
def setAddressOk (r : SetupRequest) (s : State) : Bool :=
  decide (r.value.toNat ≤ 127) && r.length == 0 && (s.usbDevState == .default || s.usbDevState == .address)

/-- `SET_CONFIGURATION` is accepted (R183). -/
def setConfigurationOk (r : SetupRequest) (s : State) : Bool :=
  r.length == 0 && (s.usbDevState == .address || s.usbDevState == .configured)
  && (r.value.extractLsb' 0 8 == 0 || r.value.extractLsb' 0 8 == 1)

/-- `GET_DESCRIPTOR` is accepted (R181). -/
def getDescriptorOk (r : SetupRequest) (s : State) : Bool := (descriptor s.cfg.desc r.value r.index).isSome

/-- `GET_CONFIGURATION` is accepted (R184). -/
def getConfigurationOk (s : State) : Bool := s.usbDevState == .address || s.usbDevState == .configured

/-- `execute_set` of `SET_ADDRESS` (R182). -/
def setAddress (r : SetupRequest) (s : State) : State :=
  let a := r.value.setWidth 8
  emit (.addr a) { s with usbAddr := a, usbDevState := if r.value.toNat = 0 then .default else .address }

/-- `execute_set` of `SET_CONFIGURATION` (R183). -/
def setConfiguration (r : SetupRequest) (s : State) : State :=
  let c := r.value.extractLsb' 0 8
  { s with usbConfig := c, usbDevState := if c = 1 then .configured else .address }

/-- `execute_get` of `GET_DESCRIPTOR` (R181): the descriptor that `validate` found. -/
def getDescriptor (r : SetupRequest) (s : State) : Option (List Byte) := descriptor s.cfg.desc r.value r.index

/-- `execute_get` of `GET_CONFIGURATION` (R184). -/
def getConfiguration (s : State) : Option (List Byte) := some [s.usbConfig]

/-- `STD_REF.validate` (R181 to R185). -/
def stdRefValidate (r : SetupRequest) (s : State) : Bool :=
  match r.dir with
  | .hostToDevice =>
    if r.code = 5 then setAddressOk r s else if r.code = 9 then setConfigurationOk r s else false
  | .deviceToHost =>
    if r.code = 6 then getDescriptorOk r s else if r.code = 8 then getConfigurationOk s else false

/-- `STD_REF.execute_get` (R181, R184); no other request passes `validate` (R185). -/
def stdRefGet (r : SetupRequest) (s : State) : Option (List Byte) :=
  if r.code = 6 then getDescriptor r s else if r.code = 8 then getConfiguration s else none

/-- `STD_REF.execute_set` (R182, R183); `none` for a request that `validate` never accepts as a write (R185). -/
def stdRefSet (r : SetupRequest) (s : State) : Option (Bool × State) :=
  match r.dir with
  | .hostToDevice =>
    if r.code = 5 then some (true, setAddress r s) else if r.code = 9 then some (true, setConfiguration r s) else none
  | .deviceToHost => none

/-- `STD_REF.reset()` (R180). -/
def stdRefReset (s : State) : State := { s with usbAddr := 0, usbConfig := 0 }

/-! The Standard handler that the configuration names. -/

/-- `STD.validate` of a replacement handler (R176). -/
def stdOtherValidate (id : Nat) (r : SetupRequest) (s : State) : Bool × State :=
  let v := Config.handlerValidate id r s.usbDevState s.stdOwn
  (v.1, { s with stdOwn := v.2 })

/-- `STD.execute_get` of a replacement handler (R176). -/
def stdOtherGet (id : Nat) (r : SetupRequest) (s : State) : Option (List Byte) × State :=
  let g := Config.handlerGet id r s.stdOwn
  (g.1, { s with stdOwn := g.2 })

/-- `STD.execute_set` of a replacement handler: it may also write `USB_DEV_STATE` and emit `set_device_address` (R176). -/
def stdOtherSet (id : Nat) (r : SetupRequest) (data : List Byte) (s : State) : Bool × State :=
  let x := Config.handlerSet id r data s.stdOwn
  let d := Config.stdSetDevice id r data s.usbDevState s.stdOwn
  (x.1, { s with stdOwn := x.2, usbDevState := d.1.getD s.usbDevState, trace := s.trace ++ d.2.map .addr })

/-- The validator of one request of `STD_REF`, or of the handler that replaces it. -/
def stdJudge (ok : State → Bool) (r : SetupRequest) (s : State) : Bool × State :=
  match s.cfg.std with
  | .ref => (ok s, s)
  | .other id => stdOtherValidate id r s

/-- The read of one request of `STD_REF`, or of the handler that replaces it. -/
def stdRead (get : State → Option (List Byte)) (r : SetupRequest) (s : State) : Option (List Byte) × State :=
  match s.cfg.std with
  | .ref => (get s, s)
  | .other id => stdOtherGet id r s

/-- `STD.validate(req, USB_DEV_STATE)` (R171). -/
def stdValidate (r : SetupRequest) (s : State) : Bool × State := stdJudge (stdRefValidate r) r s

/-- `STD.execute_get(req)` (R173). -/
def stdGet (r : SetupRequest) (s : State) : Option (List Byte) × State := stdRead (stdRefGet r) r s

/-- `STD.execute_set(req, data)` (R174). -/
def stdSet (r : SetupRequest) (data : List Byte) (s : State) : Option (Bool × State) :=
  match s.cfg.std with
  | .ref => stdRefSet r s
  | .other id => some (stdOtherSet id r data s)

/-- `STD.reset()` (R175). -/
def stdReset (s : State) : State :=
  match s.cfg.std with
  | .ref => stdRefReset s
  | .other id => { stdRefReset s with stdOwn := Config.handlerReset id }

/-! The Vendor handler that the configuration names; `VND_REF` stalls every request (R186). -/

/-- `VND.validate(req, USB_DEV_STATE)` (R171, R186). -/
def vndValidate (r : SetupRequest) (s : State) : Bool × State :=
  match s.cfg.vnd with
  | .ref => (false, s)
  | .other id =>
    let v := Config.handlerValidate id r s.usbDevState s.vndOwn
    (v.1, { s with vndOwn := v.2 })

/-- `VND.execute_get(req)` (R173); `VND_REF`'s is never called (R186). -/
def vndGet (r : SetupRequest) (s : State) : Option (List Byte) × State :=
  match s.cfg.vnd with
  | .ref => (none, s)
  | .other id =>
    let g := Config.handlerGet id r s.vndOwn
    (g.1, { s with vndOwn := g.2 })

/-- `VND.execute_set(req, data)` (R174); `none` under `VND_REF`, whose is never called (R186). -/
def vndSet (r : SetupRequest) (data : List Byte) (s : State) : Option (Bool × State) :=
  match s.cfg.vnd with
  | .ref => none
  | .other id =>
    let x := Config.handlerSet id r data s.vndOwn
    some (x.1, { s with vndOwn := x.2 })

/-- `VND.reset()` (R175, R186). -/
def vndReset (s : State) : State :=
  match s.cfg.vnd with
  | .ref => s
  | .other id => { s with vndOwn := Config.handlerReset id }

end Sys2Proof.Machine
end

