-- ==== Sys2Proof/Machine/Dispatcher.lean ====
section
/-! DEFINITION. The Request Dispatcher (41_request_dispatcher.md R170 to R175): routing by `type`. -/

namespace Sys2Proof.Machine

/-- `Dispatcher.validate(req)` (R171). -/
def dispatcherValidate (r : SetupRequest) (s : State) : Bool × State :=
  match r.type with
  | .standard => stdValidate r s
  | .classReq => classValidate r s
  | .vendor => vndValidate r s
  | .reserved => (false, s)

/-- `Dispatcher.execute_get(req)` (R173); a reserved request is never validated (R171). -/
def dispatcherGet (r : SetupRequest) (s : State) : Option (List Byte) × State :=
  match r.type with
  | .standard => stdGet r s
  | .classReq => classGet r s
  | .vendor => vndGet r s
  | .reserved => (none, s)

/-- `Dispatcher.execute_set(req, data)` (R174): `some (ok, state)`, or `none` for a request that `validate` accepts in no
state, for which no rule gives an effect. -/
def dispatcherSet (r : SetupRequest) (data : List Byte) (s : State) : Option (Bool × State) :=
  match r.type with
  | .standard => stdSet r data s
  | .classReq => classSet r data s
  | .vendor => vndSet r data s
  | .reserved => none

/-- `Dispatcher.reset()` (R175). -/
def dispatcherReset (s : State) : State :=
  vndReset (classReset (stdReset { s with usbDevState := .default }))

end Sys2Proof.Machine
end

