-- ==== Sys2Proof/Machine/Engine.lean ====
section
/-! DEFINITION. The Control Transfer Engine (40_control_transfer_engine.md): the four event handlers with the routing written
as the engine sees it, through the Dispatcher (R154). -/

namespace Sys2Proof.Machine

/-- `on_reset()` (R131, R340). -/
def onReset (s : State) : State := dispatcherReset { abandon s with setupReq := none }

/-- Step 2 of R133: a payload that does not parse; no handler is called. -/
def parseFailure (s : State) : State := fail { abandon s with setupReq := none }

/-- `on_setup(bytes)` (R133). -/
def onSetup (payload : List Byte) (s : State) : State :=
  match decodeRequest payload with
  | none => parseFailure s
  | some r => transfer r (dispatcherValidate r) (dispatcherGet r) s

/-- What `on_setup` returns (R130); nothing in the machine reads it. -/
inductive SetupResult where
  | ok
  | errStall
deriving DecidableEq, Repr

/-- `Err(Stall)` exactly when the callback went through `Fail()` (R130): the callback's last output is then `STALL`. -/
def onSetupResult (payload : List Byte) (s : State) : SetupResult :=
  if (onSetup payload { s with trace := [] }).trace.getLast? = some .stall then .errStall else .ok

/-- `IN` in `DataIn`: the next packet (R140). -/
def sendNext (s : State) : State :=
  let k := min s.cfg.mps (s.xferLen - s.xferPos)
  let s1 := emit (.tx (slice s.xferData s.xferPos (s.xferPos + k))) s
  { s1 with xferPos := s.xferPos + k, cts := if s.xferPos + k = s.xferLen then .lastDataIn else .dataIn }

/-- `IN` in `StatusIn`: the write is executed now (R141). -/
def finishWrite (s : State) : Host.Outcome State Fault Refusal :=
  match s.pendOut with
  | none => .fault .noPendingWrite
  | some r =>
    match dispatcherSet r (s.xferData.take s.xferLen) s with
    | none => .fault .unacceptedPendingWrite
    | some x => .next (completeWrite x.1 x.2)

/-- `on_in_complete()` (R140 to R142). -/
def onInComplete (s : State) : Host.Outcome State Fault Refusal :=
  match s.cts with
  | .dataIn => .next (sendNext s)
  | .lastDataIn => .next { s with cts := .statusOut }
  | .statusIn => finishWrite s
  | .stalled => .next (fail s)
  | .statusOut => .next (fail s)
  | .dataOut => .next (fail s)
  | .lastDataOut => .next (fail s)

/-- Storing a packet behind the bytes already received (R145, R146, R72). -/
def storePacket (packet : List Byte) (s : State) : State :=
  { s with xferData := s.xferData.take s.xferPos ++ packet, xferPos := s.xferPos + packet.length }

/-- `OUT` in `DataOut` (R145). -/
def receiveFull (packet : List Byte) (s : State) : State :=
  if packet.length = s.cfg.mps then
    { storePacket packet s with
      cts := if s.xferLen - (s.xferPos + packet.length) ≤ s.cfg.mps then .lastDataOut else .dataOut }
  else fail s

/-- `OUT` in `LastDataOut` (R146). -/
def receiveLast (packet : List Byte) (s : State) : State :=
  if packet.length = s.xferLen - s.xferPos then { emit .zlp (storePacket packet s) with cts := .statusIn }
  else fail s

/-- `OUT` in `StatusOut` (R147): the read transfer ends; a status packet that is not empty is stalled. -/
def receiveStatus (packet : List Byte) (s : State) : State :=
  let s1 := { s with cts := .stalled, xferLen := 0, xferPos := 0, xferData := [] }
  if packet.length = 0 then s1 else emit .stall s1

/-- `on_out_complete()` with the packet (R145 to R148). -/
def onOutComplete (packet : List Byte) (s : State) : State :=
  match s.cts with
  | .dataOut => receiveFull packet s
  | .lastDataOut => receiveLast packet s
  | .statusOut => receiveStatus packet s
  | .stalled => fail s
  | .dataIn => fail s
  | .lastDataIn => fail s
  | .statusIn => fail s

end Sys2Proof.Machine
end

