-- ==== Sys2Proof/Machine/Events.lean ====
section
/-! DEFINITION. The meanings of the four event rows: `RESET`, `SETUP`, `IN`, `OUT` (R130). -/

namespace Sys2Proof.Machine

/-- `RESET` (R131). -/
def execReset (s : State) : Host.Outcome State Fault Refusal := .next (onReset s)

/-- `SETUP` with any payload (R133). The decoder gives this row the payloads that are not 8 bytes long. -/
def execSetup (payload : List Byte) (s : State) : Host.Outcome State Fault Refusal := .next (onSetup payload s)

/-- `IN` (R140, R141, R142). -/
def execIn (s : State) : Host.Outcome State Fault Refusal := onInComplete s

/-- `OUT` (R145, R146, R147, R148). -/
def execOut (packet : List Byte) (s : State) : Host.Outcome State Fault Refusal := .next (onOutComplete packet s)

end Sys2Proof.Machine
end

