-- ==== Sys2Proof/Machine/HandlerInstrs.lean ====
section
/-! DEFINITION. The meanings of the four handler rows: `SETUP` events whose packet no request row selects (R100, R171). -/

namespace Sys2Proof.Machine

/-- A `SETUP` that no handler accepts: the transfer is opened and stalled, and no class register changes (R171, R201). -/
def stallRequest (r : SetupRequest) (s : State) : State := fail (newTransfer r s)

/-- `HANDLER_STANDARD`: `STD_REF` stalls every request but its four (R185); a replacement handler decides itself (R176). -/
def execHandlerStandard (dir : Dir) (code : Byte) (f : SetupFields) (s : State) : Host.Outcome State Fault Refusal :=
  let r := f.request dir .standard code
  .next (transfer r (stdJudge (fun _ => false) r) (stdRead (fun _ => none) r) s)

/-- `HANDLER_CLASS`: a class request that is none of the seven is stalled, by the gate (R171) or by the shape check (R201);
neither writes a class register. -/
def execHandlerClass (dir : Dir) (code : Byte) (f : SetupFields) (s : State) : Host.Outcome State Fault Refusal :=
  .next (stallRequest (f.request dir .classReq code) s)

/-- `HANDLER_VENDOR`: `VND_REF` stalls every request (R186); a replacement handler decides itself (R176). -/
def execHandlerVendor (dir : Dir) (code : Byte) (f : SetupFields) (s : State) : Host.Outcome State Fault Refusal :=
  let r := f.request dir .vendor code
  .next (transfer r (vndValidate r) (vndGet r) s)

/-- `HANDLER_RESERVED`: no handler; a stall with no class effect (R171). -/
def execHandlerReserved (dir : Dir) (code : Byte) (f : SetupFields) (s : State) : Host.Outcome State Fault Refusal :=
  .next (stallRequest (f.request dir .reserved code) s)

end Sys2Proof.Machine
end

