-- ==== Sys2Proof/Machine/StdInstrs.lean ====
section
/-! DEFINITION. The meanings of the four rows of `STD_REF`: the `SETUP` event that carries the request (R181 to R184). Under a
replacement Standard handler the same packet is that handler's to judge (R176). -/

namespace Sys2Proof.Machine

/-- `STD_SET_ADDRESS` (R182); executed by `setAddress`. -/
def execStdSetAddress (f : SetupFields) (s : State) : Host.Outcome State Fault Refusal :=
  let r := f.request .hostToDevice .standard 5
  .next (transfer r (stdJudge (setAddressOk r) r) (stdRead (fun _ => none) r) s)

/-- `STD_GET_DESCRIPTOR` (R181). -/
def execStdGetDescriptor (f : SetupFields) (s : State) : Host.Outcome State Fault Refusal :=
  let r := f.request .deviceToHost .standard 6
  .next (transfer r (stdJudge (getDescriptorOk r) r) (stdRead (getDescriptor r) r) s)

/-- `STD_GET_CONFIGURATION` (R184). -/
def execStdGetConfiguration (f : SetupFields) (s : State) : Host.Outcome State Fault Refusal :=
  let r := f.request .deviceToHost .standard 8
  .next (transfer r (stdJudge getConfigurationOk r) (stdRead getConfiguration r) s)

/-- `STD_SET_CONFIGURATION` (R183); executed by `setConfiguration`. -/
def execStdSetConfiguration (f : SetupFields) (s : State) : Host.Outcome State Fault Refusal :=
  let r := f.request .hostToDevice .standard 9
  .next (transfer r (stdJudge (setConfigurationOk r) r) (stdRead (fun _ => none) r) s)

end Sys2Proof.Machine
end

