-- ==== Sys2Proof/Machine/Dispatch.lean ====
section
/-! DEFINITION. One arm per instruction (spec/opcode_table.json), each one call of its meaning. -/

namespace Sys2Proof.Machine

def exec (i : Instr) (s : State) : Host.Outcome State Fault Refusal :=
  match i with
  | .reset => Sys2Proof.Machine.execReset s
  | .setup payload => Sys2Proof.Machine.execSetup payload s
  | .inDone => Sys2Proof.Machine.execIn s
  | .outDone packet => Sys2Proof.Machine.execOut packet s
  | .handlerStandard dir code f => Sys2Proof.Machine.execHandlerStandard dir code f s
  | .handlerClass dir code f => Sys2Proof.Machine.execHandlerClass dir code f s
  | .handlerVendor dir code f => Sys2Proof.Machine.execHandlerVendor dir code f s
  | .handlerReserved dir code f => Sys2Proof.Machine.execHandlerReserved dir code f s
  | .dfuDetach f => Sys2Proof.Machine.execDfuDetach f s
  | .dfuDnload f => Sys2Proof.Machine.execDfuDnload f s
  | .dfuUpload f => Sys2Proof.Machine.execDfuUpload f s
  | .dfuGetstatus f => Sys2Proof.Machine.execDfuGetstatus f s
  | .dfuClrstatus f => Sys2Proof.Machine.execDfuClrstatus f s
  | .dfuGetstate f => Sys2Proof.Machine.execDfuGetstate f s
  | .dfuAbort f => Sys2Proof.Machine.execDfuAbort f s
  | .dfuseSetAddressPointer arg => Sys2Proof.Machine.execDfuseSetAddressPointer arg s
  | .dfuseErasePage arg => Sys2Proof.Machine.execDfuseErasePage arg s
  | .stdSetAddress f => Sys2Proof.Machine.execStdSetAddress f s
  | .stdGetDescriptor f => Sys2Proof.Machine.execStdGetDescriptor f s
  | .stdGetConfiguration f => Sys2Proof.Machine.execStdGetConfiguration f s
  | .stdSetConfiguration f => Sys2Proof.Machine.execStdSetConfiguration f s

end Sys2Proof.Machine
end

