-- ==== Sys2Proof/Machine/Fetch.lean ====
section
/-! DEFINITION. Fetching: which instruction the oldest delivered event is (30_encoding.md R90), and where a program's words
are put for the next step to run them (assumption 14). UDCT has no instruction memory; its program is the event sequence (R78). -/

namespace Sys2Proof.Machine

/-- The request of a DfuSe command block that waits for the completion of its status stage: block 0, with data (R220, R252). -/
def isCommandRequest (c : Config) (r : SetupRequest) : Bool :=
  c.variant == .dfuse && r.type == .classReq && DfuRequest.ofSelector r.dir r.code == some .dnload
  && r.value == 0 && decide (0 < r.length.toNat)

/-- Level 3 of R90: in `StatusIn`, with a DfuSe command block received, the sub-command that the next `IN` completes. -/
def awaitedCommand (s : State) : Option DfuseCommand :=
  match s.cts, s.pendOut with
  | .statusIn, some r =>
    if isCommandRequest s.cfg r then (commandOf s.cfg r.length (s.xferData.take s.xferLen)).toOption else none
  | _, _ => none

/-- The instruction an event is (levels 1 to 3 of R90). -/
def instrOf (s : State) : Event → Instr
  | .reset => .reset
  | .setup payload => decodeSetup payload
  | .outDone packet => .outDone packet
  | .inDone =>
    match awaitedCommand s with
    | some c => Instr.ofCommand c
    | none => .inDone

/-- The oldest event's instruction, and the state with that event taken off the input (R71, R75); `none` when no event has
been delivered. -/
def fetch (s : State) : Option (Instr × State) :=
  match s.events with
  | [] => none
  | e :: rest => some (instrOf s e, { s with events := rest })

/-- The request of a command block of a given length: DfuSe `DNLOAD` of block 0 (R252). -/
def commandRequest (length : Half) : SetupRequest :=
  { dir := .hostToDevice, type := .classReq, recipient := 1, code := 1, value := 0, index := 0, length := length }

/-- The event of an event record (R91); `none` where the record is no event. -/
def eventOfRecord : List Byte → Option Event
  | [] => none
  | kind :: payload =>
    if kind = 0 then some .reset else if kind = 1 then some (.setup payload)
    else if kind = 2 then some .inDone else if kind = 3 then some (.outDone payload) else none

/-- The state with an event delivered in front of every other. -/
def deliver (e : Event) (s : State) : State := { s with events := e :: s.events }

/-- The state in which the next step runs the command block `data`: the DfuSe variant, its `DNLOAD` of block 0 accepted and
received, and the `IN` that completes the status stage delivered. -/
def placeCommand (data : List Byte) (s : State) : State :=
  deliver .inDone { s with
    cfg := { s.cfg with variant := .dfuse }, cts := .statusIn,
    pendOut := some (commandRequest (BitVec.ofNat 16 data.length)),
    xferData := data, xferLen := data.length, xferPos := data.length }

/-- The state in which the next step fetches the given words. -/
def placeWords (s : State) : Format × List Byte → State
  | (.event, bytes) =>
    match eventOfRecord bytes with
    | some e => deliver e s
    | none => s
  | (.setup64, bytes) => deliver (.setup bytes) s
  | (.dfuseCmd40, bytes) => placeCommand bytes s

end Sys2Proof.Machine
end

