-- ==== Sys2Proof/Machine/Step.lean ====
section
/-! DEFINITION. One step: the oldest delivered event, handled to completion (00_scope.md R5, R10). -/

namespace Sys2Proof.Machine

/-- One callback (R10). A configuration that breaks R7 is refused; with no event delivered the machine waits as it is (R151). -/
def step (s : State) : Host.Outcome State Fault Refusal :=
  match configAccepted s with
  | false => .refused .invalidConfiguration
  | true =>
    match fetch s with
    | none => .next s
    | some (i, s') => exec i s'

/-- `s` with a word of spec/opcode_table.json put where the next step fetches it. -/
def State.withFetchWord (s : State) (nbits w : Nat) : State := placeWords s (tableWords nbits w)

end Sys2Proof.Machine
end

