-- ==== Sys2Proof/Safety.lean ====
section
/-! DEFINITION. What the claims speak of: the registers in groups (10_state.md R20), what an exception leaves
(60_exceptions.md R312), and the invariants that hold at every callback boundary (70_reset_and_hazards.md R358). -/

namespace Sys2Proof.Machine

/-! Groups of registers that two states share. -/

/-- The parameters and the input are as before. -/
structure SameInputs (s t : State) : Prop where
  cfg    : t.cfg = s.cfg
  events : t.events = s.events

/-- The registers of the dispatcher and of the Standard and Vendor handlers are as before (R26, R27). -/
structure SameDevice (s t : State) : Prop where
  usbDevState : t.usbDevState = s.usbDevState
  usbAddr     : t.usbAddr = s.usbAddr
  usbConfig   : t.usbConfig = s.usbConfig
  stdOwn      : t.stdOwn = s.stdOwn
  vndOwn      : t.vndOwn = s.vndOwn

/-- The class group is as before (R30 to R35). -/
structure SameClass (s t : State) : Prop where
  dfuState      : t.dfuState = s.dfuState
  dfuStatusCode : t.dfuStatusCode = s.dfuStatusCode
  addrPtr       : t.addrPtr = s.addrPtr
  pending       : t.pending = s.pending

/-- Every byte of `FLASH` reads as before (R40). -/
def SameFlash (s t : State) : Prop := ∀ a, t.flashByte a = s.flashByte a

/-- The transfer registers and `PEND_OUT` are cleared (R50, R134). -/
structure NoTransfer (t : State) : Prop where
  cts      : t.cts = .stalled
  pendOut  : t.pendOut = none
  xferLen  : t.xferLen = 0
  xferPos  : t.xferPos = 0
  xferData : t.xferData = []

/-- A stall (R312): the transfer is gone, and the event's last output is `STALL`. -/
structure Stalled (s t : State) : Prop where
  noTransfer : NoTransfer t
  trace      : t.trace = s.trace ++ [.stall]

/-- A read transfer has begun with the first packet of `buf` clamped to `n` bytes, after the outputs `out` (R133 step 5). -/
structure ReadBegun (buf : List Byte) (n : Nat) (out : List Action) (s t : State) : Prop where
  pendOut  : t.pendOut = none
  xferLen  : t.xferLen = min buf.length n
  xferData : t.xferData = buf.take (min buf.length n)
  xferPos  : t.xferPos = min (min buf.length n) s.cfg.mps
  cts      : t.cts = if min buf.length n ≤ s.cfg.mps then .lastDataIn else .dataIn
  trace    : t.trace = s.trace ++ out ++
    [if min (min buf.length n) s.cfg.mps = 0 then .zlp else .tx (buf.take (min (min buf.length n) s.cfg.mps))]

/-- A write transfer has been accepted (R133 step 6). -/
structure WriteBegun (r : SetupRequest) (s t : State) : Prop where
  pendOut  : t.pendOut = some r
  xferLen  : t.xferLen = r.length.toNat
  xferPos  : t.xferPos = 0
  xferData : t.xferData = []
  cts      : t.cts = if r.length.toNat = 0 then .statusIn
    else if r.length.toNat ≤ s.cfg.mps then .lastDataOut else .dataOut
  trace    : t.trace = if r.length.toNat = 0 then s.trace ++ [.zlp] else s.trace

/-- Only engine-group registers and the trace may differ (10_state.md R20: the class group, the dispatcher, the handlers and
flash are as before). -/
structure OnlyEngineChanged (s t : State) : Prop where
  inputs : SameInputs s t
  device : SameDevice s t
  cls    : SameClass s t
  flash  : SameFlash s t

/-- A `SETUP` event rejected with a bare stall (kind (a) of R300): no class effect, no handler state changed. -/
structure Rejected (r : SetupRequest) (s t : State) : Prop where
  stalled  : Stalled s t
  setupReq : t.setupReq = some r
  only     : OnlyEngineChanged s t

/-- A DFU legality violation: the stall and the entry to `Error` with `errSTALLEDPKT`, and nothing else (R202, R204, R300). -/
structure Violation (r : SetupRequest) (s t : State) : Prop where
  stalled  : Stalled s t
  setupReq : t.setupReq = some r
  state    : t.dfuState = .error
  code     : t.dfuStatusCode = .errSTALLEDPKT
  addrPtr  : t.addrPtr = s.addrPtr
  pending  : t.pending = s.pending
  inputs   : SameInputs s t
  device   : SameDevice s t
  flash    : SameFlash s t

/-- A write request accepted at its `SETUP`: the transfer is open and nothing has been executed (R76, R133 step 6). -/
structure WriteAccepted (r : SetupRequest) (s t : State) : Prop where
  begun    : WriteBegun r s t
  setupReq : t.setupReq = some r
  only     : OnlyEngineChanged s t

/-- A read request answered at its `SETUP` with `buf`, after the outputs `out`; which class registers and which flash bytes
change is left to the request (R133 step 5). -/
structure ReadAnswered (r : SetupRequest) (buf : List Byte) (out : List Action) (s t : State) : Prop where
  begun    : ReadBegun buf r.length.toNat out s t
  setupReq : t.setupReq = some r
  inputs   : SameInputs s t
  device   : SameDevice s t

/-- A write transfer that ended in success: nothing is emitted (R141). -/
structure WriteDone (s t : State) : Prop where
  noTransfer : NoTransfer t
  setupReq   : t.setupReq = s.setupReq
  trace      : t.trace = s.trace
  inputs     : SameInputs s t

/-- A write transfer whose execution failed: one `STALL` after the outputs `out` (R141). -/
structure WriteFailed (out : List Action) (s t : State) : Prop where
  noTransfer : NoTransfer t
  setupReq   : t.setupReq = s.setupReq
  trace      : t.trace = s.trace ++ out ++ [.stall]
  inputs     : SameInputs s t

/-- The instruction is a `SETUP` event: any row of the formats `SETUP` and `SETUP64`. -/
def isSetup : Instr → Bool
  | .setup _ => true
  | .handlerStandard _ _ _ => true
  | .handlerClass _ _ _ => true
  | .handlerVendor _ _ _ => true
  | .handlerReserved _ _ _ => true
  | .dfuDetach _ => true
  | .dfuDnload _ => true
  | .dfuUpload _ => true
  | .dfuGetstatus _ => true
  | .dfuClrstatus _ => true
  | .dfuGetstate _ => true
  | .dfuAbort _ => true
  | .stdSetAddress _ => true
  | .stdGetDescriptor _ => true
  | .stdGetConfiguration _ => true
  | .stdSetConfiguration _ => true
  | .reset => false
  | .inDone => false
  | .outDone _ => false
  | .dfuseSetAddressPointer _ => false
  | .dfuseErasePage _ => false

/-- The row of each of the seven DFU requests. -/
def instrOfDfu : DfuRequest → SetupFields → Instr
  | .detach, f => .dfuDetach f
  | .dnload, f => .dfuDnload f
  | .upload, f => .dfuUpload f
  | .getstatus, f => .dfuGetstatus f
  | .clrstatus, f => .dfuClrstatus f
  | .getstate, f => .dfuGetstate f
  | .abort, f => .dfuAbort f

/-- The setup request of each of the seven DFU requests (R102). -/
def requestOfDfu : DfuRequest → SetupFields → SetupRequest
  | .detach, f => f.request .hostToDevice .classReq 0
  | .dnload, f => f.request .hostToDevice .classReq 1
  | .upload, f => f.request .deviceToHost .classReq 2
  | .getstatus, f => f.request .deviceToHost .classReq 3
  | .clrstatus, f => f.request .hostToDevice .classReq 4
  | .getstate, f => f.request .deviceToHost .classReq 5
  | .abort, f => f.request .hostToDevice .classReq 6

/-- The columns of the table of R203, written out: the states in which each request is legal. -/
def legalStates : DfuRequest → List DfuState
  | .dnload => [.idle, .dnloadIdle]
  | .upload => [.idle, .uploadIdle]
  | .getstatus => [.idle, .dnloadSync, .dnloadIdle, .manifestSync, .uploadIdle, .error]
  | .clrstatus => [.error]
  | .getstate => [.idle, .dnloadSync, .dnloadIdle, .manifestSync, .uploadIdle, .error]
  | .abort => [.idle, .dnloadSync, .dnloadIdle, .manifestSync, .uploadIdle]
  | .detach => []

/-! Flash. -/

/-- The Flash Programmer is one of the instances of R275. -/
def referenceProgrammer (c : Config) : Bool :=
  match c.fp with
  | .ideal => true
  | .stuck => true
  | .badProg => true
  | .other _ => false

/-- The address lies in the programmable region (R61). -/
def inRegion (c : Config) (a : Nat) : Prop := c.appBase ≤ a ∧ a < c.appEnd

/-- The address lies in a page that the block `[a, a + l)` intersects (R287). -/
abbrev inBlockPages (c : Config) (a l x : Nat) : Prop := pageBase c a ≤ x ∧ x < pageBase c (a + l - 1) + c.pageSize

/-! The invariants of R358, with the facts about the pending write that R150 and R174 state. -/

/-- The request that `validate` accepted at its `SETUP`, judged by the registers as they are now (R174). -/
def acceptedWrite (s : State) (r : SetupRequest) : Prop :=
  r.dir = .hostToDevice ∧
  match r.type with
  | .standard => s.cfg.std = .ref → stdRefValidate r s = true
  | .classReq => ∃ q, DfuRequest.ofSelector r.dir r.code = some q ∧ classGate s = true ∧ legal q r s = true
  | .vendor => s.cfg.vnd ≠ .ref
  | .reserved => False

/-- No transfer is in progress in `Stalled`. -/
def idleInv (s : State) : Prop :=
  s.cts = .stalled → s.pendOut = none ∧ s.xferLen = 0 ∧ s.xferPos = 0 ∧ s.xferData = []

/-- In the phases of a read: nothing pending, and the cursor as R140 and R358 say. -/
def readInv (s : State) : Prop :=
  (s.cts = .dataIn ∨ s.cts = .lastDataIn ∨ s.cts = .statusOut) →
    s.pendOut = none ∧ s.xferData.length = s.xferLen ∧
    (s.cts = .dataIn → 0 < s.xferPos ∧ s.xferPos < s.xferLen ∧ s.xferPos % s.cfg.mps = 0) ∧
    (s.cts ≠ .dataIn → s.xferPos = s.xferLen)

/-- In the phases of a write: a request that validation accepted is pending, and the cursor as R150 and R358 say. -/
def writeInv (s : State) : Prop :=
  (s.cts = .dataOut ∨ s.cts = .lastDataOut ∨ s.cts = .statusIn) →
    (∃ r, s.pendOut = some r ∧ s.setupReq = some r ∧ s.xferLen = r.length.toNat ∧ acceptedWrite s r) ∧
    s.xferLen ≤ s.cfg.ctrlBufSize ∧ s.xferData.length = s.xferPos ∧
    (s.cts = .dataOut → s.cfg.mps < s.xferLen - s.xferPos) ∧
    (s.cts = .lastDataOut → 1 ≤ s.xferLen - s.xferPos ∧ s.xferLen - s.xferPos ≤ s.cfg.mps) ∧
    (s.cts = .statusIn → s.xferPos = s.xferLen)

/-- What the class group keeps: R248, R303, R358, the shape of a captured block (R35), and in the plain variant that its
target is still the pointer (R291). -/
structure ClassInv (s : State) : Prop where
  notTransient : s.dfuState ≠ .dnBusy ∧ s.dfuState ≠ .manifest
  errorCode    : s.dfuState = .error ↔ s.dfuStatusCode ≠ .ok
  block        : ∀ pb, s.pending = .block pb →
    (s.dfuState = .dnloadSync ∨ s.dfuState = .error) ∧ 1 ≤ pb.length.toNat ∧ pb.length.toNat ≤ s.cfg.ts ∧
    pb.data.length = pb.length.toNat ∧ (s.cfg.variant = .plainDfu → pb.target = s.addrPtr.toNat)
  manifestWork : s.pending = .manifestWork → s.dfuState = .manifestSync ∨ s.dfuState = .error

/-- The invariant of every callback boundary. -/
structure State.Inv (s : State) : Prop where
  config   : Config.valid s.cfg = true
  flash    : Memory.wf (unlistedByte s.cfg) s.flash = true
  usbAddr  : s.usbAddr.toNat ≤ 127
  cursor   : s.xferPos ≤ s.xferLen ∧ s.xferLen ≤ 65535
  idle     : idleInv s
  read     : readInv s
  write    : writeInv s
  classInv : ClassInv s

end Sys2Proof.Machine
end

