-- ==== Sys2Proof/Certificates/Slice0/Obligations.lean ====
section
/-! DEFINITION. The statements for the provers. A docstring says which sentences of the spec a statement formalises, and
"decision Dn" where the spec itself marks them as its own decision (92_eei_decisions.md). -/

open Sys2Proof Sys2Proof.Machine

/-! ## RESET -/

/-- `RESET` in any state: every register of R50 at its reset value, nothing emitted, flash and parameters as they were, and a
second `RESET` changes nothing more (decisions D21, D23, D24, D27, D28, D30; R131, R175, R206, R342). A replacement handler
is left in the own state its `reset` gives (log entry 9). Under `REF`, with the input, the trace and the flash listing empty,
that is `State.reset`: the power-on state (R341, decision D29; log entries 4, 6 and 9). -/
def Obligations.ResetRestoresEveryRegister : Prop :=
  ∀ s : State, ∃ t, exec .reset s = .next t ∧ NoTransfer t ∧ t.setupReq = none ∧
    t.usbDevState = .default ∧ t.usbAddr = 0 ∧ t.usbConfig = 0 ∧
    t.dfuState = .idle ∧ t.dfuStatusCode = .ok ∧ t.addrPtr = basePointer s.cfg ∧ t.pending = .noWork ∧
    (s.cfg.std = .ref → t.stdOwn = s.stdOwn) ∧ (∀ id, s.cfg.std = .other id → t.stdOwn = Config.handlerReset id) ∧
    (s.cfg.vnd = .ref → t.vndOwn = s.vndOwn) ∧ (∀ id, s.cfg.vnd = .other id → t.vndOwn = Config.handlerReset id) ∧
    t.trace = s.trace ∧ SameInputs s t ∧ SameFlash s t ∧ exec .reset t = .next t ∧
    (s.cfg = Config.ref → s.events = [] → s.trace = [] → s.flash = [] → s.stdOwn = [] → s.vndOwn = [] → t = State.reset)

/-! ## SETUP: the engine's part -/

/-- R92: a setup packet is exactly 8 bytes; a `SETUP` event with any other payload fails to parse, is the bare `SETUP` row,
and is stalled with no handler called and no request kept. -/
def Obligations.SetupOfWrongLengthStalls : Prop :=
  ∀ (payload : List Byte) (s : State),
    (decodeRequest payload = none ↔ payload.length ≠ 8) ∧
    (payload.length ≠ 8 → decodeSetup payload = .setup payload ∧
      ∃ t, exec (.setup payload) s = .next t ∧ Stalled s t ∧ t.setupReq = none ∧ OnlyEngineChanged s t)

/-- R132: a `SETUP` event is accepted in every phase and does the same as if the transfer in progress had been abandoned
first. So a write pending before it is never executed (what is pending after it is its own request or nothing), and the
packets a read still owed are gone; class registers are not rolled back. -/
def Obligations.SetupAbandonsEveryPhase : Prop :=
  ∀ (i : Instr) (s : State), isSetup i = true →
    (∃ t, exec i s = .next t ∧ (t.pendOut = none ∨ t.pendOut = t.setupReq)) ∧
    exec i s = exec i (abandon s) ∧ SameClass s (abandon s) ∧ NoTransfer (abandon s)

/-- The rows of the opcode table agree with the engine: the row an 8-byte packet decodes to does what `on_setup` does with the
packet through the Dispatcher's routing (R133, R154, R171, R173, whatever the handlers are). -/
def Obligations.SetupRowsRefineOnSetup : Prop :=
  ∀ (payload : List Byte) (s : State), exec (decodeSetup payload) s = .next (onSetup payload s)

/-! ## IN and OUT: the engine's part -/

/-- `IN` in `DataIn` sends the next packet, and in `LastDataIn` moves to `StatusOut` (R140). -/
def Obligations.InSendsNextPacket : Prop :=
  ∀ s : State,
    (s.cts = .dataIn → ∃ t, exec .inDone s = .next t ∧
      t.trace = s.trace ++ [.tx ((s.xferData.drop s.xferPos).take (min s.cfg.mps (s.xferLen - s.xferPos)))] ∧
      t.xferPos = s.xferPos + min s.cfg.mps (s.xferLen - s.xferPos) ∧
      t.cts = (if s.xferPos + min s.cfg.mps (s.xferLen - s.xferPos) = s.xferLen then .lastDataIn else .dataIn) ∧
      t.xferData = s.xferData ∧ t.xferLen = s.xferLen ∧ t.setupReq = s.setupReq ∧ t.pendOut = s.pendOut ∧
      OnlyEngineChanged s t) ∧
    (s.cts = .lastDataIn → exec .inDone s = .next { s with cts := .statusOut })

/-- R142: `IN` in `Stalled`, `StatusOut`, `DataOut` or `LastDataOut` is a stall; a pending write is dropped unexecuted and the
class group is as before. -/
def Obligations.UnexpectedInStalls : Prop :=
  ∀ s : State, s.cts = .stalled ∨ s.cts = .statusOut ∨ s.cts = .dataOut ∨ s.cts = .lastDataOut →
    ∃ t, exec .inDone s = .next t ∧ Stalled s t ∧ t.setupReq = s.setupReq ∧ OnlyEngineChanged s t

/-- `OUT` in `DataOut`: a full packet is stored behind the others, any other length stalls (R145, decision D21). -/
def Obligations.OutStoresFullPacket : Prop :=
  ∀ (packet : List Byte) (s : State), s.cts = .dataOut →
    (packet.length = s.cfg.mps → ∃ t, exec (.outDone packet) s = .next t ∧
      t.xferData = s.xferData.take s.xferPos ++ packet ∧ t.xferPos = s.xferPos + s.cfg.mps ∧ t.xferLen = s.xferLen ∧
      t.cts = (if s.xferLen - (s.xferPos + s.cfg.mps) ≤ s.cfg.mps then .lastDataOut else .dataOut) ∧
      t.trace = s.trace ∧ t.pendOut = s.pendOut ∧ t.setupReq = s.setupReq ∧ OnlyEngineChanged s t) ∧
    (packet.length ≠ s.cfg.mps →
      ∃ t, exec (.outDone packet) s = .next t ∧ Stalled s t ∧ t.setupReq = s.setupReq ∧ OnlyEngineChanged s t)

/-- `OUT` in `LastDataOut`: the packet with exactly the bytes still owed ends the data stage with a zero-length packet and does
not execute the write; any other length stalls (R146, decision D21). -/
def Obligations.OutEndsDataStage : Prop :=
  ∀ (packet : List Byte) (s : State), s.cts = .lastDataOut →
    (packet.length = s.xferLen - s.xferPos → ∃ t, exec (.outDone packet) s = .next t ∧
      t.xferData = s.xferData.take s.xferPos ++ packet ∧ t.xferPos = s.xferPos + packet.length ∧ t.xferLen = s.xferLen ∧
      t.cts = .statusIn ∧ t.trace = s.trace ++ [.zlp] ∧ t.pendOut = s.pendOut ∧ t.setupReq = s.setupReq ∧
      OnlyEngineChanged s t) ∧
    (packet.length ≠ s.xferLen - s.xferPos →
      ∃ t, exec (.outDone packet) s = .next t ∧ Stalled s t ∧ t.setupReq = s.setupReq ∧ OnlyEngineChanged s t)

/-- `OUT` in `StatusOut` ends a read transfer; a status packet that is not empty is stalled (R147, decision D21). -/
def Obligations.OutEndsReadTransfer : Prop :=
  ∀ (packet : List Byte) (s : State), s.cts = .statusOut → ∃ t, exec (.outDone packet) s = .next t ∧
    t.cts = .stalled ∧ t.xferLen = 0 ∧ t.xferPos = 0 ∧ t.xferData = [] ∧
    t.trace = (if packet = [] then s.trace else s.trace ++ [.stall]) ∧
    t.pendOut = s.pendOut ∧ t.setupReq = s.setupReq ∧ OnlyEngineChanged s t

/-- `OUT` in `Stalled`, `DataIn`, `LastDataIn` or `StatusIn` is a stall; a pending write is dropped unexecuted (R148, an
inference of the spec from R142 and R145). -/
def Obligations.UnexpectedOutStalls : Prop :=
  ∀ (packet : List Byte) (s : State), s.cts = .stalled ∨ s.cts = .dataIn ∨ s.cts = .lastDataIn ∨ s.cts = .statusIn →
    ∃ t, exec (.outDone packet) s = .next t ∧ Stalled s t ∧ t.setupReq = s.setupReq ∧ OnlyEngineChanged s t

/-! ## Routing: the handler rows -/

/-- Packets that select no request: a class packet with a code above 6 or with the other direction (R201, decision D15), and any
packet of the reserved type (R171, decision D27). Each is stalled and no class register is written, whatever the state. -/
def Obligations.PacketsOfNoRequestStall : Prop :=
  ∀ (dir : Dir) (code : Byte) (f : SetupFields) (s : State),
    ((dir, code) ∉ classRows →
      ∃ t, exec (.handlerClass dir code f) s = .next t ∧ Rejected (f.request dir .classReq code) s t) ∧
    (∃ t, exec (.handlerReserved dir code f) s = .next t ∧ Rejected (f.request dir .reserved code) s t)

/-- The reference Standard handler stalls every request but its four, and the reference Vendor handler every request; nothing
else is written (R185, R186, decision D28). -/
def Obligations.ReferenceHandlersStallOthers : Prop :=
  ∀ (dir : Dir) (code : Byte) (f : SetupFields) (s : State),
    (s.cfg.std = .ref → (dir, code) ∉ standardRows →
      ∃ t, exec (.handlerStandard dir code f) s = .next t ∧ Rejected (f.request dir .standard code) s t) ∧
    (s.cfg.vnd = .ref →
      ∃ t, exec (.handlerVendor dir code f) s = .next t ∧ Rejected (f.request dir .vendor code) s t)

/-- A replacement Standard handler decides every standard packet itself, the four of `STD_REF` too (R100, R176; log entry 9):
its `validate` refuses (a stall), or accepts a write (opened unless its data stage exceeds `CTRL_BUF_SIZE`), or accepts a read
(answered with what its `execute_get` returns, stalled on `Error`). Only its own state and the engine's registers change. The
`IN` that completes a write runs its `execute_set` on the received bytes, which may also write `USB_DEV_STATE` and emit
`set_device_address` (R141, R174). -/
def Obligations.ReplacedStandardHandlerDecides : Prop :=
  ∀ (id : Nat) (dir : Dir) (code : Byte) (f : SetupFields) (s : State), s.cfg.std = .other id →
    let r := f.request dir .standard code
    let v := Config.handlerValidate id r s.usbDevState s.stdOwn
    let g := Config.handlerGet id r v.2
    (∃ t, exec (Instr.ofStandard dir code f) s = .next t ∧ t.setupReq = some r ∧
      SameInputs s t ∧ SameClass s t ∧ SameFlash s t ∧ t.vndOwn = s.vndOwn ∧ t.usbDevState = s.usbDevState ∧
      t.usbAddr = s.usbAddr ∧ t.usbConfig = s.usbConfig ∧
      (v.1 = false → Stalled s t ∧ t.stdOwn = v.2) ∧
      (v.1 = true → dir = .hostToDevice → t.stdOwn = v.2 ∧
        if s.cfg.ctrlBufSize < f.length.toNat then Stalled s t else WriteBegun r s t) ∧
      (v.1 = true → dir = .deviceToHost → t.stdOwn = g.2 ∧
        (g.1 = none → Stalled s t) ∧ ∀ buf, g.1 = some buf → ReadBegun buf f.length.toNat [] s t)) ∧
    (s.cts = .statusIn → s.pendOut = some r →
      let x := Config.handlerSet id r (s.xferData.take s.xferLen) s.stdOwn
      let d := Config.stdSetDevice id r (s.xferData.take s.xferLen) s.usbDevState s.stdOwn
      ∃ t, exec .inDone s = .next t ∧ NoTransfer t ∧ t.setupReq = s.setupReq ∧ SameInputs s t ∧ SameClass s t ∧
        SameFlash s t ∧ t.stdOwn = x.2 ∧ t.vndOwn = s.vndOwn ∧ t.usbDevState = d.1.getD s.usbDevState ∧
        t.usbAddr = s.usbAddr ∧ t.usbConfig = s.usbConfig ∧
        t.trace = s.trace ++ d.2.map .addr ++ if x.1 then [] else [.stall])

/-- The same of a replacement Vendor handler (R100, R176; log entry 9). -/
def Obligations.ReplacedVendorHandlerDecides : Prop :=
  ∀ (id : Nat) (dir : Dir) (code : Byte) (f : SetupFields) (s : State), s.cfg.vnd = .other id →
    let r := f.request dir .vendor code
    let v := Config.handlerValidate id r s.usbDevState s.vndOwn
    let g := Config.handlerGet id r v.2
    (∃ t, exec (.handlerVendor dir code f) s = .next t ∧ t.setupReq = some r ∧
      SameInputs s t ∧ SameClass s t ∧ SameFlash s t ∧ t.stdOwn = s.stdOwn ∧ t.usbDevState = s.usbDevState ∧
      t.usbAddr = s.usbAddr ∧ t.usbConfig = s.usbConfig ∧
      (v.1 = false → Stalled s t ∧ t.vndOwn = v.2) ∧
      (v.1 = true → dir = .hostToDevice → t.vndOwn = v.2 ∧
        if s.cfg.ctrlBufSize < f.length.toNat then Stalled s t else WriteBegun r s t) ∧
      (v.1 = true → dir = .deviceToHost → t.vndOwn = g.2 ∧
        (g.1 = none → Stalled s t) ∧ ∀ buf, g.1 = some buf → ReadBegun buf f.length.toNat [] s t)) ∧
    (s.cts = .statusIn → s.pendOut = some r →
      let x := Config.handlerSet id r (s.xferData.take s.xferLen) s.vndOwn
      ∃ t, exec .inDone s = .next t ∧ NoTransfer t ∧ t.setupReq = s.setupReq ∧ SameInputs s t ∧ SameClass s t ∧
        SameFlash s t ∧ t.stdOwn = s.stdOwn ∧ t.vndOwn = x.2 ∧ t.usbDevState = s.usbDevState ∧
        t.usbAddr = s.usbAddr ∧ t.usbConfig = s.usbConfig ∧
        t.trace = s.trace ++ if x.1 then [] else [.stall])

/-! ## Standard requests under `STD_REF` -/

/-- `SET_ADDRESS`: accepted exactly when the value is at most 127, the length is 0 and the device is in `Default` or `Address`;
the address changes at the `IN` that completes the status stage (R182, decision D28). -/
def Obligations.SetAddressRequest : Prop :=
  ∀ (f : SetupFields) (s : State), s.cfg.std = .ref →
    let r := f.request .hostToDevice .standard 5
    ((f.value.toNat ≤ 127 ∧ f.length = 0 ∧ (s.usbDevState = .default ∨ s.usbDevState = .address)) →
      ∃ t, exec (.stdSetAddress f) s = .next t ∧ WriteAccepted r s t) ∧
    (¬(f.value.toNat ≤ 127 ∧ f.length = 0 ∧ (s.usbDevState = .default ∨ s.usbDevState = .address)) →
      ∃ t, exec (.stdSetAddress f) s = .next t ∧ Rejected r s t) ∧
    (s.cts = .statusIn → s.pendOut = some r → f.value.toNat ≤ 127 →
      ∃ t, exec .inDone s = .next t ∧ NoTransfer t ∧ t.setupReq = s.setupReq ∧ t.usbAddr.toNat = f.value.toNat ∧
        t.trace = s.trace ++ [.addr t.usbAddr] ∧
        t.usbDevState = (if f.value.toNat = 0 then .default else .address) ∧ t.usbConfig = s.usbConfig ∧
        t.stdOwn = s.stdOwn ∧ t.vndOwn = s.vndOwn ∧ SameInputs s t ∧ SameClass s t ∧ SameFlash s t)

/-- `SET_CONFIGURATION`: accepted exactly when the length is 0, the device is in `Address` or `Configured` and the low byte of
the value is 0 or 1; it takes effect at the `IN` and does not reset the DFU machine (R183, decision D28). -/
def Obligations.SetConfigurationRequest : Prop :=
  ∀ (f : SetupFields) (s : State), s.cfg.std = .ref →
    let r := f.request .hostToDevice .standard 9
    let low := f.value.extractLsb' 0 8
    let ok := f.length = 0 ∧ (s.usbDevState = .address ∨ s.usbDevState = .configured) ∧ (low = 0 ∨ low = 1)
    (ok → ∃ t, exec (.stdSetConfiguration f) s = .next t ∧ WriteAccepted r s t) ∧
    (¬ok → ∃ t, exec (.stdSetConfiguration f) s = .next t ∧ Rejected r s t) ∧
    (s.cts = .statusIn → s.pendOut = some r →
      ∃ t, exec .inDone s = .next t ∧ WriteDone s t ∧ t.usbConfig = low ∧
        t.usbDevState = (if low = 1 then .configured else .address) ∧ t.usbAddr = s.usbAddr ∧
        t.stdOwn = s.stdOwn ∧ t.vndOwn = s.vndOwn ∧ SameClass s t ∧ SameFlash s t)

/-- `GET_DESCRIPTOR`: answered in every device state with `DESC(value, index)`, stalled where `DESC` has none; it writes nothing
but the transfer (R181, decision D28). -/
def Obligations.GetDescriptorRequest : Prop :=
  ∀ (f : SetupFields) (s : State), s.cfg.std = .ref →
    let r := f.request .deviceToHost .standard 6
    (∀ d, descriptor s.cfg.desc f.value f.index = some d →
      ∃ t, exec (.stdGetDescriptor f) s = .next t ∧ ReadAnswered r d [] s t ∧ SameClass s t ∧ SameFlash s t) ∧
    (descriptor s.cfg.desc f.value f.index = none →
      ∃ t, exec (.stdGetDescriptor f) s = .next t ∧ Rejected r s t)

/-- `GET_CONFIGURATION`: answered with the one byte `USB_CONFIG` in `Address` and `Configured`, stalled in `Default`; it writes
nothing but the transfer (R184, decision D28). -/
def Obligations.GetConfigurationRequest : Prop :=
  ∀ (f : SetupFields) (s : State), s.cfg.std = .ref →
    let r := f.request .deviceToHost .standard 8
    (s.usbDevState = .address ∨ s.usbDevState = .configured →
      ∃ t, exec (.stdGetConfiguration f) s = .next t ∧ ReadAnswered r [s.usbConfig] [] s t ∧
        SameClass s t ∧ SameFlash s t) ∧
    (s.usbDevState = .default →
      ∃ t, exec (.stdGetConfiguration f) s = .next t ∧ Rejected r s t)

/-! ## The DFU validator -/

/-- R203: the table of the seven requests and the nine states (`legalStates` of Safety.lean writes its columns out). A request in
a state the table does not mark legal is a violation; one it marks legal is accepted (a transfer opens) when its extra condition
holds (R202) and a write's data stage fits the buffer (R133 step 6). -/
def Obligations.LegalityTable : Prop :=
  ∀ (q : DfuRequest) (f : SetupFields) (s : State), classGate s = true →
    (s.dfuState ∈ legalStates q → extraCondition s.cfg (requestOfDfu q f) q = true →
      ((requestOfDfu q f).dir = .hostToDevice → f.length.toNat ≤ s.cfg.ctrlBufSize) →
      ∃ t, exec (instrOfDfu q f) s = .next t ∧ t.cts ≠ .stalled ∧ t.setupReq = some (requestOfDfu q f)) ∧
    (s.dfuState ∉ legalStates q →
      ∃ t, exec (instrOfDfu q f) s = .next t ∧ Violation (requestOfDfu q f) s t)

/-- What makes a DFU request a violation besides the state: a `DNLOAD` longer than `TS`, a DfuSe `DNLOAD` of block 1 with data,
an `UPLOAD` where the device cannot upload. Each is the full violation, in every state (R202, R251, decision D16). -/
def Obligations.ExtraConditionViolations : Prop :=
  ∀ (f : SetupFields) (s : State), classGate s = true →
    (s.cfg.ts < f.length.toNat ∨ (s.cfg.variant = .dfuse ∧ f.value = 1 ∧ f.length ≠ 0) →
      ∃ t, exec (.dfuDnload f) s = .next t ∧ Violation (requestOfDfu .dnload f) s t) ∧
    (s.cfg.canUpload = false →
      ∃ t, exec (.dfuUpload f) s = .next t ∧ Violation (requestOfDfu .upload f) s t)

/-- A class request in a device state outside `CLASS_STATES` is a bare stall: no class register changes (R171, decision D27). -/
def Obligations.ClassGateStalls : Prop :=
  ∀ (q : DfuRequest) (f : SetupFields) (s : State), classGate s = false →
    ∃ t, exec (instrOfDfu q f) s = .next t ∧ Rejected (requestOfDfu q f) s t

/-- R245: a well-formed `DETACH` (class, host to device, code 0) is a violation in every DFU state, and has no `execute_set`. -/
def Obligations.DetachAlwaysViolates : Prop :=
  ∀ (f : SetupFields) (s : State),
    decodeSetup (encodeRequest (f.request .hostToDevice .classReq 0)) = .dfuDetach f ∧
    (classGate s = true → ∃ t, exec (.dfuDetach f) s = .next t ∧ Violation (requestOfDfu .detach f) s t) ∧
    ∀ data, classSet (requestOfDfu .detach f) data s = none

/-- R37: whenever validation of a class request enters `Error` or writes the status code, the same callback ends with `CTS` in
`Stalled`; whenever the `IN` that executes a write, or a DfuSe command, does, so does that callback; the one row that can put
`DFU_STATE` in `Error` and leave `CTS` elsewhere is a `GETSTATUS` poll with a block pending. -/
def Obligations.ClassErrorForcesStall : Prop :=
  ∀ (i : Instr) (s t : State), i.wf = true → exec i s = .next t → t.dfuState = .error →
    (s.dfuState ≠ .error ∨ t.dfuStatusCode ≠ s.dfuStatusCode) →
    t.cts = .stalled ∨ ∃ f pb, i = .dfuGetstatus f ∧ s.dfuState = .dnloadSync ∧ s.pending = .block pb

/-! ## DNLOAD -/

/-- A legal `DNLOAD` is accepted at its `SETUP` and executes nothing there (R202, R220, decisions D16, D25). -/
def Obligations.DnloadAcceptedAtSetup : Prop :=
  ∀ (f : SetupFields) (s : State), Config.valid s.cfg = true → classGate s = true →
    (s.dfuState = .idle ∨ s.dfuState = .dnloadIdle) → f.length.toNat ≤ s.cfg.ts →
    ¬(s.cfg.variant = .dfuse ∧ f.value = 1 ∧ f.length ≠ 0) →
    ∃ t, exec (.dfuDnload f) s = .next t ∧ WriteAccepted (requestOfDfu .dnload f) s t

/-- A `DNLOAD` with data captures its block at the `IN` that completes the status stage, and programs nothing there: the target
is `ADDR_PTR` in the plain variant (decision D20) and `ADDR_PTR + (block - 2) * TS`, computed without wrap, for DfuSe blocks 2
and up (R220, R256, R35). -/
def Obligations.DnloadCapturesBlock : Prop :=
  ∀ (f : SetupFields) (s : State), s.cts = .statusIn → s.pendOut = some (requestOfDfu .dnload f) → f.length ≠ 0 →
    (s.cfg.variant = .plainDfu ∨ 2 ≤ f.value.toNat) →
    ∃ t, exec .inDone s = .next t ∧ WriteDone s t ∧ SameDevice s t ∧ SameFlash s t ∧
      t.dfuState = .dnloadSync ∧ t.dfuStatusCode = s.dfuStatusCode ∧ t.addrPtr = s.addrPtr ∧
      ∃ pb, t.pending = .block pb ∧ pb.blockNum = f.value ∧ pb.length = f.length ∧
        pb.data = (s.xferData.take s.xferLen).take f.length.toNat ∧
        pb.target = (if s.cfg.variant = .plainDfu then s.addrPtr.toNat
          else s.addrPtr.toNat + (f.value.toNat - 2) * s.cfg.ts)

/-- A zero-length `DNLOAD`, whatever its block number, ends the download from `DnloadIdle` and does nothing from `Idle` (R220,
R222, R251, decisions D3, D17). -/
def Obligations.ZeroLengthDnload : Prop :=
  ∀ (f : SetupFields) (s : State), s.cts = .statusIn → s.pendOut = some (requestOfDfu .dnload f) → f.length = 0 →
    (s.dfuState = .dnloadIdle →
      ∃ t, exec .inDone s = .next t ∧ WriteDone s t ∧ SameDevice s t ∧ SameFlash s t ∧
        t.dfuState = .manifestSync ∧ t.pending = (if s.cfg.manifestDelay then .manifestWork else .noWork) ∧
        t.dfuStatusCode = s.dfuStatusCode ∧ t.addrPtr = s.addrPtr) ∧
    (s.dfuState = .idle →
      ∃ t, exec .inDone s = .next t ∧ WriteDone s t ∧ SameDevice s t ∧ SameFlash s t ∧ SameClass s t)

/-! ## UPLOAD, GETSTATE, CLRSTATUS, ABORT -/

/-- `UPLOAD` inside the programmable region returns the flash bytes from the pointer on, at most up to `APP_END`, and advances
the pointer by `TS`; outside it returns nothing and ends the transfer, leaving the pointer (R225, R258, decision D18). -/
def Obligations.UploadReadsAndAdvances : Prop :=
  ∀ (f : SetupFields) (s : State), classGate s = true → (s.dfuState = .idle ∨ s.dfuState = .uploadIdle) →
    s.cfg.canUpload = true →
    (inRegion s.cfg s.addrPtr.toNat →
      ∃ t, exec (.dfuUpload f) s = .next t ∧
        ReadAnswered (requestOfDfu .upload f)
          (s.flashRead s.addrPtr.toNat (min f.length.toNat (s.cfg.appEnd - s.addrPtr.toNat))) [] s t ∧
        t.addrPtr.toNat = (s.addrPtr.toNat + s.cfg.ts) % 2 ^ 32 ∧ t.dfuState = .uploadIdle ∧
        t.dfuStatusCode = s.dfuStatusCode ∧ t.pending = s.pending ∧ SameFlash s t) ∧
    (¬inRegion s.cfg s.addrPtr.toNat →
      ∃ t, exec (.dfuUpload f) s = .next t ∧ ReadAnswered (requestOfDfu .upload f) [] [] s t ∧
        t.addrPtr = s.addrPtr ∧ t.dfuState = .idle ∧ t.dfuStatusCode = s.dfuStatusCode ∧ t.pending = s.pending ∧
        SameFlash s t)

/-- `GETSTATE` answers the one byte of the state in the six states where it is legal and writes nothing but the transfer: a
block pending in `DnloadSync` stays pending (R106, R235, decision D12). -/
def Obligations.GetstateReportsState : Prop :=
  ∀ (f : SetupFields) (s : State), classGate s = true →
    (s.dfuState ≠ .dnBusy ∧ s.dfuState ≠ .manifest ∧ s.dfuState ≠ .manifestWaitReset) →
    ∃ t, exec (.dfuGetstate f) s = .next t ∧
      ReadAnswered (requestOfDfu .getstate f) [s.cfg.stateCodes.code s.dfuState] [] s t ∧ SameClass s t ∧ SameFlash s t

/-- R240: `CLRSTATUS` is accepted in `Error` only, a violation in the eight other states, and its execution at the `IN` sets the
status to `OK`, the state to `Idle`, the pointer to `APP_BASE` and `PENDING` to `None`, whatever its data stage held. -/
def Obligations.ClrstatusLeavesError : Prop :=
  ∀ (f : SetupFields) (s : State),
    (classGate s = true → s.dfuState = .error → f.length.toNat ≤ s.cfg.ctrlBufSize →
      ∃ t, exec (.dfuClrstatus f) s = .next t ∧ WriteAccepted (requestOfDfu .clrstatus f) s t) ∧
    (classGate s = true → s.dfuState ≠ .error →
      ∃ t, exec (.dfuClrstatus f) s = .next t ∧ Violation (requestOfDfu .clrstatus f) s t) ∧
    (s.cts = .statusIn → s.pendOut = some (requestOfDfu .clrstatus f) →
      ∃ t, exec .inDone s = .next t ∧ WriteDone s t ∧ SameDevice s t ∧ SameFlash s t ∧
        t.dfuStatusCode = .ok ∧ t.dfuState = .idle ∧ t.addrPtr = basePointer s.cfg ∧ t.pending = .noWork)

/-- `ABORT` is accepted in its five states and, at the `IN`, sets the state to `Idle` and the pointer to `APP_BASE`, discards a
pending block without programming it (decision D31) and leaves the status code (R242). -/
def Obligations.AbortReturnsToIdle : Prop :=
  ∀ (f : SetupFields) (s : State),
    (classGate s = true → f.length.toNat ≤ s.cfg.ctrlBufSize →
      s.dfuState ∈ [DfuState.idle, .dnloadSync, .dnloadIdle, .manifestSync, .uploadIdle] →
      ∃ t, exec (.dfuAbort f) s = .next t ∧ WriteAccepted (requestOfDfu .abort f) s t) ∧
    (s.cts = .statusIn → s.pendOut = some (requestOfDfu .abort f) →
      ∃ t, exec .inDone s = .next t ∧ WriteDone s t ∧ SameDevice s t ∧ SameFlash s t ∧
        t.dfuStatusCode = s.dfuStatusCode ∧ t.dfuState = .idle ∧ t.addrPtr = basePointer s.cfg ∧ t.pending = .noWork)

/-- A write that validation accepted but whose data stage exceeds `CTRL_BUF_SIZE` is a bare stall that leaves `Error` in place
(R133 step 6, R311, decision D25); `CLRSTATUS` in `Error` and `ABORT` in its five states (R203) are the DFU requests it can
happen to. -/
def Obligations.OversizedDataStageStalls : Prop :=
  ∀ (f : SetupFields) (s : State), classGate s = true → s.cfg.ctrlBufSize < f.length.toNat →
    (s.dfuState = .error → ∃ t, exec (.dfuClrstatus f) s = .next t ∧ Rejected (requestOfDfu .clrstatus f) s t) ∧
    (s.dfuState ∈ legalStates .abort → ∃ t, exec (.dfuAbort f) s = .next t ∧ Rejected (requestOfDfu .abort f) s t)

/-! ## GETSTATUS and the flash sequencer -/

/-- R103: the status record is six bytes, `bStatus`, the timeout in three little-endian bytes, `bState`, `iString`; every legal
`GETSTATUS` is answered with such a record, clamped to `min(6, length)` bytes. -/
def Obligations.StatusRecordLayout : Prop :=
  ∀ (c : Config) (code : StatusCode) (t : Nat) (d : DfuState),
    (∃ t0 t1 t2 : Byte, statusBytes c code t d =
      [c.statusCodes.code code, t0, t1, t2, c.stateCodes.code d, c.statusIString] ∧
      t0.toNat + 2 ^ 8 * t1.toNat + 2 ^ 16 * t2.toNat = t % 2 ^ 24) ∧
    ∀ (f : SetupFields) (s : State), classGate s = true → s.dfuState ∈ legalStates .getstatus →
      ∃ u ms reported, exec (.dfuGetstatus f) s = .next u ∧ u.xferLen = min 6 f.length.toNat ∧
        u.xferData = (statusBytes s.cfg s.dfuStatusCode ms reported).take (min 6 f.length.toNat)

/-- A poll in `Idle`, `DnloadIdle`, `UploadIdle` or `Error` reports the status and the state with timeout 0 and changes nothing
but the transfer (R103, R230, R231, decisions D3, D12). -/
def Obligations.GetstatusReportsRestingState : Prop :=
  ∀ (f : SetupFields) (s : State), classGate s = true →
    s.dfuState ∈ [DfuState.idle, .dnloadIdle, .uploadIdle, .error] →
    ∃ t, exec (.dfuGetstatus f) s = .next t ∧
      ReadAnswered (requestOfDfu .getstatus f)
        [s.cfg.statusCodes.code s.dfuStatusCode, 0, 0, 0, s.cfg.stateCodes.code s.dfuState, s.cfg.statusIString] [] s t ∧
      SameClass s t ∧ SameFlash s t

/-- A poll in a sync state with no block to run: `DnloadSync` reports and enters `DnloadIdle`; `ManifestSync` reports `Manifest`
and consumes the work while there is some, and else reports and enters `ManifestWaitReset`. The timeout is 0 (R230, R231,
R249, decisions D3, D36). -/
def Obligations.GetstatusLeavesSyncStates : Prop :=
  ∀ (f : SetupFields) (s : State), classGate s = true →
    let answer := fun (d : DfuState) =>
      [s.cfg.statusCodes.code s.dfuStatusCode, 0, 0, 0, s.cfg.stateCodes.code d, s.cfg.statusIString]
    (s.dfuState = .dnloadSync → s.pending = .noWork →
      ∃ t, exec (.dfuGetstatus f) s = .next t ∧ ReadAnswered (requestOfDfu .getstatus f) (answer .dnloadIdle) [] s t ∧
        t.dfuState = .dnloadIdle ∧ t.dfuStatusCode = s.dfuStatusCode ∧ t.addrPtr = s.addrPtr ∧ t.pending = .noWork ∧
        SameFlash s t) ∧
    (s.dfuState = .manifestSync → s.pending = .manifestWork →
      ∃ t, exec (.dfuGetstatus f) s = .next t ∧ ReadAnswered (requestOfDfu .getstatus f) (answer .manifest) [] s t ∧
        t.dfuState = .manifestSync ∧ t.dfuStatusCode = s.dfuStatusCode ∧ t.addrPtr = s.addrPtr ∧ t.pending = .noWork ∧
        SameFlash s t) ∧
    (s.dfuState = .manifestSync → s.pending = .noWork →
      ∃ t, exec (.dfuGetstatus f) s = .next t ∧
        ReadAnswered (requestOfDfu .getstatus f) (answer .manifestWaitReset) [] s t ∧
        t.dfuState = .manifestWaitReset ∧ t.dfuStatusCode = s.dfuStatusCode ∧ t.addrPtr = s.addrPtr ∧
        t.pending = .noWork ∧ SameFlash s t)

/-- The poll that runs a block whose padded range is not inside the region: the answer still says `DnBusy` with the block's
timeout, no flash call is made, and the state is `Error` with `errADDRESS` (R230, R281, R304, decisions D3, D6). -/
def Obligations.PollOfBlockOutOfRange : Prop :=
  ∀ (f : SetupFields) (pb : PendingBlock) (s : State), classGate s = true → s.dfuState = .dnloadSync →
    s.pending = .block pb →
    ¬(s.cfg.appBase ≤ pb.target ∧ pb.target + (pb.length.toNat + 3) / 4 * 4 ≤ s.cfg.appEnd) →
    ∃ t, exec (.dfuGetstatus f) s = .next t ∧
      ReadAnswered (requestOfDfu .getstatus f)
        (statusBytes s.cfg s.dfuStatusCode (estimate s.cfg.est ((pb.length.toNat + 3) / 4)) .dnBusy) [] s t ∧
      t.dfuState = .error ∧ t.dfuStatusCode = .errADDRESS ∧ t.addrPtr = s.addrPtr ∧ t.pending = .noWork ∧ SameFlash s t

/-- The poll that runs a block whose destination the Flash Programmer reports erased: no erase call; one program call with the
block padded by `ERASED_BYTE`; then success (`DnloadSync`, the pointer advanced in the plain variant only) or, if the read-back
of the payload differs, `Error` with `errVERIFY`. For every Flash Programmer (R230, R285, R290, R291, decisions D3, D7, D8,
D19). Under a configuration that R7 accepts the reported timeout is not 0 and fits its three bytes (R231, decision D11). -/
def Obligations.PollProgramsErasedBlock : Prop :=
  ∀ (f : SetupFields) (pb : PendingBlock) (s : State), classGate s = true → s.dfuState = .dnloadSync →
    s.pending = .block pb → inRange s.cfg pb.target (paddedLength pb.length.toNat) = true →
    fpIsErased s.cfg s.flash pb.target (wordCount pb.length.toNat) = true →
    let bytes := pb.data ++ List.replicate (paddedLength pb.length.toNat - pb.length.toNat) s.cfg.erasedByte
    let after := fpProgram s.cfg s.flash pb.target bytes
    ∃ t, exec (.dfuGetstatus f) s = .next t ∧
      ReadAnswered (requestOfDfu .getstatus f)
        (statusBytes s.cfg s.dfuStatusCode (estimate s.cfg.est (wordCount pb.length.toNat)) .dnBusy)
        [.erasedQ pb.target (wordCount pb.length.toNat) true, .prog pb.target bytes] s t ∧
      t.flash = after ∧ t.pending = .noWork ∧
      (Config.valid s.cfg = true → 1 ≤ pb.length.toNat → pb.length.toNat ≤ s.cfg.ts →
        1 ≤ estimate s.cfg.est (wordCount pb.length.toNat) ∧ estimate s.cfg.est (wordCount pb.length.toNat) < 2 ^ 24) ∧
      if t.flashRead pb.target pb.length.toNat = pb.data then
        t.dfuState = .dnloadSync ∧ t.dfuStatusCode = s.dfuStatusCode ∧
        t.addrPtr = (if s.cfg.variant = .plainDfu then s.addrPtr + BitVec.ofNat 32 s.cfg.ts else s.addrPtr)
      else t.dfuState = .error ∧ t.dfuStatusCode = .errVERIFY ∧ t.addrPtr = s.addrPtr

/-- The poll that runs a block whose destination is not erased: every page the padded range intersects is erased once, in
ascending order, and the check is made again; a second false answer is `Error` with `errCHECK_ERASED` and no program call. For
every Flash Programmer (R230, R285, R287, R291, decisions D3, D7, D8, D19). -/
def Obligations.PollErasesBeforeProgramming : Prop :=
  ∀ (f : SetupFields) (pb : PendingBlock) (s : State), classGate s = true → s.dfuState = .dnloadSync →
    s.pending = .block pb → inRange s.cfg pb.target (paddedLength pb.length.toNat) = true →
    fpIsErased s.cfg s.flash pb.target (wordCount pb.length.toNat) = false →
    let n := pb.length.toNat
    let pages := blockPages s.cfg pb.target (paddedLength n)
    let erased := pages.foldl (fun m p => fpErasePage s.cfg m p) s.flash
    let again := fpIsErased s.cfg erased pb.target (wordCount n)
    let bytes := pb.data ++ List.replicate (paddedLength n - n) s.cfg.erasedByte
    let calls := [Action.erasedQ pb.target (wordCount n) false] ++ pages.map .erase ++ [.erasedQ pb.target (wordCount n) again]
    let answer := statusBytes s.cfg s.dfuStatusCode (estimate s.cfg.est (wordCount n)) .dnBusy
    ∃ t, exec (.dfuGetstatus f) s = .next t ∧ t.pending = .noWork ∧
      (again = false →
        ReadAnswered (requestOfDfu .getstatus f) answer calls s t ∧ t.flash = erased ∧
        t.dfuState = .error ∧ t.dfuStatusCode = .errCHECK_ERASED ∧ t.addrPtr = s.addrPtr) ∧
      (again = true →
        ReadAnswered (requestOfDfu .getstatus f) answer (calls ++ [.prog pb.target bytes]) s t ∧
        t.flash = fpProgram s.cfg erased pb.target bytes ∧
        if t.flashRead pb.target n = pb.data then
          t.dfuState = .dnloadSync ∧ t.dfuStatusCode = s.dfuStatusCode ∧
          t.addrPtr = (if s.cfg.variant = .plainDfu then s.addrPtr + BitVec.ofNat 32 s.cfg.ts else s.addrPtr)
        else t.dfuState = .error ∧ t.dfuStatusCode = .errVERIFY ∧ t.addrPtr = s.addrPtr)

/-- Which pages a block's erase calls name: the bases from the page of its first byte to the page of its last padded byte, one
call each, all inside the region (R287, decision D8). -/
def Obligations.BlockPagesAreThePagesOfTheBlock : Prop :=
  ∀ (c : Config) (a l : Nat), Config.valid c = true → 1 ≤ l → inRange c a l = true →
    (blockPages c a l).Pairwise (· < ·) ∧
    ∀ p, (p ∈ blockPages c a l ↔ p % c.pageSize = 0 ∧ p < a + l ∧ a < p + c.pageSize) ∧
      (p ∈ blockPages c a l → c.appBase ≤ p ∧ p + c.pageSize ≤ c.appEnd)

/-- On `FP_IDEAL` a poll of a block in range always succeeds; the block's bytes and its padding stand at the target, and every
other byte is as before if the destination was erased, or erased if it lies in a page of the block and the destination was not
(R271 to R273, R294, decision D7). -/
def Obligations.IdealPollWritesBlock : Prop :=
  ∀ (f : SetupFields) (pb : PendingBlock) (s : State), classGate s = true → s.cfg.fp = .ideal →
    Config.valid s.cfg = true → Memory.wf (unlistedByte s.cfg) s.flash = true →
    s.dfuState = .dnloadSync → s.pending = .block pb → pb.data.length = pb.length.toNat → 1 ≤ pb.length.toNat →
    inRange s.cfg pb.target (paddedLength pb.length.toNat) = true →
    ∃ t, exec (.dfuGetstatus f) s = .next t ∧ t.dfuState = .dnloadSync ∧ t.dfuStatusCode = s.dfuStatusCode ∧
      t.pending = .noWork ∧
      (∀ i (h : i < pb.data.length), t.flashByte (pb.target + i) = pb.data[i]) ∧
      (∀ a, pb.target + pb.length.toNat ≤ a → a < pb.target + paddedLength pb.length.toNat →
        t.flashByte a = s.cfg.erasedByte) ∧
      (∀ a, a < pb.target ∨ pb.target + paddedLength pb.length.toNat ≤ a →
        t.flashByte a =
          if fpIsErased s.cfg s.flash pb.target (wordCount pb.length.toNat) = false ∧
            inBlockPages s.cfg pb.target (paddedLength pb.length.toNat) a
          then s.cfg.erasedByte else s.flashByte a)

/-- Which bytes a poll or an erase command can change under the programmers of R275: those of the pages of the pending block, and
those of the page of the command's argument (R66, R287, R290, decisions D7, D8). -/
def Obligations.FlashFrameOfPollAndErase : Prop :=
  ∀ (s : State), referenceProgrammer s.cfg = true → Config.valid s.cfg = true →
    (∀ (f : SetupFields) (pb : PendingBlock) (t : State), s.pending = .block pb →
      pb.data.length = pb.length.toNat → 1 ≤ pb.length.toNat →
      exec (.dfuGetstatus f) s = .next t →
      ∀ a, ¬inBlockPages s.cfg pb.target (paddedLength pb.length.toNat) a → t.flashByte a = s.flashByte a) ∧
    (∀ (arg : Word) (t : State), exec (.dfuseErasePage arg) s = .next t →
      ∀ a, a < pageBase s.cfg arg.toNat ∨ pageBase s.cfg arg.toNat + s.cfg.pageSize ≤ a →
        t.flashByte a = s.flashByte a)

/-- A block run is a function of the target, the bytes and the flash: two states with the same parameters and flash, and two
blocks with the same target, bytes and length, give the same flash, the same outcome and the same flash calls, whatever else
differs; and the only other register written is the pointer (R293, an inference of the spec from R280). -/
def Obligations.BlockRunIsPure : Prop :=
  ∀ (pb pb' : PendingBlock) (s s' : State), s'.cfg = s.cfg → s'.flash = s.flash →
    pb'.target = pb.target → pb'.data = pb.data → pb'.length = pb.length →
    (blockExec pb' s').flash = (blockExec pb s).flash ∧
    (blockExec pb' s').dfuState = (blockExec pb s).dfuState ∧
    ((blockExec pb s).dfuState = .dnloadSync ∨ (blockExec pb s).dfuState = .error) ∧
    ((blockExec pb s).dfuState = .error → (blockExec pb' s').dfuStatusCode = (blockExec pb s).dfuStatusCode) ∧
    ((blockExec pb s).addrPtr ≠ s.addrPtr → s.cfg.variant = .plainDfu ∧ (blockExec pb s).dfuState = .dnloadSync) ∧
    (∃ calls, (blockExec pb s).trace = s.trace ++ calls ∧ (blockExec pb' s').trace = s'.trace ++ calls) ∧
    blockExec pb s = { s with
      flash := (blockExec pb s).flash, trace := (blockExec pb s).trace, dfuState := (blockExec pb s).dfuState,
      dfuStatusCode := (blockExec pb s).dfuStatusCode, addrPtr := (blockExec pb s).addrPtr }

/-! ## DfuSe commands -/

/-- `SET_ADDRESS_POINTER`: the pointer becomes the argument with no range check, nothing is pending, the state is `DnloadSync`,
and the transfer ends in success (R253, decision D19). R141 says that end of the `IN` in `StatusIn` only; that the row run by
itself in any other state also ends a transfer is the model's reading, log entry 12. -/
def Obligations.SetAddressPointerCommand : Prop :=
  ∀ (arg : Word) (s : State), ∃ t, exec (.dfuseSetAddressPointer arg) s = .next t ∧ WriteDone s t ∧
    t.addrPtr = arg ∧ t.pending = .noWork ∧ t.dfuState = .dnloadSync ∧ t.dfuStatusCode = s.dfuStatusCode ∧
    SameDevice s t ∧ SameFlash s t

/-- `ERASE_PAGE`: an address outside the region is `errADDRESS` with no flash call; else the page is erased at once, erased or
not, and checked; a failed check is `errCHECK_ERASED`; success ends in `DnloadSync`. A failure stalls. The pointer keeps its
value. For every Flash Programmer (R254, decisions D19, D26). On `FP_IDEAL` an address in the region, page base or not, always
succeeds, and every byte of the page that contains it is `ERASED_BYTE` and every other byte as before (R271, R272, decision
D8). R141 says the stall and the end of the transfer of the `IN` in `StatusIn` only; that the row run by itself in any other
state does the same is the model's reading, log entry 12. -/
def Obligations.ErasePageCommand : Prop :=
  ∀ (arg : Word) (s : State),
    let erased := fpErasePage s.cfg s.flash arg.toNat
    let ok := fpIsErased s.cfg erased (pageBase s.cfg arg.toNat) (s.cfg.pageSize / 4)
    let calls := [Action.erase arg.toNat, .erasedQ (pageBase s.cfg arg.toNat) (s.cfg.pageSize / 4) ok]
    ∃ t, exec (.dfuseErasePage arg) s = .next t ∧ t.addrPtr = s.addrPtr ∧ t.pending = .noWork ∧ SameDevice s t ∧
      (¬inRegion s.cfg arg.toNat →
        WriteFailed [] s t ∧ t.dfuState = .error ∧ t.dfuStatusCode = .errADDRESS ∧ SameFlash s t) ∧
      (inRegion s.cfg arg.toNat → ok = false →
        WriteFailed calls s t ∧ t.dfuState = .error ∧ t.dfuStatusCode = .errCHECK_ERASED ∧ t.flash = erased) ∧
      (inRegion s.cfg arg.toNat → ok = true →
        NoTransfer t ∧ t.setupReq = s.setupReq ∧ SameInputs s t ∧ t.trace = s.trace ++ calls ∧
        t.dfuState = .dnloadSync ∧ t.dfuStatusCode = s.dfuStatusCode ∧ t.flash = erased) ∧
      (inRegion s.cfg arg.toNat → s.cfg.fp = .ideal → Config.valid s.cfg = true →
        Memory.wf (unlistedByte s.cfg) s.flash = true →
        t.dfuState = .dnloadSync ∧ t.dfuStatusCode = s.dfuStatusCode ∧
        ∀ x, t.flashByte x =
          if x / s.cfg.pageSize = arg.toNat / s.cfg.pageSize then s.cfg.erasedByte else s.flashByte x)

/-- A block-0 payload shorter than five bytes, or whose first byte is neither command, is `errSTALLEDPKT` and a stall at the `IN`
that completes the status stage (R252, R255, decision D19). -/
def Obligations.BadCommandStalls : Prop :=
  ∀ (f : SetupFields) (data : List Byte) (s : State), s.cfg.variant = .dfuse → s.cts = .statusIn →
    s.pendOut = some (requestOfDfu .dnload f) → f.value = 0 → f.length ≠ 0 →
    s.xferData.take s.xferLen = data → data.length = f.length.toNat →
    (data.length < 5 ∨
      (data.head? ≠ some s.cfg.cmdCodes.setAddress ∧ data.head? ≠ some s.cfg.cmdCodes.erase)) →
    ∃ t, exec .inDone s = .next t ∧ WriteFailed [] s t ∧ t.dfuState = .error ∧ t.dfuStatusCode = .errSTALLEDPKT ∧
      t.pending = .noWork ∧ t.addrPtr = s.addrPtr ∧ SameDevice s t ∧ SameFlash s t

/-- The command rows are the `IN` that completes a block-0 `DNLOAD`: with a command block received, the `IN` event is decoded as
the command with its little-endian argument, extra bytes ignored, and running that row is running `IN` (R90, R108, R252,
decision D19; log entry 12). -/
def Obligations.CommandRowsAreTheCompletingIn : Prop :=
  ∀ (f : SetupFields) (code a0 a1 a2 a3 : Byte) (rest : List Byte) (s : State),
    s.cfg.variant = .dfuse → s.cfg.cmdCodes.setAddress ≠ s.cfg.cmdCodes.erase → s.cts = .statusIn →
    s.pendOut = some (requestOfDfu .dnload f) → f.value = 0 → f.length.toNat = rest.length + 5 →
    s.xferData.take s.xferLen = code :: a0 :: a1 :: a2 :: a3 :: rest →
    let arg := BitVec.ofNat 32 (a0.toNat + 2 ^ 8 * a1.toNat + 2 ^ 16 * a2.toNat + 2 ^ 24 * a3.toNat)
    (code = s.cfg.cmdCodes.setAddress → instrOf s .inDone = .dfuseSetAddressPointer arg ∧
      exec (.dfuseSetAddressPointer arg) s = exec .inDone s) ∧
    (code = s.cfg.cmdCodes.erase → instrOf s .inDone = .dfuseErasePage arg ∧
      exec (.dfuseErasePage arg) s = exec .inDone s)

/-! ## Fetch, decode, encode -/

/-- A step takes the oldest delivered event off the input and runs the instruction that its bytes decode to (R5, R10, R71, R75),
a `SETUP` payload by the packet decoder (R90, R95). Two parts are the model's: that the delivered events are a field of State
(log entry 2), and that an `IN` is fetched as the command row that waits for it, where there is one (log entry 12). -/
def Obligations.StepRunsDecodedInstruction : Prop :=
  ∀ (e : Event) (rest : List Event) (s : State), Config.valid s.cfg = true → s.events = e :: rest →
    step s = exec (instrOf s e) { s with events := rest } ∧
    (∀ payload, e = .setup payload → step s = exec (decodeSetup payload) { s with events := rest }) ∧
    (∀ packet, e = .outDone packet → step s = exec (.outDone packet) { s with events := rest }) ∧
    (e = .reset → step s = exec .reset { s with events := rest }) ∧
    (e = .inDone → awaitedCommand s = none → step s = exec .inDone { s with events := rest }) ∧
    (∀ c, e = .inDone → awaitedCommand s = some c → step s = exec (Instr.ofCommand c) { s with events := rest })

/-- A step takes exactly one event off the input and writes no parameter (R6, R21, R75, decision D1); with no event delivered the
machine waits as it is (R151); a configuration that breaks R7 is refused, not run (decisions D6, D11; log entries 2 and 15
name the model's form of both). -/
def Obligations.StepTakesOneEventWaitsOrRefuses : Prop :=
  ∀ s : State, (∀ t, step s = .next t → t.cfg = s.cfg ∧ t.events = s.events.tail) ∧
    (Config.valid s.cfg = true → s.events = [] → step s = .next s) ∧
    (Config.valid s.cfg = false → step s = .refused .invalidConfiguration)

/-- Words written out from the tables of R91, R101, R102, R108 and R110 decode to their rows. -/
def Obligations.SpecWordsDecode : Prop :=
  decode CmdCodes.ref .event [0x00] = .ok .reset ∧ decode CmdCodes.ref .event [0x02] = .ok .inDone ∧
  decode CmdCodes.ref .event [0x03, 0xAA] = .ok (.outDone [0xAA]) ∧
  decodeSetup [0x21, 0x01, 0x02, 0x01, 0x00, 0x00, 0x80, 0x00] =
    .dfuDnload { recipient := 1, value := 0x0102, index := 0, length := 128 } ∧
  decodeSetup [0xA1, 0x03, 0x00, 0x00, 0x00, 0x00, 0x06, 0x00] =
    .dfuGetstatus { recipient := 1, value := 0, index := 0, length := 6 } ∧
  decodeSetup [0x21, 0x03, 0x00, 0x00, 0x00, 0x00, 0x06, 0x00] =
    .handlerClass .hostToDevice 3 { recipient := 1, value := 0, index := 0, length := 6 } ∧
  decodeSetup [0x80, 0x06, 0x00, 0x02, 0x00, 0x00, 0xFF, 0x00] =
    .stdGetDescriptor { recipient := 0, value := 0x0200, index := 0, length := 255 } ∧
  decode CmdCodes.ref .dfuseCmd40 [0x41, 0x10, 0x30, 0x00, 0x08] = .ok (.dfuseErasePage 0x08003010)

/-- Decoding the encoding of any well-formed instruction gives it back, for every operand value and all pairs of distinct
command codes (R91 to R96, R101, R102, R108, R110). -/
def Obligations.DecodeOfEncode : Prop :=
  ∀ (codes : CmdCodes) (i : Instr), codes.setAddress ≠ codes.erase → i.wf = true →
    decode codes (encode codes i).1 (encode codes i).2 = .ok i

/-- Every 8-byte packet is the encoding of the one well-formed instruction it decodes to: no bit of a packet is dropped (R95:
"Decoding is total on 8-byte payloads"). -/
def Obligations.EncodeOfDecodedPacket : Prop :=
  ∀ (codes : CmdCodes) (packet : List Byte), packet.length = 8 →
    (decodeSetup packet).wf = true ∧ encode codes (decodeSetup packet) = (.setup64, packet)

/-! ## Whole-machine rules -/

/-- The invariant holds in the state after reset. -/
def Obligations.ResetSatisfiesInvariant : Prop := State.reset.Inv

/-- Every step keeps the invariant of R358 (with the canonical form of the flash listing and the facts of R150, R174, R248 and
R303): from every state that meets it, not only from those a run reaches. -/
def Obligations.StepKeepsInvariant : Prop :=
  ∀ s t : State, s.Inv → step s = .next t → t.Inv

/-- Totality: in every state that meets the invariant every event has a next state; nothing stops the machine (R359, an
inference of the spec from R150 and R247). -/
def Obligations.StepNeverStops : Prop :=
  ∀ s : State, s.Inv → ∃ t, step s = .next t

/-- R314: a step leaves `Error` only by a `RESET` or by the `IN` that completes a `CLRSTATUS`; both do leave it; and while in
`Error` the machine answers `GETSTATUS` and `GETSTATE`, as often as asked, and stays there. -/
def Obligations.ErrorLeftOnlyByClrstatusOrReset : Prop :=
  ∀ s : State, s.Inv → s.dfuState = .error →
    (∀ t, step s = .next t →
      (t.dfuState ≠ .error ↔ (∃ rest, s.events = .reset :: rest) ∨
        (∃ rest f, s.events = .inDone :: rest ∧ s.cts = .statusIn ∧ s.pendOut = some (requestOfDfu .clrstatus f)))) ∧
    (classGate s = true → ∀ f : SetupFields,
      (∃ t, exec (.dfuGetstatus f) s = .next t ∧ SameClass s t ∧
        ReadAnswered (requestOfDfu .getstatus f) (statusBytes s.cfg s.dfuStatusCode 0 .error) [] s t) ∧
      (∃ t, exec (.dfuGetstate f) s = .next t ∧ SameClass s t ∧
        ReadAnswered (requestOfDfu .getstate f) [s.cfg.stateCodes.code .error] [] s t))

/-- R31: the status code is sticky. A step that changes it either enters (or stays in) `Error` with an error code, or sets it to
`OK` by a `RESET` or by the `IN` that completes a `CLRSTATUS`. -/
def Obligations.StatusCodeIsSticky : Prop :=
  ∀ s t : State, s.Inv → step s = .next t → t.dfuStatusCode ≠ s.dfuStatusCode →
    (t.dfuState = .error ∧ t.dfuStatusCode ≠ .ok) ∨
    (t.dfuStatusCode = .ok ∧ ((∃ rest, s.events = .reset :: rest) ∨
      (∃ rest f, s.events = .inDone :: rest ∧ s.cts = .statusIn ∧ s.pendOut = some (requestOfDfu .clrstatus f))))

/-- No flash byte changes outside a `GETSTATUS` poll in `DnloadSync` with a block pending and the DfuSe `ERASE_PAGE` command, which
is the `IN` that completes a block-0 `DNLOAD` (R40, R295, an inference of the spec from R230 and R280). -/
def Obligations.FlashChangesOnlyInPollOrErase : Prop :=
  ∀ (i : Instr) (s t : State), i.wf = true → exec i s = .next t → ¬SameFlash s t →
    (∃ f pb, i = .dfuGetstatus f ∧ s.dfuState = .dnloadSync ∧ s.pending = .block pb) ∨
    (∃ arg, i = .dfuseErasePage arg) ∨
    (∃ arg, i = .inDone ∧ awaitedCommand s = some (.erasePage arg))

/-- Under the programmers of R275 no step changes a flash byte outside the programmable region (R61, R281, R287, decisions D6,
D8). -/
def Obligations.FlashOutsideRegionIsUntouched : Prop :=
  ∀ s t : State, s.Inv → referenceProgrammer s.cfg = true → step s = .next t →
    ∀ a, ¬inRegion s.cfg a → t.flashByte a = s.flashByte a

/-- What a stall leaves: a step appends to the trace, at most one of the new entries is a `STALL`, and if one is, it is the last
one and the transfer is gone (R301, R312, decision D32). -/
def Obligations.StallEndsTransfer : Prop :=
  ∀ s t : State, s.Inv → step s = .next t → ∃ out, t.trace = s.trace ++ out ∧
    (.stall ∈ out → NoTransfer t ∧ ∃ before, out = before ++ [.stall] ∧ .stall ∉ before)

/-- The DFU machine reads neither the recipient nor the index of a class packet: two packets that differ only there do the same,
up to the copy of the packet itself (R97, R172, decision D27). -/
def Obligations.RecipientAndIndexAreNotRead : Prop :=
  ∀ (q : DfuRequest) (f : SetupFields) (recipient : BitVec 5) (index : Half) (s t : State),
    exec (instrOfDfu q f) s = .next t →
    let f' := { f with recipient := recipient, index := index }
    exec (instrOfDfu q f') s = .next { t with
      setupReq := some (requestOfDfu q f'), pendOut := t.pendOut.map fun _ => requestOfDfu q f' }

/-- Every row has a next state in every state, but for `IN` in `StatusIn` where the register combination is one that no run
reaches (R150, R174): nothing pending, or a pending request that no `validate` accepts as a write. There it stops by name
(log entry 11). -/
def Obligations.RowsStopOnlyOnUnacceptedWrite : Prop :=
  ∀ (i : Instr) (s : State), (∃ t, exec i s = .next t) ∨
    (i = .inDone ∧ s.cts = .statusIn ∧
      ((s.pendOut = none ∧ exec i s = .fault .noPendingWrite) ∨
       (∃ r, s.pendOut = some r ∧ exec i s = .fault .unacceptedPendingWrite ∧
        match r.type with
        | .standard => s.cfg.std = .ref ∧ ¬(r.dir = .hostToDevice ∧ (r.code = 5 ∨ r.code = 9))
        | .classReq => (∀ f, r ≠ requestOfDfu .clrstatus f ∧ r ≠ requestOfDfu .abort f) ∧
            ∀ f, r = requestOfDfu .dnload f → s.cfg.variant = .dfuse ∧ f.value = 1 ∧ f.length ≠ 0
        | .vendor => s.cfg.vnd = .ref
        | .reserved => True)))
end

