-- ==== Sys2Proof/Laws/Decode.lean ====
section
/-! SUPPORT. The decoder and the encoder undo each other on each field and on a setup packet. -/

namespace Sys2Proof.Laws

open Machine

/-! Byte order (R8). -/

theorem le16_extract (v : Half) : le16 (v.extractLsb' 0 8) (v.extractLsb' 8 8) = v := by
  apply BitVec.eq_of_getLsbD_eq
  intro i hi
  simp only [le16, BitVec.getLsbD_append, BitVec.getLsbD_extractLsb']
  by_cases h : i < 8
  · simp [h]
  · have : i - 8 < 8 := by omega
    simp [h, this, show 8 + (i - 8) = i by omega]

theorem extract_le16_low (lo hi : Byte) : (le16 lo hi).extractLsb' 0 8 = lo := by
  apply BitVec.eq_of_getLsbD_eq
  intro i h
  simp only [le16, BitVec.getLsbD_extractLsb', BitVec.getLsbD_append]
  simp [h]

theorem extract_le16_high (lo hi : Byte) : (le16 lo hi).extractLsb' 8 8 = hi := by
  apply BitVec.eq_of_getLsbD_eq
  intro i h
  simp only [le16, BitVec.getLsbD_extractLsb', BitVec.getLsbD_append]
  simp [h]

theorem le32_extract (v : Word) :
    le32 (v.extractLsb' 0 8) (v.extractLsb' 8 8) (v.extractLsb' 16 8) (v.extractLsb' 24 8) = v := by
  apply BitVec.eq_of_getLsbD_eq
  intro i hi
  simp only [le32, BitVec.getLsbD_append, BitVec.getLsbD_extractLsb']
  by_cases h1 : i < 8
  · simp [h1]
  · by_cases h2 : i - 8 < 8
    · simp [h1, h2, show 8 + (i - 8) = i by omega]
    · by_cases h3 : i - 8 - 8 < 8
      · simp [h1, h2, h3, show 16 + (i - 8 - 8) = i by omega]
      · have h4 : i - 8 - 8 - 8 < 8 := by omega
        simp [h1, h2, h3, h4, show 24 + (i - 8 - 8 - 8) = i by omega]

/-- `le32` as the sum of R8. -/
theorem toNat_le32 (b0 b1 b2 b3 : Byte) :
    (le32 b0 b1 b2 b3).toNat = b0.toNat + 2 ^ 8 * b1.toNat + 2 ^ 16 * b2.toNat + 2 ^ 24 * b3.toNat := by
  have e0 := b0.isLt
  have e1 := b1.isLt
  have e2 := b2.isLt
  have e3 := b3.isLt
  simp only [le32, BitVec.toNat_append]
  rw [← Nat.shiftLeft_add_eq_or_of_lt e2, ← Nat.shiftLeft_add_eq_or_of_lt e1, ← Nat.shiftLeft_add_eq_or_of_lt e0]
  simp only [Nat.shiftLeft_eq]
  omega

/-! Byte 0 of the setup packet (R94). -/

theorem header_dir (d : Dir) (t : ReqType) (r : BitVec 5) :
    Dir.ofBit ((d.bit ++ t.bits ++ r : BitVec (1 + 2 + 5)).extractLsb' 7 1) = d := by
  cases d <;> cases t <;> revert r <;> decide

theorem header_type (d : Dir) (t : ReqType) (r : BitVec 5) :
    ReqType.ofBits ((d.bit ++ t.bits ++ r : BitVec (1 + 2 + 5)).extractLsb' 5 2) = t := by
  cases d <;> cases t <;> revert r <;> decide

theorem header_recipient (d : Dir) (t : ReqType) (r : BitVec 5) :
    (d.bit ++ t.bits ++ r : BitVec (1 + 2 + 5)).extractLsb' 0 5 = r := by
  cases d <;> cases t <;> revert r <;> decide

theorem header_of_fields (b : Byte) :
    ((Dir.ofBit (b.extractLsb' 7 1)).bit ++ (ReqType.ofBits (b.extractLsb' 5 2)).bits ++ b.extractLsb' 0 5 : BitVec (1 + 2 + 5))
      = b := by
  revert b; decide

/-! A whole packet (R92 to R95). -/

theorem decodeRequest_encodeRequest (r : SetupRequest) : decodeRequest (encodeRequest r) = some r := by
  simp only [encodeRequest, decodeRequest, le16_extract, header_dir, header_type, header_recipient]

theorem encodeRequest_of_decodeRequest {p : List Byte} {r : SetupRequest} (h : decodeRequest p = some r) :
    encodeRequest r = p := by
  unfold decodeRequest at h
  split at h
  · simp only [Option.some.injEq] at h
    subst h
    simp only [encodeRequest, extract_le16_low, extract_le16_high, header_of_fields]
  · simp at h

theorem decodeRequest_none_iff (p : List Byte) : decodeRequest p = none ↔ p.length ≠ 8 := by
  match p with
  | [] | [_] | [_, _] | [_, _, _] | [_, _, _, _] | [_, _, _, _, _] | [_, _, _, _, _, _] | [_, _, _, _, _, _, _]
  | [_, _, _, _, _, _, _, _] | _ :: _ :: _ :: _ :: _ :: _ :: _ :: _ :: _ :: _ => simp [decodeRequest]

/-- A class request is one of the seven exactly when its direction and code stand in the table of R102. -/
theorem ofSelector_none_iff (d : Dir) (c : Byte) : DfuRequest.ofSelector d c = none ↔ (d, c) ∉ classRows := by
  cases d <;> revert c <;> decide

end Sys2Proof.Laws
end

