-- ==== Sys2Proof/Laws/Memory.lean ====
section
/-! SUPPORT. What the flash operations do: reading after writing, and the canonical form that every operation keeps. -/

namespace Sys2Proof.Laws

open Machine

theorem read_put_same (d : Byte) (m : List Host.Cell) (a : Nat) (v : Byte) (lo : Nat)
    (h : Memory.wfFrom d lo m = true) : Memory.read d (Memory.put d m a v) a = v := by
  induction m generalizing lo with
  | nil => by_cases hv : v = d <;> simp [Memory.put, Memory.read, hv]
  | cons c m ih =>
    obtain ⟨k, b⟩ := c
    simp only [Memory.wfFrom, Bool.and_eq_true, decide_eq_true_eq] at h
    have unlisted : ∀ (m : List Host.Cell) (lo : Nat), Memory.wfFrom d lo m = true → a < lo → Memory.read d m a = d := by
      intro m
      induction m with
      | nil => intros; rfl
      | cons c m ih =>
        intro lo hm ha
        obtain ⟨k, b⟩ := c
        simp only [Memory.wfFrom, Bool.and_eq_true, decide_eq_true_eq] at hm
        simp only [Memory.read]
        rw [if_neg (by omega)]
        exact ih (k + 1) hm.2 (by omega)
    simp only [Memory.put]
    split
    · split
      · rename_i hv
        simp only [Memory.read]
        rw [if_neg (by omega), hv]
        exact unlisted m (k + 1) h.2 (by omega)
      · simp [Memory.read]
    · split
      · split
        · rename_i hv
          rw [hv]; exact unlisted m (k + 1) h.2 (by omega)
        · simp [Memory.read]
      · simp only [Memory.read]
        rw [if_neg (by omega)]
        exact ih (k + 1) h.2

theorem read_put_other (d : Byte) (m : List Host.Cell) (a a' : Nat) (v : Byte) (hne : a' ≠ a) :
    Memory.read d (Memory.put d m a v) a' = Memory.read d m a' := by
  induction m with
  | nil => by_cases hv : v = d <;> simp [Memory.put, Memory.read, hv, Ne.symm hne]
  | cons c m ih =>
    obtain ⟨k, b⟩ := c
    simp only [Memory.put]
    split
    · split
      · rfl
      · simp [Memory.read, Ne.symm hne]
    · split
      · rename_i hk
        split
        · simp [Memory.read, ← hk, Ne.symm hne]
        · simp [Memory.read, ← hk, Ne.symm hne]
      · simp only [Memory.read]
        split
        · rfl
        · exact ih

theorem wfFrom_mono {d : Byte} {m : List Host.Cell} {lo lo' : Nat} (h : Memory.wfFrom d lo m = true) (hle : lo' ≤ lo) :
    Memory.wfFrom d lo' m = true := by
  cases m with
  | nil => rfl
  | cons c m =>
    simp only [Memory.wfFrom, Bool.and_eq_true, decide_eq_true_eq] at h ⊢
    exact ⟨⟨by omega, h.1.2⟩, h.2⟩

theorem wfFrom_put {d : Byte} {m : List Host.Cell} {lo a : Nat} {v : Byte} (h : Memory.wfFrom d lo m = true)
    (hlo : lo ≤ a) (ha : a < flashSpace) : Memory.wfFrom d lo (Memory.put d m a v) = true := by
  induction m generalizing lo with
  | nil =>
    simp only [Memory.put]
    split
    · rfl
    · simp_all [Memory.wfFrom]
  | cons c m ih =>
    obtain ⟨k, b⟩ := c
    have h0 := h
    simp only [Memory.wfFrom, Bool.and_eq_true, decide_eq_true_eq] at h
    simp only [Memory.put]
    split
    · split
      · exact h0
      · simp only [Memory.wfFrom, Bool.and_eq_true, decide_eq_true_eq]
        refine ⟨⟨hlo, ha, ‹_›⟩, ⟨by omega, h.1.2⟩, h.2⟩
    · split
      · rename_i hk
        split
        · exact wfFrom_mono h.2 (by omega)
        · simp only [Memory.wfFrom, Bool.and_eq_true, decide_eq_true_eq]
          exact ⟨⟨hlo, ha, ‹_›⟩, by rw [hk]; exact h.2⟩
      · simp only [Memory.wfFrom, Bool.and_eq_true, decide_eq_true_eq]
        exact ⟨h.1, ih h.2 (by omega)⟩

/-- Writing keeps the canonical form. -/
theorem wf_write {d : Byte} {m : List Host.Cell} (a : Nat) (v : Byte) (h : Memory.wf d m = true) :
    Memory.wf d (Memory.write d m a v) = true := by
  unfold Memory.write
  split
  · exact wfFrom_put h (Nat.zero_le _) ‹_›
  · exact h

theorem read_write_same {d : Byte} {m : List Host.Cell} {a : Nat} (v : Byte) (h : Memory.wf d m = true)
    (ha : a < flashSpace) : Memory.read d (Memory.write d m a v) a = v := by
  simp only [Memory.write, ha, if_true]
  exact read_put_same d m a v 0 h

theorem read_write_other {d : Byte} {m : List Host.Cell} {a a' : Nat} (v : Byte) (hne : a' ≠ a) :
    Memory.read d (Memory.write d m a v) a' = Memory.read d m a' := by
  unfold Memory.write
  split
  · exact read_put_other d m a a' v hne
  · rfl

theorem wf_writeBytes {d : Byte} (vs : List Byte) {m : List Host.Cell} (a : Nat) (h : Memory.wf d m = true) :
    Memory.wf d (Memory.writeBytes d m a vs) = true := by
  induction vs generalizing m a with
  | nil => exact h
  | cons v vs ih => exact ih (a + 1) (wf_write a v h)

theorem wf_writeCells {d : Byte} (vs : List (Word × Byte)) {m : List Host.Cell} (h : Memory.wf d m = true) :
    Memory.wf d (Memory.writeCells d m vs) = true := by
  induction vs generalizing m with
  | nil => exact h
  | cons v vs ih => exact ih (wf_write v.1.toNat v.2 h)

/-- Writing bytes leaves every address outside the written range alone. -/
theorem read_writeBytes_outside {d : Byte} (vs : List Byte) {m : List Host.Cell} {a a' : Nat}
    (h : a' < a ∨ a + vs.length ≤ a') : Memory.read d (Memory.writeBytes d m a vs) a' = Memory.read d m a' := by
  induction vs generalizing m a with
  | nil => rfl
  | cons v vs ih =>
    simp only [List.length_cons] at h
    simp only [Memory.writeBytes]
    rw [ih (by omega), read_write_other v (by omega)]

/-- Writing bytes puts byte `i` at address `a + i`. -/
theorem read_writeBytes_inside {d : Byte} (vs : List Byte) {m : List Host.Cell} {a : Nat} (i : Nat)
    (hm : Memory.wf d m = true) (hi : i < vs.length) (ha : a + vs.length ≤ flashSpace) :
    Memory.read d (Memory.writeBytes d m a vs) (a + i) = vs[i] := by
  induction vs generalizing m a i with
  | nil => simp at hi
  | cons v vs ih =>
    simp only [List.length_cons] at hi ha
    simp only [Memory.writeBytes]
    cases i with
    | zero =>
      rw [read_writeBytes_outside vs (by omega)]
      exact read_write_same v hm (by omega)
    | succ i =>
      have := ih (a := a + 1) (m := Memory.write d m a v) i (wf_write a v hm) (by omega) (by omega)
      rw [show a + (i + 1) = a + 1 + i by omega, this]
      rfl

@[simp] theorem length_readBytes (d : Byte) (m : List Host.Cell) (a n : Nat) : (Memory.readBytes d m a n).length = n := by
  induction n generalizing a with
  | zero => rfl
  | succ n ih => simp [Memory.readBytes, ih]

theorem getElem_readBytes (d : Byte) (m : List Host.Cell) (a n i : Nat) (h : i < (Memory.readBytes d m a n).length) :
    (Memory.readBytes d m a n)[i] = Memory.read d m (a + i) := by
  induction n generalizing a i with
  | zero => simp at h
  | succ n ih =>
    cases i with
    | zero => rfl
    | succ i =>
      simp only [Memory.readBytes, List.getElem_cons_succ]
      rw [ih, show a + 1 + i = a + (i + 1) by omega]

/-- `FlashRead` of a range that agrees byte by byte with a list is that list. -/
theorem readBytes_eq {d : Byte} {m : List Host.Cell} {a : Nat} {vs : List Byte}
    (h : ∀ i (hi : i < vs.length), Memory.read d m (a + i) = vs[i]) : Memory.readBytes d m a vs.length = vs := by
  apply List.ext_getElem
  · simp
  · intro i h1 h2
    rw [getElem_readBytes]
    exact h i h2

theorem readBytes_congr {d : Byte} {m m' : List Host.Cell} {a n : Nat}
    (h : ∀ i, i < n → Memory.read d m (a + i) = Memory.read d m' (a + i)) :
    Memory.readBytes d m a n = Memory.readBytes d m' a n := by
  apply List.ext_getElem
  · simp
  · intro i h1 h2
    rw [getElem_readBytes, getElem_readBytes]
    exact h i (by simpa using h1)

theorem allErased_iff {c : Config} {m : List Host.Cell} {a n : Nat} :
    allErased c m a n = true ↔ ∀ i, i < n → Memory.read (unlistedByte c) m (a + i) = c.erasedByte := by
  unfold allErased
  rw [List.all_eq_true]
  constructor
  · intro h i hi
    have := h _ (List.getElem_mem (l := Memory.readBytes (unlistedByte c) m a n) (n := i) (by simpa using hi))
    rw [getElem_readBytes] at this
    simpa using this
  · intro h x hx
    obtain ⟨i, hi, rfl⟩ := List.getElem_of_mem hx
    rw [getElem_readBytes]
    simpa using h i (by simpa using hi)

/-! The Flash Programmer's calls keep the canonical form, whichever programmer it is. -/

theorem wf_erasedPage {c : Config} {m : List Host.Cell} (a : Nat) (h : Memory.wf (unlistedByte c) m = true) :
    Memory.wf (unlistedByte c) (erasedPage c m a) = true := wf_writeBytes _ _ h

theorem wf_fpErasePage {c : Config} {m : List Host.Cell} (a : Nat) (h : Memory.wf (unlistedByte c) m = true) :
    Memory.wf (unlistedByte c) (fpErasePage c m a) = true := by
  unfold fpErasePage
  split
  · exact wf_erasedPage a h
  · exact h
  · exact wf_erasedPage a h
  · exact wf_writeCells _ h

theorem wf_fpProgram {c : Config} {m : List Host.Cell} (a : Nat) (vs : List Byte)
    (h : Memory.wf (unlistedByte c) m = true) : Memory.wf (unlistedByte c) (fpProgram c m a vs) = true := by
  unfold fpProgram
  split
  · exact wf_writeBytes _ _ h
  · exact wf_writeBytes _ _ h
  · exact wf_writeBytes _ _ h
  · exact wf_writeCells _ h

/-! What the reference and the two faulty programmers change (R271 to R275). -/

theorem read_erasedPage_outside {c : Config} {m : List Host.Cell} {a a' : Nat}
    (h : a' < pageBase c a ∨ pageBase c a + c.pageSize ≤ a') :
    Memory.read (unlistedByte c) (erasedPage c m a) a' = Memory.read (unlistedByte c) m a' :=
  read_writeBytes_outside _ (by simpa using h)

theorem read_erasedPage_inside {c : Config} {m : List Host.Cell} {a a' : Nat}
    (hm : Memory.wf (unlistedByte c) m = true) (h1 : pageBase c a ≤ a') (h2 : a' < pageBase c a + c.pageSize)
    (hs : pageBase c a + c.pageSize ≤ flashSpace) :
    Memory.read (unlistedByte c) (erasedPage c m a) a' = c.erasedByte := by
  obtain ⟨i, rfl⟩ := Nat.exists_eq_add_of_le h1
  unfold erasedPage
  rw [read_writeBytes_inside _ i hm (by simpa using (by omega)) (by simpa using hs)]
  simp

theorem read_fpErasePage_outside {c : Config} {m : List Host.Cell} {a a' : Nat} (hr : referenceProgrammer c = true)
    (h : a' < pageBase c a ∨ pageBase c a + c.pageSize ≤ a') :
    Memory.read (unlistedByte c) (fpErasePage c m a) a' = Memory.read (unlistedByte c) m a' := by
  unfold fpErasePage
  split
  · exact read_erasedPage_outside h
  · rfl
  · exact read_erasedPage_outside h
  · simp_all [referenceProgrammer]

@[simp] theorem length_badFirstByte (vs : List Byte) : (badFirstByte vs).length = vs.length := by
  cases vs <;> rfl

theorem read_fpProgram_outside {c : Config} {m : List Host.Cell} {a a' : Nat} {vs : List Byte}
    (hr : referenceProgrammer c = true) (h : a' < a ∨ a + vs.length ≤ a') :
    Memory.read (unlistedByte c) (fpProgram c m a vs) a' = Memory.read (unlistedByte c) m a' := by
  unfold fpProgram
  split
  · exact read_writeBytes_outside _ h
  · exact read_writeBytes_outside _ h
  · exact read_writeBytes_outside _ (by simpa using h)
  · simp_all [referenceProgrammer]

end Sys2Proof.Laws
end

