-- ==== Sys2Proof/Laws/State.lean ====
section
/-! SUPPORT. One lemma for each register and each shared operation: what the operation leaves there. -/

namespace Sys2Proof.Laws

open Machine

@[simp] theorem emit_cfg (x : Action) (s : State) : (emit x s).cfg = s.cfg := rfl
@[simp] theorem emit_events (x : Action) (s : State) : (emit x s).events = s.events := rfl
@[simp] theorem emit_trace (x : Action) (s : State) : (emit x s).trace = s.trace ++ [x] := rfl
@[simp] theorem emit_cts (x : Action) (s : State) : (emit x s).cts = s.cts := rfl
@[simp] theorem emit_setupReq (x : Action) (s : State) : (emit x s).setupReq = s.setupReq := rfl
@[simp] theorem emit_pendOut (x : Action) (s : State) : (emit x s).pendOut = s.pendOut := rfl
@[simp] theorem emit_xferData (x : Action) (s : State) : (emit x s).xferData = s.xferData := rfl
@[simp] theorem emit_xferLen (x : Action) (s : State) : (emit x s).xferLen = s.xferLen := rfl
@[simp] theorem emit_xferPos (x : Action) (s : State) : (emit x s).xferPos = s.xferPos := rfl
@[simp] theorem emit_usbDevState (x : Action) (s : State) : (emit x s).usbDevState = s.usbDevState := rfl
@[simp] theorem emit_usbAddr (x : Action) (s : State) : (emit x s).usbAddr = s.usbAddr := rfl
@[simp] theorem emit_usbConfig (x : Action) (s : State) : (emit x s).usbConfig = s.usbConfig := rfl
@[simp] theorem emit_stdOwn (x : Action) (s : State) : (emit x s).stdOwn = s.stdOwn := rfl
@[simp] theorem emit_vndOwn (x : Action) (s : State) : (emit x s).vndOwn = s.vndOwn := rfl
@[simp] theorem emit_dfuState (x : Action) (s : State) : (emit x s).dfuState = s.dfuState := rfl
@[simp] theorem emit_dfuStatusCode (x : Action) (s : State) : (emit x s).dfuStatusCode = s.dfuStatusCode := rfl
@[simp] theorem emit_addrPtr (x : Action) (s : State) : (emit x s).addrPtr = s.addrPtr := rfl
@[simp] theorem emit_pending (x : Action) (s : State) : (emit x s).pending = s.pending := rfl
@[simp] theorem emit_flash (x : Action) (s : State) : (emit x s).flash = s.flash := rfl

@[simp] theorem abandon_cfg (s : State) : (abandon s).cfg = s.cfg := rfl
@[simp] theorem abandon_events (s : State) : (abandon s).events = s.events := rfl
@[simp] theorem abandon_trace (s : State) : (abandon s).trace = s.trace := rfl
@[simp] theorem abandon_cts (s : State) : (abandon s).cts = .stalled := rfl
@[simp] theorem abandon_setupReq (s : State) : (abandon s).setupReq = s.setupReq := rfl
@[simp] theorem abandon_pendOut (s : State) : (abandon s).pendOut = none := rfl
@[simp] theorem abandon_xferData (s : State) : (abandon s).xferData = [] := rfl
@[simp] theorem abandon_xferLen (s : State) : (abandon s).xferLen = 0 := rfl
@[simp] theorem abandon_xferPos (s : State) : (abandon s).xferPos = 0 := rfl
@[simp] theorem abandon_usbDevState (s : State) : (abandon s).usbDevState = s.usbDevState := rfl
@[simp] theorem abandon_usbAddr (s : State) : (abandon s).usbAddr = s.usbAddr := rfl
@[simp] theorem abandon_usbConfig (s : State) : (abandon s).usbConfig = s.usbConfig := rfl
@[simp] theorem abandon_stdOwn (s : State) : (abandon s).stdOwn = s.stdOwn := rfl
@[simp] theorem abandon_vndOwn (s : State) : (abandon s).vndOwn = s.vndOwn := rfl
@[simp] theorem abandon_dfuState (s : State) : (abandon s).dfuState = s.dfuState := rfl
@[simp] theorem abandon_dfuStatusCode (s : State) : (abandon s).dfuStatusCode = s.dfuStatusCode := rfl
@[simp] theorem abandon_addrPtr (s : State) : (abandon s).addrPtr = s.addrPtr := rfl
@[simp] theorem abandon_pending (s : State) : (abandon s).pending = s.pending := rfl
@[simp] theorem abandon_flash (s : State) : (abandon s).flash = s.flash := rfl

@[simp] theorem fail_cfg (s : State) : (fail s).cfg = s.cfg := rfl
@[simp] theorem fail_events (s : State) : (fail s).events = s.events := rfl
@[simp] theorem fail_trace (s : State) : (fail s).trace = s.trace ++ [.stall] := rfl
@[simp] theorem fail_cts (s : State) : (fail s).cts = .stalled := rfl
@[simp] theorem fail_setupReq (s : State) : (fail s).setupReq = s.setupReq := rfl
@[simp] theorem fail_pendOut (s : State) : (fail s).pendOut = none := rfl
@[simp] theorem fail_xferData (s : State) : (fail s).xferData = [] := rfl
@[simp] theorem fail_xferLen (s : State) : (fail s).xferLen = 0 := rfl
@[simp] theorem fail_xferPos (s : State) : (fail s).xferPos = 0 := rfl
@[simp] theorem fail_usbDevState (s : State) : (fail s).usbDevState = s.usbDevState := rfl
@[simp] theorem fail_usbAddr (s : State) : (fail s).usbAddr = s.usbAddr := rfl
@[simp] theorem fail_usbConfig (s : State) : (fail s).usbConfig = s.usbConfig := rfl
@[simp] theorem fail_stdOwn (s : State) : (fail s).stdOwn = s.stdOwn := rfl
@[simp] theorem fail_vndOwn (s : State) : (fail s).vndOwn = s.vndOwn := rfl
@[simp] theorem fail_dfuState (s : State) : (fail s).dfuState = s.dfuState := rfl
@[simp] theorem fail_dfuStatusCode (s : State) : (fail s).dfuStatusCode = s.dfuStatusCode := rfl
@[simp] theorem fail_addrPtr (s : State) : (fail s).addrPtr = s.addrPtr := rfl
@[simp] theorem fail_pending (s : State) : (fail s).pending = s.pending := rfl
@[simp] theorem fail_flash (s : State) : (fail s).flash = s.flash := rfl

@[simp] theorem newTransfer_cfg (r : SetupRequest) (s : State) : (newTransfer r s).cfg = s.cfg := rfl
@[simp] theorem newTransfer_events (r : SetupRequest) (s : State) : (newTransfer r s).events = s.events := rfl
@[simp] theorem newTransfer_trace (r : SetupRequest) (s : State) : (newTransfer r s).trace = s.trace := rfl
@[simp] theorem newTransfer_cts (r : SetupRequest) (s : State) : (newTransfer r s).cts = .stalled := rfl
@[simp] theorem newTransfer_setupReq (r : SetupRequest) (s : State) : (newTransfer r s).setupReq = some r := rfl
@[simp] theorem newTransfer_pendOut (r : SetupRequest) (s : State) : (newTransfer r s).pendOut = none := rfl
@[simp] theorem newTransfer_xferData (r : SetupRequest) (s : State) : (newTransfer r s).xferData = [] := rfl
@[simp] theorem newTransfer_xferLen (r : SetupRequest) (s : State) : (newTransfer r s).xferLen = 0 := rfl
@[simp] theorem newTransfer_xferPos (r : SetupRequest) (s : State) : (newTransfer r s).xferPos = 0 := rfl
@[simp] theorem newTransfer_usbDevState (r : SetupRequest) (s : State) : (newTransfer r s).usbDevState = s.usbDevState := rfl
@[simp] theorem newTransfer_usbAddr (r : SetupRequest) (s : State) : (newTransfer r s).usbAddr = s.usbAddr := rfl
@[simp] theorem newTransfer_usbConfig (r : SetupRequest) (s : State) : (newTransfer r s).usbConfig = s.usbConfig := rfl
@[simp] theorem newTransfer_stdOwn (r : SetupRequest) (s : State) : (newTransfer r s).stdOwn = s.stdOwn := rfl
@[simp] theorem newTransfer_vndOwn (r : SetupRequest) (s : State) : (newTransfer r s).vndOwn = s.vndOwn := rfl
@[simp] theorem newTransfer_dfuState (r : SetupRequest) (s : State) : (newTransfer r s).dfuState = s.dfuState := rfl
@[simp] theorem newTransfer_dfuStatusCode (r : SetupRequest) (s : State) : (newTransfer r s).dfuStatusCode = s.dfuStatusCode := rfl
@[simp] theorem newTransfer_addrPtr (r : SetupRequest) (s : State) : (newTransfer r s).addrPtr = s.addrPtr := rfl
@[simp] theorem newTransfer_pending (r : SetupRequest) (s : State) : (newTransfer r s).pending = s.pending := rfl
@[simp] theorem newTransfer_flash (r : SetupRequest) (s : State) : (newTransfer r s).flash = s.flash := rfl

@[simp] theorem classError_cfg (c : StatusCode) (s : State) : (classError c s).cfg = s.cfg := rfl
@[simp] theorem classError_events (c : StatusCode) (s : State) : (classError c s).events = s.events := rfl
@[simp] theorem classError_trace (c : StatusCode) (s : State) : (classError c s).trace = s.trace := rfl
@[simp] theorem classError_cts (c : StatusCode) (s : State) : (classError c s).cts = s.cts := rfl
@[simp] theorem classError_setupReq (c : StatusCode) (s : State) : (classError c s).setupReq = s.setupReq := rfl
@[simp] theorem classError_pendOut (c : StatusCode) (s : State) : (classError c s).pendOut = s.pendOut := rfl
@[simp] theorem classError_xferData (c : StatusCode) (s : State) : (classError c s).xferData = s.xferData := rfl
@[simp] theorem classError_xferLen (c : StatusCode) (s : State) : (classError c s).xferLen = s.xferLen := rfl
@[simp] theorem classError_xferPos (c : StatusCode) (s : State) : (classError c s).xferPos = s.xferPos := rfl
@[simp] theorem classError_usbDevState (c : StatusCode) (s : State) : (classError c s).usbDevState = s.usbDevState := rfl
@[simp] theorem classError_usbAddr (c : StatusCode) (s : State) : (classError c s).usbAddr = s.usbAddr := rfl
@[simp] theorem classError_usbConfig (c : StatusCode) (s : State) : (classError c s).usbConfig = s.usbConfig := rfl
@[simp] theorem classError_stdOwn (c : StatusCode) (s : State) : (classError c s).stdOwn = s.stdOwn := rfl
@[simp] theorem classError_vndOwn (c : StatusCode) (s : State) : (classError c s).vndOwn = s.vndOwn := rfl
@[simp] theorem classError_dfuState (c : StatusCode) (s : State) : (classError c s).dfuState = .error := rfl
@[simp] theorem classError_dfuStatusCode (c : StatusCode) (s : State) : (classError c s).dfuStatusCode = c := rfl
@[simp] theorem classError_addrPtr (c : StatusCode) (s : State) : (classError c s).addrPtr = s.addrPtr := rfl
@[simp] theorem classError_pending (c : StatusCode) (s : State) : (classError c s).pending = s.pending := rfl
@[simp] theorem classError_flash (c : StatusCode) (s : State) : (classError c s).flash = s.flash := rfl

@[simp] theorem clearClassError_cfg (s : State) : (clearClassError s).cfg = s.cfg := rfl
@[simp] theorem clearClassError_events (s : State) : (clearClassError s).events = s.events := rfl
@[simp] theorem clearClassError_trace (s : State) : (clearClassError s).trace = s.trace := rfl
@[simp] theorem clearClassError_cts (s : State) : (clearClassError s).cts = s.cts := rfl
@[simp] theorem clearClassError_setupReq (s : State) : (clearClassError s).setupReq = s.setupReq := rfl
@[simp] theorem clearClassError_pendOut (s : State) : (clearClassError s).pendOut = s.pendOut := rfl
@[simp] theorem clearClassError_xferData (s : State) : (clearClassError s).xferData = s.xferData := rfl
@[simp] theorem clearClassError_xferLen (s : State) : (clearClassError s).xferLen = s.xferLen := rfl
@[simp] theorem clearClassError_xferPos (s : State) : (clearClassError s).xferPos = s.xferPos := rfl
@[simp] theorem clearClassError_usbDevState (s : State) : (clearClassError s).usbDevState = s.usbDevState := rfl
@[simp] theorem clearClassError_usbAddr (s : State) : (clearClassError s).usbAddr = s.usbAddr := rfl
@[simp] theorem clearClassError_usbConfig (s : State) : (clearClassError s).usbConfig = s.usbConfig := rfl
@[simp] theorem clearClassError_stdOwn (s : State) : (clearClassError s).stdOwn = s.stdOwn := rfl
@[simp] theorem clearClassError_vndOwn (s : State) : (clearClassError s).vndOwn = s.vndOwn := rfl
@[simp] theorem clearClassError_dfuState (s : State) : (clearClassError s).dfuState = .idle := rfl
@[simp] theorem clearClassError_dfuStatusCode (s : State) : (clearClassError s).dfuStatusCode = .ok := rfl
@[simp] theorem clearClassError_addrPtr (s : State) : (clearClassError s).addrPtr = basePointer s.cfg := rfl
@[simp] theorem clearClassError_pending (s : State) : (clearClassError s).pending = .noWork := rfl
@[simp] theorem clearClassError_flash (s : State) : (clearClassError s).flash = s.flash := rfl

@[simp] theorem callIsErased_cfg (a wc : Nat) (s : State) : ((callIsErased a wc s).2).cfg = s.cfg := rfl
@[simp] theorem callIsErased_events (a wc : Nat) (s : State) : ((callIsErased a wc s).2).events = s.events := rfl
@[simp] theorem callIsErased_trace (a wc : Nat) (s : State) : ((callIsErased a wc s).2).trace = s.trace ++ [.erasedQ a wc (fpIsErased s.cfg s.flash a wc)] := rfl
@[simp] theorem callIsErased_cts (a wc : Nat) (s : State) : ((callIsErased a wc s).2).cts = s.cts := rfl
@[simp] theorem callIsErased_setupReq (a wc : Nat) (s : State) : ((callIsErased a wc s).2).setupReq = s.setupReq := rfl
@[simp] theorem callIsErased_pendOut (a wc : Nat) (s : State) : ((callIsErased a wc s).2).pendOut = s.pendOut := rfl
@[simp] theorem callIsErased_xferData (a wc : Nat) (s : State) : ((callIsErased a wc s).2).xferData = s.xferData := rfl
@[simp] theorem callIsErased_xferLen (a wc : Nat) (s : State) : ((callIsErased a wc s).2).xferLen = s.xferLen := rfl
@[simp] theorem callIsErased_xferPos (a wc : Nat) (s : State) : ((callIsErased a wc s).2).xferPos = s.xferPos := rfl
@[simp] theorem callIsErased_usbDevState (a wc : Nat) (s : State) : ((callIsErased a wc s).2).usbDevState = s.usbDevState := rfl
@[simp] theorem callIsErased_usbAddr (a wc : Nat) (s : State) : ((callIsErased a wc s).2).usbAddr = s.usbAddr := rfl
@[simp] theorem callIsErased_usbConfig (a wc : Nat) (s : State) : ((callIsErased a wc s).2).usbConfig = s.usbConfig := rfl
@[simp] theorem callIsErased_stdOwn (a wc : Nat) (s : State) : ((callIsErased a wc s).2).stdOwn = s.stdOwn := rfl
@[simp] theorem callIsErased_vndOwn (a wc : Nat) (s : State) : ((callIsErased a wc s).2).vndOwn = s.vndOwn := rfl
@[simp] theorem callIsErased_dfuState (a wc : Nat) (s : State) : ((callIsErased a wc s).2).dfuState = s.dfuState := rfl
@[simp] theorem callIsErased_dfuStatusCode (a wc : Nat) (s : State) : ((callIsErased a wc s).2).dfuStatusCode = s.dfuStatusCode := rfl
@[simp] theorem callIsErased_addrPtr (a wc : Nat) (s : State) : ((callIsErased a wc s).2).addrPtr = s.addrPtr := rfl
@[simp] theorem callIsErased_pending (a wc : Nat) (s : State) : ((callIsErased a wc s).2).pending = s.pending := rfl
@[simp] theorem callIsErased_flash (a wc : Nat) (s : State) : ((callIsErased a wc s).2).flash = s.flash := rfl

@[simp] theorem callErasePage_cfg (a : Nat) (s : State) : (callErasePage a s).cfg = s.cfg := rfl
@[simp] theorem callErasePage_events (a : Nat) (s : State) : (callErasePage a s).events = s.events := rfl
@[simp] theorem callErasePage_trace (a : Nat) (s : State) : (callErasePage a s).trace = s.trace ++ [.erase a] := rfl
@[simp] theorem callErasePage_cts (a : Nat) (s : State) : (callErasePage a s).cts = s.cts := rfl
@[simp] theorem callErasePage_setupReq (a : Nat) (s : State) : (callErasePage a s).setupReq = s.setupReq := rfl
@[simp] theorem callErasePage_pendOut (a : Nat) (s : State) : (callErasePage a s).pendOut = s.pendOut := rfl
@[simp] theorem callErasePage_xferData (a : Nat) (s : State) : (callErasePage a s).xferData = s.xferData := rfl
@[simp] theorem callErasePage_xferLen (a : Nat) (s : State) : (callErasePage a s).xferLen = s.xferLen := rfl
@[simp] theorem callErasePage_xferPos (a : Nat) (s : State) : (callErasePage a s).xferPos = s.xferPos := rfl
@[simp] theorem callErasePage_usbDevState (a : Nat) (s : State) : (callErasePage a s).usbDevState = s.usbDevState := rfl
@[simp] theorem callErasePage_usbAddr (a : Nat) (s : State) : (callErasePage a s).usbAddr = s.usbAddr := rfl
@[simp] theorem callErasePage_usbConfig (a : Nat) (s : State) : (callErasePage a s).usbConfig = s.usbConfig := rfl
@[simp] theorem callErasePage_stdOwn (a : Nat) (s : State) : (callErasePage a s).stdOwn = s.stdOwn := rfl
@[simp] theorem callErasePage_vndOwn (a : Nat) (s : State) : (callErasePage a s).vndOwn = s.vndOwn := rfl
@[simp] theorem callErasePage_dfuState (a : Nat) (s : State) : (callErasePage a s).dfuState = s.dfuState := rfl
@[simp] theorem callErasePage_dfuStatusCode (a : Nat) (s : State) : (callErasePage a s).dfuStatusCode = s.dfuStatusCode := rfl
@[simp] theorem callErasePage_addrPtr (a : Nat) (s : State) : (callErasePage a s).addrPtr = s.addrPtr := rfl
@[simp] theorem callErasePage_pending (a : Nat) (s : State) : (callErasePage a s).pending = s.pending := rfl
@[simp] theorem callErasePage_flash (a : Nat) (s : State) : (callErasePage a s).flash = fpErasePage s.cfg s.flash a := rfl

@[simp] theorem callProgram_cfg (a : Nat) (bytes : List Byte) (s : State) : (callProgram a bytes s).cfg = s.cfg := rfl
@[simp] theorem callProgram_events (a : Nat) (bytes : List Byte) (s : State) : (callProgram a bytes s).events = s.events := rfl
@[simp] theorem callProgram_trace (a : Nat) (bytes : List Byte) (s : State) : (callProgram a bytes s).trace = s.trace ++ [.prog a bytes] := rfl
@[simp] theorem callProgram_cts (a : Nat) (bytes : List Byte) (s : State) : (callProgram a bytes s).cts = s.cts := rfl
@[simp] theorem callProgram_setupReq (a : Nat) (bytes : List Byte) (s : State) : (callProgram a bytes s).setupReq = s.setupReq := rfl
@[simp] theorem callProgram_pendOut (a : Nat) (bytes : List Byte) (s : State) : (callProgram a bytes s).pendOut = s.pendOut := rfl
@[simp] theorem callProgram_xferData (a : Nat) (bytes : List Byte) (s : State) : (callProgram a bytes s).xferData = s.xferData := rfl
@[simp] theorem callProgram_xferLen (a : Nat) (bytes : List Byte) (s : State) : (callProgram a bytes s).xferLen = s.xferLen := rfl
@[simp] theorem callProgram_xferPos (a : Nat) (bytes : List Byte) (s : State) : (callProgram a bytes s).xferPos = s.xferPos := rfl
@[simp] theorem callProgram_usbDevState (a : Nat) (bytes : List Byte) (s : State) : (callProgram a bytes s).usbDevState = s.usbDevState := rfl
@[simp] theorem callProgram_usbAddr (a : Nat) (bytes : List Byte) (s : State) : (callProgram a bytes s).usbAddr = s.usbAddr := rfl
@[simp] theorem callProgram_usbConfig (a : Nat) (bytes : List Byte) (s : State) : (callProgram a bytes s).usbConfig = s.usbConfig := rfl
@[simp] theorem callProgram_stdOwn (a : Nat) (bytes : List Byte) (s : State) : (callProgram a bytes s).stdOwn = s.stdOwn := rfl
@[simp] theorem callProgram_vndOwn (a : Nat) (bytes : List Byte) (s : State) : (callProgram a bytes s).vndOwn = s.vndOwn := rfl
@[simp] theorem callProgram_dfuState (a : Nat) (bytes : List Byte) (s : State) : (callProgram a bytes s).dfuState = s.dfuState := rfl
@[simp] theorem callProgram_dfuStatusCode (a : Nat) (bytes : List Byte) (s : State) : (callProgram a bytes s).dfuStatusCode = s.dfuStatusCode := rfl
@[simp] theorem callProgram_addrPtr (a : Nat) (bytes : List Byte) (s : State) : (callProgram a bytes s).addrPtr = s.addrPtr := rfl
@[simp] theorem callProgram_pending (a : Nat) (bytes : List Byte) (s : State) : (callProgram a bytes s).pending = s.pending := rfl
@[simp] theorem callProgram_flash (a : Nat) (bytes : List Byte) (s : State) : (callProgram a bytes s).flash = fpProgram s.cfg s.flash a bytes := rfl

@[simp] theorem setAddress_cfg (r : SetupRequest) (s : State) : (setAddress r s).cfg = s.cfg := rfl
@[simp] theorem setAddress_events (r : SetupRequest) (s : State) : (setAddress r s).events = s.events := rfl
@[simp] theorem setAddress_trace (r : SetupRequest) (s : State) : (setAddress r s).trace = s.trace ++ [.addr (r.value.setWidth 8)] := rfl
@[simp] theorem setAddress_cts (r : SetupRequest) (s : State) : (setAddress r s).cts = s.cts := rfl
@[simp] theorem setAddress_setupReq (r : SetupRequest) (s : State) : (setAddress r s).setupReq = s.setupReq := rfl
@[simp] theorem setAddress_pendOut (r : SetupRequest) (s : State) : (setAddress r s).pendOut = s.pendOut := rfl
@[simp] theorem setAddress_xferData (r : SetupRequest) (s : State) : (setAddress r s).xferData = s.xferData := rfl
@[simp] theorem setAddress_xferLen (r : SetupRequest) (s : State) : (setAddress r s).xferLen = s.xferLen := rfl
@[simp] theorem setAddress_xferPos (r : SetupRequest) (s : State) : (setAddress r s).xferPos = s.xferPos := rfl
@[simp] theorem setAddress_usbDevState (r : SetupRequest) (s : State) : (setAddress r s).usbDevState = if r.value.toNat = 0 then .default else .address := rfl
@[simp] theorem setAddress_usbAddr (r : SetupRequest) (s : State) : (setAddress r s).usbAddr = r.value.setWidth 8 := rfl
@[simp] theorem setAddress_usbConfig (r : SetupRequest) (s : State) : (setAddress r s).usbConfig = s.usbConfig := rfl
@[simp] theorem setAddress_stdOwn (r : SetupRequest) (s : State) : (setAddress r s).stdOwn = s.stdOwn := rfl
@[simp] theorem setAddress_vndOwn (r : SetupRequest) (s : State) : (setAddress r s).vndOwn = s.vndOwn := rfl
@[simp] theorem setAddress_dfuState (r : SetupRequest) (s : State) : (setAddress r s).dfuState = s.dfuState := rfl
@[simp] theorem setAddress_dfuStatusCode (r : SetupRequest) (s : State) : (setAddress r s).dfuStatusCode = s.dfuStatusCode := rfl
@[simp] theorem setAddress_addrPtr (r : SetupRequest) (s : State) : (setAddress r s).addrPtr = s.addrPtr := rfl
@[simp] theorem setAddress_pending (r : SetupRequest) (s : State) : (setAddress r s).pending = s.pending := rfl
@[simp] theorem setAddress_flash (r : SetupRequest) (s : State) : (setAddress r s).flash = s.flash := rfl

@[simp] theorem setConfiguration_cfg (r : SetupRequest) (s : State) : (setConfiguration r s).cfg = s.cfg := rfl
@[simp] theorem setConfiguration_events (r : SetupRequest) (s : State) : (setConfiguration r s).events = s.events := rfl
@[simp] theorem setConfiguration_trace (r : SetupRequest) (s : State) : (setConfiguration r s).trace = s.trace := rfl
@[simp] theorem setConfiguration_cts (r : SetupRequest) (s : State) : (setConfiguration r s).cts = s.cts := rfl
@[simp] theorem setConfiguration_setupReq (r : SetupRequest) (s : State) : (setConfiguration r s).setupReq = s.setupReq := rfl
@[simp] theorem setConfiguration_pendOut (r : SetupRequest) (s : State) : (setConfiguration r s).pendOut = s.pendOut := rfl
@[simp] theorem setConfiguration_xferData (r : SetupRequest) (s : State) : (setConfiguration r s).xferData = s.xferData := rfl
@[simp] theorem setConfiguration_xferLen (r : SetupRequest) (s : State) : (setConfiguration r s).xferLen = s.xferLen := rfl
@[simp] theorem setConfiguration_xferPos (r : SetupRequest) (s : State) : (setConfiguration r s).xferPos = s.xferPos := rfl
@[simp] theorem setConfiguration_usbDevState (r : SetupRequest) (s : State) : (setConfiguration r s).usbDevState = if r.value.extractLsb' 0 8 = 1 then .configured else .address := rfl
@[simp] theorem setConfiguration_usbAddr (r : SetupRequest) (s : State) : (setConfiguration r s).usbAddr = s.usbAddr := rfl
@[simp] theorem setConfiguration_usbConfig (r : SetupRequest) (s : State) : (setConfiguration r s).usbConfig = r.value.extractLsb' 0 8 := rfl
@[simp] theorem setConfiguration_stdOwn (r : SetupRequest) (s : State) : (setConfiguration r s).stdOwn = s.stdOwn := rfl
@[simp] theorem setConfiguration_vndOwn (r : SetupRequest) (s : State) : (setConfiguration r s).vndOwn = s.vndOwn := rfl
@[simp] theorem setConfiguration_dfuState (r : SetupRequest) (s : State) : (setConfiguration r s).dfuState = s.dfuState := rfl
@[simp] theorem setConfiguration_dfuStatusCode (r : SetupRequest) (s : State) : (setConfiguration r s).dfuStatusCode = s.dfuStatusCode := rfl
@[simp] theorem setConfiguration_addrPtr (r : SetupRequest) (s : State) : (setConfiguration r s).addrPtr = s.addrPtr := rfl
@[simp] theorem setConfiguration_pending (r : SetupRequest) (s : State) : (setConfiguration r s).pending = s.pending := rfl
@[simp] theorem setConfiguration_flash (r : SetupRequest) (s : State) : (setConfiguration r s).flash = s.flash := rfl

@[simp] theorem abortSet_cfg (s : State) : (abortSet s).cfg = s.cfg := rfl
@[simp] theorem abortSet_events (s : State) : (abortSet s).events = s.events := rfl
@[simp] theorem abortSet_trace (s : State) : (abortSet s).trace = s.trace := rfl
@[simp] theorem abortSet_cts (s : State) : (abortSet s).cts = s.cts := rfl
@[simp] theorem abortSet_setupReq (s : State) : (abortSet s).setupReq = s.setupReq := rfl
@[simp] theorem abortSet_pendOut (s : State) : (abortSet s).pendOut = s.pendOut := rfl
@[simp] theorem abortSet_xferData (s : State) : (abortSet s).xferData = s.xferData := rfl
@[simp] theorem abortSet_xferLen (s : State) : (abortSet s).xferLen = s.xferLen := rfl
@[simp] theorem abortSet_xferPos (s : State) : (abortSet s).xferPos = s.xferPos := rfl
@[simp] theorem abortSet_usbDevState (s : State) : (abortSet s).usbDevState = s.usbDevState := rfl
@[simp] theorem abortSet_usbAddr (s : State) : (abortSet s).usbAddr = s.usbAddr := rfl
@[simp] theorem abortSet_usbConfig (s : State) : (abortSet s).usbConfig = s.usbConfig := rfl
@[simp] theorem abortSet_stdOwn (s : State) : (abortSet s).stdOwn = s.stdOwn := rfl
@[simp] theorem abortSet_vndOwn (s : State) : (abortSet s).vndOwn = s.vndOwn := rfl
@[simp] theorem abortSet_dfuState (s : State) : (abortSet s).dfuState = .idle := rfl
@[simp] theorem abortSet_dfuStatusCode (s : State) : (abortSet s).dfuStatusCode = s.dfuStatusCode := rfl
@[simp] theorem abortSet_addrPtr (s : State) : (abortSet s).addrPtr = basePointer s.cfg := rfl
@[simp] theorem abortSet_pending (s : State) : (abortSet s).pending = .noWork := rfl
@[simp] theorem abortSet_flash (s : State) : (abortSet s).flash = s.flash := rfl

@[simp] theorem classReset_cfg (s : State) : (classReset s).cfg = s.cfg := rfl
@[simp] theorem classReset_events (s : State) : (classReset s).events = s.events := rfl
@[simp] theorem classReset_trace (s : State) : (classReset s).trace = s.trace := rfl
@[simp] theorem classReset_cts (s : State) : (classReset s).cts = s.cts := rfl
@[simp] theorem classReset_setupReq (s : State) : (classReset s).setupReq = s.setupReq := rfl
@[simp] theorem classReset_pendOut (s : State) : (classReset s).pendOut = s.pendOut := rfl
@[simp] theorem classReset_xferData (s : State) : (classReset s).xferData = s.xferData := rfl
@[simp] theorem classReset_xferLen (s : State) : (classReset s).xferLen = s.xferLen := rfl
@[simp] theorem classReset_xferPos (s : State) : (classReset s).xferPos = s.xferPos := rfl
@[simp] theorem classReset_usbDevState (s : State) : (classReset s).usbDevState = s.usbDevState := rfl
@[simp] theorem classReset_usbAddr (s : State) : (classReset s).usbAddr = s.usbAddr := rfl
@[simp] theorem classReset_usbConfig (s : State) : (classReset s).usbConfig = s.usbConfig := rfl
@[simp] theorem classReset_stdOwn (s : State) : (classReset s).stdOwn = s.stdOwn := rfl
@[simp] theorem classReset_vndOwn (s : State) : (classReset s).vndOwn = s.vndOwn := rfl
@[simp] theorem classReset_dfuState (s : State) : (classReset s).dfuState = .idle := rfl
@[simp] theorem classReset_dfuStatusCode (s : State) : (classReset s).dfuStatusCode = .ok := rfl
@[simp] theorem classReset_addrPtr (s : State) : (classReset s).addrPtr = basePointer s.cfg := rfl
@[simp] theorem classReset_pending (s : State) : (classReset s).pending = .noWork := rfl
@[simp] theorem classReset_flash (s : State) : (classReset s).flash = s.flash := rfl

@[simp] theorem storePacket_cfg (p : List Byte) (s : State) : (storePacket p s).cfg = s.cfg := rfl
@[simp] theorem storePacket_events (p : List Byte) (s : State) : (storePacket p s).events = s.events := rfl
@[simp] theorem storePacket_trace (p : List Byte) (s : State) : (storePacket p s).trace = s.trace := rfl
@[simp] theorem storePacket_cts (p : List Byte) (s : State) : (storePacket p s).cts = s.cts := rfl
@[simp] theorem storePacket_setupReq (p : List Byte) (s : State) : (storePacket p s).setupReq = s.setupReq := rfl
@[simp] theorem storePacket_pendOut (p : List Byte) (s : State) : (storePacket p s).pendOut = s.pendOut := rfl
@[simp] theorem storePacket_xferData (p : List Byte) (s : State) : (storePacket p s).xferData = s.xferData.take s.xferPos ++ p := rfl
@[simp] theorem storePacket_xferLen (p : List Byte) (s : State) : (storePacket p s).xferLen = s.xferLen := rfl
@[simp] theorem storePacket_xferPos (p : List Byte) (s : State) : (storePacket p s).xferPos = s.xferPos + p.length := rfl
@[simp] theorem storePacket_usbDevState (p : List Byte) (s : State) : (storePacket p s).usbDevState = s.usbDevState := rfl
@[simp] theorem storePacket_usbAddr (p : List Byte) (s : State) : (storePacket p s).usbAddr = s.usbAddr := rfl
@[simp] theorem storePacket_usbConfig (p : List Byte) (s : State) : (storePacket p s).usbConfig = s.usbConfig := rfl
@[simp] theorem storePacket_stdOwn (p : List Byte) (s : State) : (storePacket p s).stdOwn = s.stdOwn := rfl
@[simp] theorem storePacket_vndOwn (p : List Byte) (s : State) : (storePacket p s).vndOwn = s.vndOwn := rfl
@[simp] theorem storePacket_dfuState (p : List Byte) (s : State) : (storePacket p s).dfuState = s.dfuState := rfl
@[simp] theorem storePacket_dfuStatusCode (p : List Byte) (s : State) : (storePacket p s).dfuStatusCode = s.dfuStatusCode := rfl
@[simp] theorem storePacket_addrPtr (p : List Byte) (s : State) : (storePacket p s).addrPtr = s.addrPtr := rfl
@[simp] theorem storePacket_pending (p : List Byte) (s : State) : (storePacket p s).pending = s.pending := rfl
@[simp] theorem storePacket_flash (p : List Byte) (s : State) : (storePacket p s).flash = s.flash := rfl

@[simp] theorem captureBlock_cfg (r : SetupRequest) (data : List Byte) (a : Nat) (s : State) : (captureBlock r data a s).cfg = s.cfg := rfl
@[simp] theorem captureBlock_events (r : SetupRequest) (data : List Byte) (a : Nat) (s : State) : (captureBlock r data a s).events = s.events := rfl
@[simp] theorem captureBlock_trace (r : SetupRequest) (data : List Byte) (a : Nat) (s : State) : (captureBlock r data a s).trace = s.trace := rfl
@[simp] theorem captureBlock_cts (r : SetupRequest) (data : List Byte) (a : Nat) (s : State) : (captureBlock r data a s).cts = s.cts := rfl
@[simp] theorem captureBlock_setupReq (r : SetupRequest) (data : List Byte) (a : Nat) (s : State) : (captureBlock r data a s).setupReq = s.setupReq := rfl
@[simp] theorem captureBlock_pendOut (r : SetupRequest) (data : List Byte) (a : Nat) (s : State) : (captureBlock r data a s).pendOut = s.pendOut := rfl
@[simp] theorem captureBlock_xferData (r : SetupRequest) (data : List Byte) (a : Nat) (s : State) : (captureBlock r data a s).xferData = s.xferData := rfl
@[simp] theorem captureBlock_xferLen (r : SetupRequest) (data : List Byte) (a : Nat) (s : State) : (captureBlock r data a s).xferLen = s.xferLen := rfl
@[simp] theorem captureBlock_xferPos (r : SetupRequest) (data : List Byte) (a : Nat) (s : State) : (captureBlock r data a s).xferPos = s.xferPos := rfl
@[simp] theorem captureBlock_usbDevState (r : SetupRequest) (data : List Byte) (a : Nat) (s : State) : (captureBlock r data a s).usbDevState = s.usbDevState := rfl
@[simp] theorem captureBlock_usbAddr (r : SetupRequest) (data : List Byte) (a : Nat) (s : State) : (captureBlock r data a s).usbAddr = s.usbAddr := rfl
@[simp] theorem captureBlock_usbConfig (r : SetupRequest) (data : List Byte) (a : Nat) (s : State) : (captureBlock r data a s).usbConfig = s.usbConfig := rfl
@[simp] theorem captureBlock_stdOwn (r : SetupRequest) (data : List Byte) (a : Nat) (s : State) : (captureBlock r data a s).stdOwn = s.stdOwn := rfl
@[simp] theorem captureBlock_vndOwn (r : SetupRequest) (data : List Byte) (a : Nat) (s : State) : (captureBlock r data a s).vndOwn = s.vndOwn := rfl
@[simp] theorem captureBlock_dfuState (r : SetupRequest) (data : List Byte) (a : Nat) (s : State) : (captureBlock r data a s).dfuState = .dnloadSync := rfl
@[simp] theorem captureBlock_dfuStatusCode (r : SetupRequest) (data : List Byte) (a : Nat) (s : State) : (captureBlock r data a s).dfuStatusCode = s.dfuStatusCode := rfl
@[simp] theorem captureBlock_addrPtr (r : SetupRequest) (data : List Byte) (a : Nat) (s : State) : (captureBlock r data a s).addrPtr = s.addrPtr := rfl
@[simp] theorem captureBlock_pending (r : SetupRequest) (data : List Byte) (a : Nat) (s : State) : (captureBlock r data a s).pending = .block { blockNum := r.value, length := r.length, data := data.take r.length.toNat, target := a } := rfl
@[simp] theorem captureBlock_flash (r : SetupRequest) (data : List Byte) (a : Nat) (s : State) : (captureBlock r data a s).flash = s.flash := rfl

@[simp] theorem startRead_cfg (buf : List Byte) (n : Nat) (s : State) : (startRead buf n s).cfg = s.cfg := by
  unfold startRead; dsimp only; split <;> rfl
@[simp] theorem startRead_events (buf : List Byte) (n : Nat) (s : State) : (startRead buf n s).events = s.events := by
  unfold startRead; dsimp only; split <;> rfl
@[simp] theorem startRead_setupReq (buf : List Byte) (n : Nat) (s : State) : (startRead buf n s).setupReq = s.setupReq := by
  unfold startRead; dsimp only; split <;> rfl
@[simp] theorem startRead_pendOut (buf : List Byte) (n : Nat) (s : State) : (startRead buf n s).pendOut = s.pendOut := by
  unfold startRead; dsimp only; split <;> rfl
@[simp] theorem startRead_xferData (buf : List Byte) (n : Nat) (s : State) : (startRead buf n s).xferData = buf.take (min buf.length n) := by
  unfold startRead; dsimp only; split <;> rfl
@[simp] theorem startRead_xferLen (buf : List Byte) (n : Nat) (s : State) : (startRead buf n s).xferLen = min buf.length n := by
  unfold startRead; dsimp only; split <;> rfl
@[simp] theorem startRead_usbDevState (buf : List Byte) (n : Nat) (s : State) : (startRead buf n s).usbDevState = s.usbDevState := by
  unfold startRead; dsimp only; split <;> rfl
@[simp] theorem startRead_usbAddr (buf : List Byte) (n : Nat) (s : State) : (startRead buf n s).usbAddr = s.usbAddr := by
  unfold startRead; dsimp only; split <;> rfl
@[simp] theorem startRead_usbConfig (buf : List Byte) (n : Nat) (s : State) : (startRead buf n s).usbConfig = s.usbConfig := by
  unfold startRead; dsimp only; split <;> rfl
@[simp] theorem startRead_stdOwn (buf : List Byte) (n : Nat) (s : State) : (startRead buf n s).stdOwn = s.stdOwn := by
  unfold startRead; dsimp only; split <;> rfl
@[simp] theorem startRead_vndOwn (buf : List Byte) (n : Nat) (s : State) : (startRead buf n s).vndOwn = s.vndOwn := by
  unfold startRead; dsimp only; split <;> rfl
@[simp] theorem startRead_dfuState (buf : List Byte) (n : Nat) (s : State) : (startRead buf n s).dfuState = s.dfuState := by
  unfold startRead; dsimp only; split <;> rfl
@[simp] theorem startRead_dfuStatusCode (buf : List Byte) (n : Nat) (s : State) : (startRead buf n s).dfuStatusCode = s.dfuStatusCode := by
  unfold startRead; dsimp only; split <;> rfl
@[simp] theorem startRead_addrPtr (buf : List Byte) (n : Nat) (s : State) : (startRead buf n s).addrPtr = s.addrPtr := by
  unfold startRead; dsimp only; split <;> rfl
@[simp] theorem startRead_pending (buf : List Byte) (n : Nat) (s : State) : (startRead buf n s).pending = s.pending := by
  unfold startRead; dsimp only; split <;> rfl
@[simp] theorem startRead_flash (buf : List Byte) (n : Nat) (s : State) : (startRead buf n s).flash = s.flash := by
  unfold startRead; dsimp only; split <;> rfl

@[simp] theorem startWrite_cfg (r : SetupRequest) (s : State) : (startWrite r s).cfg = s.cfg := by
  unfold startWrite; repeat' split
  all_goals rfl
@[simp] theorem startWrite_events (r : SetupRequest) (s : State) : (startWrite r s).events = s.events := by
  unfold startWrite; repeat' split
  all_goals rfl
@[simp] theorem startWrite_setupReq (r : SetupRequest) (s : State) : (startWrite r s).setupReq = s.setupReq := by
  unfold startWrite; repeat' split
  all_goals rfl
@[simp] theorem startWrite_usbDevState (r : SetupRequest) (s : State) : (startWrite r s).usbDevState = s.usbDevState := by
  unfold startWrite; repeat' split
  all_goals rfl
@[simp] theorem startWrite_usbAddr (r : SetupRequest) (s : State) : (startWrite r s).usbAddr = s.usbAddr := by
  unfold startWrite; repeat' split
  all_goals rfl
@[simp] theorem startWrite_usbConfig (r : SetupRequest) (s : State) : (startWrite r s).usbConfig = s.usbConfig := by
  unfold startWrite; repeat' split
  all_goals rfl
@[simp] theorem startWrite_stdOwn (r : SetupRequest) (s : State) : (startWrite r s).stdOwn = s.stdOwn := by
  unfold startWrite; repeat' split
  all_goals rfl
@[simp] theorem startWrite_vndOwn (r : SetupRequest) (s : State) : (startWrite r s).vndOwn = s.vndOwn := by
  unfold startWrite; repeat' split
  all_goals rfl
@[simp] theorem startWrite_dfuState (r : SetupRequest) (s : State) : (startWrite r s).dfuState = s.dfuState := by
  unfold startWrite; repeat' split
  all_goals rfl
@[simp] theorem startWrite_dfuStatusCode (r : SetupRequest) (s : State) : (startWrite r s).dfuStatusCode = s.dfuStatusCode := by
  unfold startWrite; repeat' split
  all_goals rfl
@[simp] theorem startWrite_addrPtr (r : SetupRequest) (s : State) : (startWrite r s).addrPtr = s.addrPtr := by
  unfold startWrite; repeat' split
  all_goals rfl
@[simp] theorem startWrite_pending (r : SetupRequest) (s : State) : (startWrite r s).pending = s.pending := by
  unfold startWrite; repeat' split
  all_goals rfl
@[simp] theorem startWrite_flash (r : SetupRequest) (s : State) : (startWrite r s).flash = s.flash := by
  unfold startWrite; repeat' split
  all_goals rfl

@[simp] theorem completeWrite_cfg (ok : Bool) (s : State) : (completeWrite ok s).cfg = s.cfg := by cases ok <;> rfl
@[simp] theorem completeWrite_events (ok : Bool) (s : State) : (completeWrite ok s).events = s.events := by cases ok <;> rfl
@[simp] theorem completeWrite_trace (ok : Bool) (s : State) : (completeWrite ok s).trace = if ok then s.trace else s.trace ++ [.stall] := by cases ok <;> rfl
@[simp] theorem completeWrite_cts (ok : Bool) (s : State) : (completeWrite ok s).cts = .stalled := by cases ok <;> rfl
@[simp] theorem completeWrite_setupReq (ok : Bool) (s : State) : (completeWrite ok s).setupReq = s.setupReq := by cases ok <;> rfl
@[simp] theorem completeWrite_pendOut (ok : Bool) (s : State) : (completeWrite ok s).pendOut = none := by cases ok <;> rfl
@[simp] theorem completeWrite_xferData (ok : Bool) (s : State) : (completeWrite ok s).xferData = [] := by cases ok <;> rfl
@[simp] theorem completeWrite_xferLen (ok : Bool) (s : State) : (completeWrite ok s).xferLen = 0 := by cases ok <;> rfl
@[simp] theorem completeWrite_xferPos (ok : Bool) (s : State) : (completeWrite ok s).xferPos = 0 := by cases ok <;> rfl
@[simp] theorem completeWrite_usbDevState (ok : Bool) (s : State) : (completeWrite ok s).usbDevState = s.usbDevState := by cases ok <;> rfl
@[simp] theorem completeWrite_usbAddr (ok : Bool) (s : State) : (completeWrite ok s).usbAddr = s.usbAddr := by cases ok <;> rfl
@[simp] theorem completeWrite_usbConfig (ok : Bool) (s : State) : (completeWrite ok s).usbConfig = s.usbConfig := by cases ok <;> rfl
@[simp] theorem completeWrite_stdOwn (ok : Bool) (s : State) : (completeWrite ok s).stdOwn = s.stdOwn := by cases ok <;> rfl
@[simp] theorem completeWrite_vndOwn (ok : Bool) (s : State) : (completeWrite ok s).vndOwn = s.vndOwn := by cases ok <;> rfl
@[simp] theorem completeWrite_dfuState (ok : Bool) (s : State) : (completeWrite ok s).dfuState = s.dfuState := by cases ok <;> rfl
@[simp] theorem completeWrite_dfuStatusCode (ok : Bool) (s : State) : (completeWrite ok s).dfuStatusCode = s.dfuStatusCode := by cases ok <;> rfl
@[simp] theorem completeWrite_addrPtr (ok : Bool) (s : State) : (completeWrite ok s).addrPtr = s.addrPtr := by cases ok <;> rfl
@[simp] theorem completeWrite_pending (ok : Bool) (s : State) : (completeWrite ok s).pending = s.pending := by cases ok <;> rfl
@[simp] theorem completeWrite_flash (ok : Bool) (s : State) : (completeWrite ok s).flash = s.flash := by cases ok <;> rfl

@[simp] theorem advanceAfterBlock_cfg (s : State) : (advanceAfterBlock s).cfg = s.cfg := by
  unfold advanceAfterBlock; split <;> rfl
@[simp] theorem advanceAfterBlock_events (s : State) : (advanceAfterBlock s).events = s.events := by
  unfold advanceAfterBlock; split <;> rfl
@[simp] theorem advanceAfterBlock_trace (s : State) : (advanceAfterBlock s).trace = s.trace := by
  unfold advanceAfterBlock; split <;> rfl
@[simp] theorem advanceAfterBlock_cts (s : State) : (advanceAfterBlock s).cts = s.cts := by
  unfold advanceAfterBlock; split <;> rfl
@[simp] theorem advanceAfterBlock_setupReq (s : State) : (advanceAfterBlock s).setupReq = s.setupReq := by
  unfold advanceAfterBlock; split <;> rfl
@[simp] theorem advanceAfterBlock_pendOut (s : State) : (advanceAfterBlock s).pendOut = s.pendOut := by
  unfold advanceAfterBlock; split <;> rfl
@[simp] theorem advanceAfterBlock_xferData (s : State) : (advanceAfterBlock s).xferData = s.xferData := by
  unfold advanceAfterBlock; split <;> rfl
@[simp] theorem advanceAfterBlock_xferLen (s : State) : (advanceAfterBlock s).xferLen = s.xferLen := by
  unfold advanceAfterBlock; split <;> rfl
@[simp] theorem advanceAfterBlock_xferPos (s : State) : (advanceAfterBlock s).xferPos = s.xferPos := by
  unfold advanceAfterBlock; split <;> rfl
@[simp] theorem advanceAfterBlock_usbDevState (s : State) : (advanceAfterBlock s).usbDevState = s.usbDevState := by
  unfold advanceAfterBlock; split <;> rfl
@[simp] theorem advanceAfterBlock_usbAddr (s : State) : (advanceAfterBlock s).usbAddr = s.usbAddr := by
  unfold advanceAfterBlock; split <;> rfl
@[simp] theorem advanceAfterBlock_usbConfig (s : State) : (advanceAfterBlock s).usbConfig = s.usbConfig := by
  unfold advanceAfterBlock; split <;> rfl
@[simp] theorem advanceAfterBlock_stdOwn (s : State) : (advanceAfterBlock s).stdOwn = s.stdOwn := by
  unfold advanceAfterBlock; split <;> rfl
@[simp] theorem advanceAfterBlock_vndOwn (s : State) : (advanceAfterBlock s).vndOwn = s.vndOwn := by
  unfold advanceAfterBlock; split <;> rfl
@[simp] theorem advanceAfterBlock_dfuState (s : State) : (advanceAfterBlock s).dfuState = .dnloadSync := by
  unfold advanceAfterBlock; split <;> rfl
@[simp] theorem advanceAfterBlock_dfuStatusCode (s : State) : (advanceAfterBlock s).dfuStatusCode = s.dfuStatusCode := by
  unfold advanceAfterBlock; split <;> rfl
@[simp] theorem advanceAfterBlock_pending (s : State) : (advanceAfterBlock s).pending = s.pending := by
  unfold advanceAfterBlock; split <;> rfl
@[simp] theorem advanceAfterBlock_flash (s : State) : (advanceAfterBlock s).flash = s.flash := by
  unfold advanceAfterBlock; split <;> rfl

@[simp] theorem endDownload_cfg (s : State) : (endDownload s).cfg = s.cfg := by
  unfold endDownload; split <;> rfl
@[simp] theorem endDownload_events (s : State) : (endDownload s).events = s.events := by
  unfold endDownload; split <;> rfl
@[simp] theorem endDownload_trace (s : State) : (endDownload s).trace = s.trace := by
  unfold endDownload; split <;> rfl
@[simp] theorem endDownload_cts (s : State) : (endDownload s).cts = s.cts := by
  unfold endDownload; split <;> rfl
@[simp] theorem endDownload_setupReq (s : State) : (endDownload s).setupReq = s.setupReq := by
  unfold endDownload; split <;> rfl
@[simp] theorem endDownload_pendOut (s : State) : (endDownload s).pendOut = s.pendOut := by
  unfold endDownload; split <;> rfl
@[simp] theorem endDownload_xferData (s : State) : (endDownload s).xferData = s.xferData := by
  unfold endDownload; split <;> rfl
@[simp] theorem endDownload_xferLen (s : State) : (endDownload s).xferLen = s.xferLen := by
  unfold endDownload; split <;> rfl
@[simp] theorem endDownload_xferPos (s : State) : (endDownload s).xferPos = s.xferPos := by
  unfold endDownload; split <;> rfl
@[simp] theorem endDownload_usbDevState (s : State) : (endDownload s).usbDevState = s.usbDevState := by
  unfold endDownload; split <;> rfl
@[simp] theorem endDownload_usbAddr (s : State) : (endDownload s).usbAddr = s.usbAddr := by
  unfold endDownload; split <;> rfl
@[simp] theorem endDownload_usbConfig (s : State) : (endDownload s).usbConfig = s.usbConfig := by
  unfold endDownload; split <;> rfl
@[simp] theorem endDownload_stdOwn (s : State) : (endDownload s).stdOwn = s.stdOwn := by
  unfold endDownload; split <;> rfl
@[simp] theorem endDownload_vndOwn (s : State) : (endDownload s).vndOwn = s.vndOwn := by
  unfold endDownload; split <;> rfl
@[simp] theorem endDownload_dfuStatusCode (s : State) : (endDownload s).dfuStatusCode = s.dfuStatusCode := by
  unfold endDownload; split <;> rfl
@[simp] theorem endDownload_addrPtr (s : State) : (endDownload s).addrPtr = s.addrPtr := by
  unfold endDownload; split <;> rfl
@[simp] theorem endDownload_flash (s : State) : (endDownload s).flash = s.flash := by
  unfold endDownload; split <;> rfl

/-! Reading flash through an operation that leaves it alone. -/

@[simp] theorem emit_flashByte (x : Action) (s : State) (a : Nat) : (emit x s).flashByte a = s.flashByte a := rfl
@[simp] theorem abandon_flashByte (s : State) (a : Nat) : (abandon s).flashByte a = s.flashByte a := rfl
@[simp] theorem fail_flashByte (s : State) (a : Nat) : (fail s).flashByte a = s.flashByte a := rfl
@[simp] theorem newTransfer_flashByte (r : SetupRequest) (s : State) (a : Nat) : (newTransfer r s).flashByte a = s.flashByte a := rfl
@[simp] theorem classError_flashByte (c : StatusCode) (s : State) (a : Nat) : (classError c s).flashByte a = s.flashByte a := rfl
@[simp] theorem callIsErased_flashByte (n wc : Nat) (s : State) (a : Nat) : ((callIsErased n wc s).2).flashByte a = s.flashByte a := rfl

@[simp] theorem startRead_xferPos (buf : List Byte) (n : Nat) (s : State) :
    (startRead buf n s).xferPos = min (min buf.length n) s.cfg.mps := rfl

theorem advanceAfterBlock_addrPtr (s : State) :
    (advanceAfterBlock s).addrPtr = if s.cfg.variant = .plainDfu then advancedPointer s else s.addrPtr := by
  unfold advanceAfterBlock; split <;> simp [*]

@[simp] theorem startRead_flashByte (buf : List Byte) (n : Nat) (s : State) (a : Nat) :
    (startRead buf n s).flashByte a = s.flashByte a := by simp [State.flashByte]

@[simp] theorem startWrite_flashByte (r : SetupRequest) (s : State) (a : Nat) :
    (startWrite r s).flashByte a = s.flashByte a := by simp [State.flashByte]

@[simp] theorem completeWrite_flashByte (ok : Bool) (s : State) (a : Nat) :
    (completeWrite ok s).flashByte a = s.flashByte a := by simp [State.flashByte]

end Sys2Proof.Laws
end

