-- ==== Sys2Proof/Laws/Ops.lean ====
section
/-! SUPPORT. What each shared operation can do, said once: stalls, violations, starting and finishing transfers, the rows that
are `SETUP` events, and the `IN` that executes a write. -/

namespace Sys2Proof.Laws

open Machine

/-! Groups of registers. -/

theorem sameFlash_of {s t : State} (hc : t.cfg = s.cfg) (hf : t.flash = s.flash) : SameFlash s t := by
  intro a; simp [State.flashByte, hc, hf]

theorem sameFlash_refl (s : State) : SameFlash s s := fun _ => rfl

theorem onlyEngineChanged_of {s t : State} (hi : SameInputs s t) (hd : SameDevice s t) (hc : SameClass s t)
    (hf : t.flash = s.flash) : OnlyEngineChanged s t := ⟨hi, hd, hc, sameFlash_of hi.cfg hf⟩

/-! Stalls (R134, R312) and the class exception (R204). -/

theorem fail_stalled {s u : State} (h : u.trace = s.trace) : Stalled s (fail u) :=
  ⟨⟨rfl, rfl, rfl, rfl, rfl⟩, by simp [h]⟩

theorem fail_onlyEngineChanged (s : State) : OnlyEngineChanged s (fail s) :=
  ⟨⟨rfl, rfl⟩, ⟨rfl, rfl, rfl, rfl, rfl⟩, ⟨rfl, rfl, rfl, rfl⟩, fun _ => rfl⟩

theorem rejected_newTransfer (r : SetupRequest) (s : State) : Rejected r s (fail (newTransfer r s)) :=
  ⟨⟨⟨rfl, rfl, rfl, rfl, rfl⟩, rfl⟩, rfl, ⟨⟨rfl, rfl⟩, ⟨rfl, rfl, rfl, rfl, rfl⟩, ⟨rfl, rfl, rfl, rfl⟩, fun _ => rfl⟩⟩

theorem violation_newTransfer (r : SetupRequest) (s : State) :
    Violation r s (fail (classError .errSTALLEDPKT (newTransfer r s))) :=
  ⟨⟨⟨rfl, rfl, rfl, rfl, rfl⟩, rfl⟩, rfl, rfl, rfl, rfl, rfl, ⟨rfl, rfl⟩, ⟨rfl, rfl, rfl, rfl, rfl⟩, fun _ => rfl⟩

/-! Starting a transfer (R133 steps 5 and 6). -/

theorem startRead_cts (buf : List Byte) (n : Nat) (s : State) :
    (startRead buf n s).cts = if min buf.length n ≤ s.cfg.mps then .lastDataIn else .dataIn := by
  unfold startRead
  dsimp only
  by_cases h : min buf.length n ≤ s.cfg.mps
  · rw [if_pos h, if_pos (by omega)]
  · rw [if_neg h, if_neg (by omega)]

theorem startRead_trace (buf : List Byte) (n : Nat) (s : State) :
    (startRead buf n s).trace = s.trace ++
      [if min (min buf.length n) s.cfg.mps = 0 then .zlp
       else .tx (buf.take (min (min buf.length n) s.cfg.mps))] := by
  unfold startRead
  dsimp only
  split <;> simp [emit, slice, List.take_take]

theorem readBegun_startRead {s u : State} {buf : List Byte} {n : Nat} {out : List Action} (hc : u.cfg = s.cfg)
    (hp : u.pendOut = none) (ht : u.trace = s.trace ++ out) : ReadBegun buf n out s (startRead buf n u) :=
  ⟨by simp [hp], by simp, by simp, by simp [hc], by rw [startRead_cts, hc], by rw [startRead_trace, hc, ht]⟩

theorem startWrite_oversized {r : SetupRequest} {s : State} (h : s.cfg.ctrlBufSize < r.length.toNat) :
    startWrite r s = fail s := by simp [startWrite, h]

theorem writeBegun_startWrite {r : SetupRequest} {s u : State} (hc : u.cfg = s.cfg) (hn : NoTransfer u)
    (ht : u.trace = s.trace) (hl : r.length.toNat ≤ s.cfg.ctrlBufSize) : WriteBegun r s (startWrite r u) := by
  obtain ⟨h1, h2, h3, h4, h5⟩ := hn
  unfold startWrite
  rw [if_neg (by rw [hc]; omega)]
  by_cases h0 : r.length.toNat = 0
  · rw [if_pos h0]
    exact ⟨rfl, by simp [h3, h0], h4, h5, by simp [h0], by simp [h0, ht]⟩
  · rw [if_neg h0]
    exact ⟨rfl, rfl, rfl, h5, by simp [h0, hc], by simp [h0, ht]⟩

theorem writeAccepted_startWrite {r : SetupRequest} {s : State} (hl : r.length.toNat ≤ s.cfg.ctrlBufSize) :
    WriteAccepted r s (startWrite r (newTransfer r s)) :=
  ⟨writeBegun_startWrite (by simp) ⟨rfl, rfl, rfl, rfl, rfl⟩ (by simp) hl, by simp,
    ⟨⟨by simp, by simp⟩, ⟨by simp, by simp, by simp, by simp, by simp⟩, ⟨by simp, by simp, by simp, by simp⟩,
      fun a => by simp⟩⟩

/-! The four ways a `SETUP` event with a decoded request goes (R133 from step 3 on). -/

theorem transfer_rejected {r : SetupRequest} {v : State → Bool × State} {g : State → Option (List Byte) × State} {s : State}
    (h : (v (newTransfer r s)).1 = false) : transfer r v g s = fail (v (newTransfer r s)).2 := by
  simp [transfer, h]

theorem transfer_write {r : SetupRequest} {v : State → Bool × State} {g : State → Option (List Byte) × State} {s : State}
    (h : (v (newTransfer r s)).1 = true) (hd : r.dir = .hostToDevice) :
    transfer r v g s = startWrite r (v (newTransfer r s)).2 := by
  simp [transfer, h, hd]

theorem transfer_read {r : SetupRequest} {v : State → Bool × State} {g : State → Option (List Byte) × State} {s : State}
    {buf : List Byte} (h : (v (newTransfer r s)).1 = true) (hd : r.dir = .deviceToHost)
    (hg : (g (v (newTransfer r s)).2).1 = some buf) :
    transfer r v g s = startRead buf r.length.toNat (g (v (newTransfer r s)).2).2 := by
  simp [transfer, h, hd, hg]

theorem transfer_readError {r : SetupRequest} {v : State → Bool × State} {g : State → Option (List Byte) × State}
    {s : State} (h : (v (newTransfer r s)).1 = true) (hd : r.dir = .deviceToHost)
    (hg : (g (v (newTransfer r s)).2).1 = none) :
    transfer r v g s = fail (g (v (newTransfer r s)).2).2 := by
  simp [transfer, h, hd, hg]

/-- What holds of every way a transfer can go: it is enough to look at the four. -/
theorem transfer_cases {P : State → Prop} {r : SetupRequest} {v : State → Bool × State}
    {g : State → Option (List Byte) × State} {s : State}
    (reject : (v (newTransfer r s)).1 = false → P (fail (v (newTransfer r s)).2))
    (write : (v (newTransfer r s)).1 = true → r.dir = .hostToDevice → P (startWrite r (v (newTransfer r s)).2))
    (read : ∀ buf, (v (newTransfer r s)).1 = true → r.dir = .deviceToHost → (g (v (newTransfer r s)).2).1 = some buf →
      P (startRead buf r.length.toNat (g (v (newTransfer r s)).2).2))
    (readError : (v (newTransfer r s)).1 = true → r.dir = .deviceToHost → (g (v (newTransfer r s)).2).1 = none →
      P (fail (g (v (newTransfer r s)).2).2)) : P (transfer r v g s) := by
  cases hv : (v (newTransfer r s)).1 with
  | false => rw [transfer_rejected hv]; exact reject hv
  | true =>
    cases hd : r.dir with
    | hostToDevice => rw [transfer_write hv hd]; exact write hv hd
    | deviceToHost =>
      cases hg : (g (v (newTransfer r s)).2).1 with
      | none => rw [transfer_readError hv hd hg]; exact readError hv hd hg
      | some buf => rw [transfer_read hv hd hg]; exact read buf hv hd hg

/-! The class validator (R171, R200, R202, R204). -/

@[simp] theorem newTransfer_classGate (r : SetupRequest) (s : State) : classGate (newTransfer r s) = classGate s := rfl

@[simp] theorem newTransfer_legal (q : DfuRequest) (r r' : SetupRequest) (s : State) :
    legal q r' (newTransfer r s) = legal q r' s := rfl

theorem classJudge_gated {q : DfuRequest} {r : SetupRequest} {s : State} (h : classGate s = false) :
    classJudge q r s = (false, s) := by simp [classJudge, h]

theorem classJudge_legal {q : DfuRequest} {r : SetupRequest} {s : State} (hg : classGate s = true)
    (hl : legal q r s = true) : classJudge q r s = (true, s) := by simp [classJudge, hg, hl]

theorem classJudge_violation {q : DfuRequest} {r : SetupRequest} {s : State} (hg : classGate s = true)
    (hl : legal q r s = false) : classJudge q r s = (false, classError .errSTALLEDPKT s) := by simp [classJudge, hg, hl]

/-- The three outcomes of the class validator. -/
theorem classJudge_cases (q : DfuRequest) (r : SetupRequest) (s : State) :
    classJudge q r s = (false, s) ∨ (classGate s = true ∧ legal q r s = true ∧ classJudge q r s = (true, s)) ∨
    classJudge q r s = (false, classError .errSTALLEDPKT s) := by
  cases hg : classGate s with
  | false => exact .inl (classJudge_gated hg)
  | true =>
    cases hl : legal q r s with
    | true => exact .inr (.inl ⟨rfl, rfl, classJudge_legal hg hl⟩)
    | false => exact .inr (.inr (classJudge_violation hg hl))

/-- What a DFU read request executes at its `SETUP` (R210). -/
def dfuRead : DfuRequest → SetupRequest → State → Option (List Byte) × State
  | .upload, r => reads (uploadGet r)
  | .getstatus, _ => reads getstatusGet
  | .getstate, _ => reads getstateGet
  | .detach, _ => noRead
  | .dnload, _ => noRead
  | .clrstatus, _ => noRead
  | .abort, _ => noRead

theorem exec_instrOfDfu (q : DfuRequest) (f : SetupFields) (s : State) :
    exec (instrOfDfu q f) s =
      .next (transfer (requestOfDfu q f) (classJudge q (requestOfDfu q f)) (dfuRead q (requestOfDfu q f)) s) := by
  cases q <;> rfl

theorem exec_dfu_gated {q : DfuRequest} {f : SetupFields} {s : State} (h : classGate s = false) :
    exec (instrOfDfu q f) s = .next (fail (newTransfer (requestOfDfu q f) s)) := by
  rw [exec_instrOfDfu, transfer_rejected] <;> rw [classJudge_gated (s := newTransfer (requestOfDfu q f) s) h]

theorem exec_dfu_violation {q : DfuRequest} {f : SetupFields} {s : State} (hg : classGate s = true)
    (hl : legal q (requestOfDfu q f) s = false) :
    exec (instrOfDfu q f) s = .next (fail (classError .errSTALLEDPKT (newTransfer (requestOfDfu q f) s))) := by
  rw [exec_instrOfDfu, transfer_rejected] <;>
    rw [classJudge_violation (s := newTransfer (requestOfDfu q f) s) hg hl]

theorem exec_dfu_write {q : DfuRequest} {f : SetupFields} {s : State} (hg : classGate s = true)
    (hl : legal q (requestOfDfu q f) s = true) (hd : (requestOfDfu q f).dir = .hostToDevice) :
    exec (instrOfDfu q f) s = .next (startWrite (requestOfDfu q f) (newTransfer (requestOfDfu q f) s)) := by
  rw [exec_instrOfDfu, transfer_write _ hd] <;> rw [classJudge_legal (s := newTransfer (requestOfDfu q f) s) hg hl]

theorem exec_dfu_read {q : DfuRequest} {f : SetupFields} {s : State} {buf : List Byte} (hg : classGate s = true)
    (hl : legal q (requestOfDfu q f) s = true) (hd : (requestOfDfu q f).dir = .deviceToHost)
    (hr : (dfuRead q (requestOfDfu q f) (newTransfer (requestOfDfu q f) s)).1 = some buf) :
    exec (instrOfDfu q f) s = .next (startRead buf f.length.toNat
      (dfuRead q (requestOfDfu q f) (newTransfer (requestOfDfu q f) s)).2) := by
  have hj := classJudge_legal (s := newTransfer (requestOfDfu q f) s) hg hl
  have hlen : (requestOfDfu q f).length = f.length := by cases q <;> rfl
  rw [exec_instrOfDfu, transfer_read (buf := buf) _ hd] <;> rw [hj]
  · rw [hlen]
  · exact hr

/-! The `IN` that executes a write (R141, R174). -/

theorem exec_inDone_statusIn {s : State} {r : SetupRequest} (hc : s.cts = .statusIn) (hp : s.pendOut = some r) :
    exec .inDone s =
      match dispatcherSet r (s.xferData.take s.xferLen) s with
      | none => .fault .unacceptedPendingWrite
      | some x => .next (completeWrite x.1 x.2) := by
  show onInComplete s = _
  unfold onInComplete
  rw [hc]
  show finishWrite s = _
  cases hx : dispatcherSet r (s.xferData.take s.xferLen) s <;> simp [finishWrite, hp, hx]

theorem exec_inDone_writes {s : State} {r : SetupRequest} {x : Bool × State} (hc : s.cts = .statusIn)
    (hp : s.pendOut = some r) (hx : dispatcherSet r (s.xferData.take s.xferLen) s = some x) :
    exec .inDone s = .next (completeWrite x.1 x.2) := by
  rw [exec_inDone_statusIn hc hp, hx]

theorem dispatcherSet_dnload (f : SetupFields) (data : List Byte) (s : State) :
    dispatcherSet (requestOfDfu .dnload f) data s = dnloadSet (requestOfDfu .dnload f) data s := rfl

theorem dispatcherSet_clrstatus (f : SetupFields) (data : List Byte) (s : State) :
    dispatcherSet (requestOfDfu .clrstatus f) data s = some (true, clrstatusSet s) := rfl

theorem dispatcherSet_abort (f : SetupFields) (data : List Byte) (s : State) :
    dispatcherSet (requestOfDfu .abort f) data s = some (true, abortSet s) := rfl

/-- A write that ended in success, from what the executed state shares with the state before. -/
theorem writeDone_abandon {s u : State} (hr : u.setupReq = s.setupReq) (ht : u.trace = s.trace) (hi : SameInputs s u) :
    WriteDone s (completeWrite true u) :=
  ⟨⟨by simp, by simp, by simp, by simp, by simp⟩, by simp [hr], by simp [ht], ⟨by simp [hi.cfg], by simp [hi.events]⟩⟩

theorem writeFailed_fail {s u : State} {out : List Action} (hr : u.setupReq = s.setupReq)
    (ht : u.trace = s.trace ++ out) (hi : SameInputs s u) : WriteFailed out s (completeWrite false u) :=
  ⟨⟨by simp, by simp, by simp, by simp, by simp⟩, by simp [hr], by simp [ht], ⟨by simp [hi.cfg], by simp [hi.events]⟩⟩

end Sys2Proof.Laws
end

