-- ==== Sys2Proof/Laws/Flash.lean ====
section
/-! SUPPORT. What a block run can do, said once: its outcome as a function of the target, the bytes and the flash (R293), and
what every outcome leaves. -/

namespace Sys2Proof.Laws

open Machine

/-- What a block run does: the flash it leaves, the Flash Programmer calls it makes, and the error it ends in, if any. -/
structure BlockOutcome where
  flash : List Host.Cell
  calls : List Action
  error : Option StatusCode

/-- Steps 3 and 4 of R280. -/
def programOutcome (c : Config) (pb : PendingBlock) (flash : List Host.Cell) (calls : List Action) : BlockOutcome :=
  let bytes := paddedData c pb.data pb.length.toNat
  let after := fpProgram c flash pb.target bytes
  { flash := after, calls := calls ++ [.prog pb.target bytes],
    error := if Memory.readBytes (unlistedByte c) after pb.target pb.length.toNat = pb.data then none else some .errVERIFY }

/-- The pages of R287 after one erase call each. -/
def erasePages (c : Config) (flash : List Host.Cell) (pages : List Nat) : List Host.Cell :=
  pages.foldl (fun m p => fpErasePage c m p) flash

/-- `BlockExec` (R280) as a function of the parameters, the block and the flash. -/
def blockOutcome (c : Config) (pb : PendingBlock) (flash : List Host.Cell) : BlockOutcome :=
  let wc := wordCount pb.length.toNat
  if inRange c pb.target (paddedLength pb.length.toNat) then
    if fpIsErased c flash pb.target wc then programOutcome c pb flash [.erasedQ pb.target wc true]
    else
      let pages := blockPages c pb.target (paddedLength pb.length.toNat)
      let erased := erasePages c flash pages
      let again := fpIsErased c erased pb.target wc
      let calls := [Action.erasedQ pb.target wc false] ++ pages.map .erase ++ [.erasedQ pb.target wc again]
      if again then programOutcome c pb erased calls
      else { flash := erased, calls := calls, error := some .errCHECK_ERASED }
  else { flash := flash, calls := [], error := some .errADDRESS }

/-- An outcome on a state: the flash and the calls, then the class error or the advance. -/
def BlockOutcome.apply (o : BlockOutcome) (s : State) : State :=
  match o.error with
  | some code => classError code { s with flash := o.flash, trace := s.trace ++ o.calls }
  | none => advanceAfterBlock { s with flash := o.flash, trace := s.trace ++ o.calls }

theorem callErasePages_eq (pages : List Nat) (s : State) :
    callErasePages pages s =
      { s with flash := erasePages s.cfg s.flash pages, trace := s.trace ++ pages.map .erase } := by
  unfold callErasePages erasePages
  induction pages generalizing s with
  | nil => simp
  | cons p pages ih =>
    rw [List.foldl_cons, ih]
    simp [callErasePage, emit]

theorem programAndVerify_eq (pb : PendingBlock) (s : State) (calls : List Action) (base : State)
    (h : s = { base with flash := s.flash, trace := base.trace ++ calls }) :
    programAndVerify pb s = (programOutcome base.cfg pb s.flash calls).apply base := by
  rw [h]
  unfold programAndVerify BlockOutcome.apply programOutcome
  by_cases hv : Memory.readBytes (unlistedByte base.cfg)
      (fpProgram base.cfg s.flash pb.target (paddedData base.cfg pb.data pb.length.toNat)) pb.target pb.length.toNat = pb.data
  · simp [callProgram, emit, State.flashRead, hv]
  · simp [callProgram, emit, State.flashRead, hv]

/-- `BlockExec` is its outcome. -/
theorem blockExec_eq (pb : PendingBlock) (s : State) :
    blockExec pb s = (blockOutcome s.cfg pb s.flash).apply s := by
  unfold blockExec blockOutcome
  by_cases hr : inRange s.cfg pb.target (paddedLength pb.length.toNat) = true
  · simp only [hr, if_true]
    unfold eraseIfNeeded
    by_cases he : fpIsErased s.cfg s.flash pb.target (wordCount pb.length.toNat) = true
    · simp only [callIsErased, he, if_true]
      exact programAndVerify_eq pb _ _ s rfl
    · simp only [callIsErased, he, callErasePages_eq, Bool.false_eq_true, if_false, emit]
      by_cases h2 : fpIsErased s.cfg (erasePages s.cfg s.flash
          (blockPages s.cfg pb.target (paddedLength pb.length.toNat))) pb.target (wordCount pb.length.toNat) = true
      · simp only [h2, if_true]
        exact programAndVerify_eq pb _ _ s (by simp only [List.append_assoc])
      · simp [h2, BlockOutcome.apply]
  · simp [hr, BlockOutcome.apply]

/-! What an outcome leaves in each register. -/

@[simp] theorem apply_cfg (o : BlockOutcome) (s : State) : (o.apply s).cfg = s.cfg := by
  unfold BlockOutcome.apply; split <;> simp
@[simp] theorem apply_events (o : BlockOutcome) (s : State) : (o.apply s).events = s.events := by
  unfold BlockOutcome.apply; split <;> simp
@[simp] theorem apply_cts (o : BlockOutcome) (s : State) : (o.apply s).cts = s.cts := by
  unfold BlockOutcome.apply; split <;> simp
@[simp] theorem apply_setupReq (o : BlockOutcome) (s : State) : (o.apply s).setupReq = s.setupReq := by
  unfold BlockOutcome.apply; split <;> simp
@[simp] theorem apply_pendOut (o : BlockOutcome) (s : State) : (o.apply s).pendOut = s.pendOut := by
  unfold BlockOutcome.apply; split <;> simp
@[simp] theorem apply_xferData (o : BlockOutcome) (s : State) : (o.apply s).xferData = s.xferData := by
  unfold BlockOutcome.apply; split <;> simp
@[simp] theorem apply_xferLen (o : BlockOutcome) (s : State) : (o.apply s).xferLen = s.xferLen := by
  unfold BlockOutcome.apply; split <;> simp
@[simp] theorem apply_xferPos (o : BlockOutcome) (s : State) : (o.apply s).xferPos = s.xferPos := by
  unfold BlockOutcome.apply; split <;> simp
@[simp] theorem apply_usbDevState (o : BlockOutcome) (s : State) : (o.apply s).usbDevState = s.usbDevState := by
  unfold BlockOutcome.apply; split <;> simp
@[simp] theorem apply_usbAddr (o : BlockOutcome) (s : State) : (o.apply s).usbAddr = s.usbAddr := by
  unfold BlockOutcome.apply; split <;> simp
@[simp] theorem apply_usbConfig (o : BlockOutcome) (s : State) : (o.apply s).usbConfig = s.usbConfig := by
  unfold BlockOutcome.apply; split <;> simp
@[simp] theorem apply_stdOwn (o : BlockOutcome) (s : State) : (o.apply s).stdOwn = s.stdOwn := by
  unfold BlockOutcome.apply; split <;> simp
@[simp] theorem apply_vndOwn (o : BlockOutcome) (s : State) : (o.apply s).vndOwn = s.vndOwn := by
  unfold BlockOutcome.apply; split <;> simp
@[simp] theorem apply_pending (o : BlockOutcome) (s : State) : (o.apply s).pending = s.pending := by
  unfold BlockOutcome.apply; split <;> simp
@[simp] theorem apply_flash (o : BlockOutcome) (s : State) : (o.apply s).flash = o.flash := by
  unfold BlockOutcome.apply; split <;> simp
@[simp] theorem apply_trace (o : BlockOutcome) (s : State) : (o.apply s).trace = s.trace ++ o.calls := by
  unfold BlockOutcome.apply; split <;> simp
theorem apply_dfuState (o : BlockOutcome) (s : State) :
    (o.apply s).dfuState = if o.error = none then .dnloadSync else .error := by
  unfold BlockOutcome.apply; split <;> simp [*]
theorem apply_dfuStatusCode (o : BlockOutcome) (s : State) :
    (o.apply s).dfuStatusCode = o.error.getD s.dfuStatusCode := by
  unfold BlockOutcome.apply; split <;> simp [*]
theorem apply_addrPtr (o : BlockOutcome) (s : State) :
    (o.apply s).addrPtr = if o.error = none ∧ s.cfg.variant = .plainDfu then advancedPointer s else s.addrPtr := by
  unfold BlockOutcome.apply; split <;> simp [*, advanceAfterBlock_addrPtr, advancedPointer]

/-! The same of `BlockExec`. -/

@[simp] theorem blockExec_cfg (pb : PendingBlock) (s : State) : (blockExec pb s).cfg = s.cfg := by simp [blockExec_eq]
@[simp] theorem blockExec_events (pb : PendingBlock) (s : State) : (blockExec pb s).events = s.events := by simp [blockExec_eq]
@[simp] theorem blockExec_cts (pb : PendingBlock) (s : State) : (blockExec pb s).cts = s.cts := by simp [blockExec_eq]
@[simp] theorem blockExec_setupReq (pb : PendingBlock) (s : State) : (blockExec pb s).setupReq = s.setupReq := by simp [blockExec_eq]
@[simp] theorem blockExec_pendOut (pb : PendingBlock) (s : State) : (blockExec pb s).pendOut = s.pendOut := by simp [blockExec_eq]
@[simp] theorem blockExec_xferData (pb : PendingBlock) (s : State) : (blockExec pb s).xferData = s.xferData := by simp [blockExec_eq]
@[simp] theorem blockExec_xferLen (pb : PendingBlock) (s : State) : (blockExec pb s).xferLen = s.xferLen := by simp [blockExec_eq]
@[simp] theorem blockExec_xferPos (pb : PendingBlock) (s : State) : (blockExec pb s).xferPos = s.xferPos := by simp [blockExec_eq]
@[simp] theorem blockExec_usbDevState (pb : PendingBlock) (s : State) : (blockExec pb s).usbDevState = s.usbDevState := by simp [blockExec_eq]
@[simp] theorem blockExec_usbAddr (pb : PendingBlock) (s : State) : (blockExec pb s).usbAddr = s.usbAddr := by simp [blockExec_eq]
@[simp] theorem blockExec_usbConfig (pb : PendingBlock) (s : State) : (blockExec pb s).usbConfig = s.usbConfig := by simp [blockExec_eq]
@[simp] theorem blockExec_stdOwn (pb : PendingBlock) (s : State) : (blockExec pb s).stdOwn = s.stdOwn := by simp [blockExec_eq]
@[simp] theorem blockExec_vndOwn (pb : PendingBlock) (s : State) : (blockExec pb s).vndOwn = s.vndOwn := by simp [blockExec_eq]
@[simp] theorem blockExec_pending (pb : PendingBlock) (s : State) : (blockExec pb s).pending = s.pending := by simp [blockExec_eq]

/-! What every outcome keeps. -/

theorem programOutcome_flash_wf {c : Config} {pb : PendingBlock} {m : List Host.Cell} (calls : List Action)
    (h : Memory.wf (unlistedByte c) m = true) : Memory.wf (unlistedByte c) (programOutcome c pb m calls).flash = true :=
  wf_fpProgram _ _ h

theorem erasePages_wf {c : Config} (pages : List Nat) {m : List Host.Cell} (h : Memory.wf (unlistedByte c) m = true) :
    Memory.wf (unlistedByte c) (erasePages c m pages) = true := by
  unfold erasePages
  induction pages generalizing m with
  | nil => exact h
  | cons p pages ih => exact ih (wf_fpErasePage p h)

/-- A block run ends in one of four ways: out of range; programmed at once; not erased after erasing; erased, then programmed. -/
theorem blockOutcome_cases {P : BlockOutcome → Prop} (c : Config) (pb : PendingBlock) (m : List Host.Cell)
    (range : inRange c pb.target (paddedLength pb.length.toNat) = false →
      P { flash := m, calls := [], error := some .errADDRESS })
    (program : inRange c pb.target (paddedLength pb.length.toNat) = true →
      fpIsErased c m pb.target (wordCount pb.length.toNat) = true →
      P (programOutcome c pb m [.erasedQ pb.target (wordCount pb.length.toNat) true]))
    (erase : ∀ again, inRange c pb.target (paddedLength pb.length.toNat) = true →
      fpIsErased c m pb.target (wordCount pb.length.toNat) = false →
      fpIsErased c (erasePages c m (blockPages c pb.target (paddedLength pb.length.toNat))) pb.target
        (wordCount pb.length.toNat) = again →
      P (if again then
          programOutcome c pb (erasePages c m (blockPages c pb.target (paddedLength pb.length.toNat)))
            ([.erasedQ pb.target (wordCount pb.length.toNat) false] ++
              (blockPages c pb.target (paddedLength pb.length.toNat)).map .erase ++
              [.erasedQ pb.target (wordCount pb.length.toNat) again])
        else
          { flash := erasePages c m (blockPages c pb.target (paddedLength pb.length.toNat)),
            calls := [.erasedQ pb.target (wordCount pb.length.toNat) false] ++
              (blockPages c pb.target (paddedLength pb.length.toNat)).map .erase ++
              [.erasedQ pb.target (wordCount pb.length.toNat) again],
            error := some .errCHECK_ERASED })) : P (blockOutcome c pb m) := by
  unfold blockOutcome
  cases hr : inRange c pb.target (paddedLength pb.length.toNat) with
  | false => simpa using range hr
  | true =>
    cases he : fpIsErased c m pb.target (wordCount pb.length.toNat) with
    | true => simpa [he] using program hr he
    | false =>
      have := erase _ hr he rfl
      simpa [he] using this

theorem blockOutcome_wf (c : Config) (pb : PendingBlock) (m : List Host.Cell) (h : Memory.wf (unlistedByte c) m = true) :
    Memory.wf (unlistedByte c) (blockOutcome c pb m).flash = true := by
  refine blockOutcome_cases (P := fun o => Memory.wf (unlistedByte c) o.flash = true) c pb m ?_ ?_ ?_
  · intro _; exact h
  · intro _ _; exact programOutcome_flash_wf _ h
  · intro again _ _ _
    cases again with
    | true => exact programOutcome_flash_wf _ (erasePages_wf _ h)
    | false => exact erasePages_wf _ h

theorem programOutcome_error (c : Config) (pb : PendingBlock) (m : List Host.Cell) (calls : List Action) :
    (programOutcome c pb m calls).error ≠ some .ok := by
  unfold programOutcome; dsimp only; split <;> simp

theorem blockOutcome_error (c : Config) (pb : PendingBlock) (m : List Host.Cell) : (blockOutcome c pb m).error ≠ some .ok := by
  refine blockOutcome_cases (P := fun o => o.error ≠ some .ok) c pb m ?_ ?_ ?_
  · intro _; simp
  · intro _ _; exact programOutcome_error _ _ _ _
  · intro again _ _ _
    cases again with
    | true => exact programOutcome_error _ _ _ _
    | false => simp

theorem blockOutcome_calls (c : Config) (pb : PendingBlock) (m : List Host.Cell) : Action.stall ∉ (blockOutcome c pb m).calls := by
  refine blockOutcome_cases (P := fun o => Action.stall ∉ o.calls) c pb m ?_ ?_ ?_
  · intro _; simp
  · intro _ _; simp [programOutcome]
  · intro again _ _ _
    cases again <;> simp [programOutcome]

/-! Pages (R11 (h), R287). -/

theorem pageBase_eq (c : Config) (a : Nat) : pageBase c a = c.pageSize * (a / c.pageSize) := by
  unfold pageBase
  have := Nat.div_add_mod a c.pageSize
  omega

theorem pageBase_le (c : Config) (a : Nat) : pageBase c a ≤ a := Nat.sub_le _ _

theorem lt_pageBase_add {c : Config} (hp : 0 < c.pageSize) (a : Nat) : a < pageBase c a + c.pageSize := by
  have := Nat.mod_lt a hp
  have := Nat.mod_le a c.pageSize
  unfold pageBase
  omega

theorem pageBase_mod (c : Config) (a : Nat) : pageBase c a % c.pageSize = 0 := by
  rw [pageBase_eq]; exact Nat.mul_mod_right _ _

theorem pageBase_of_mod {c : Config} {a : Nat} (h : a % c.pageSize = 0) : pageBase c a = a := by
  unfold pageBase; omega

theorem pageBase_mono {c : Config} {a b : Nat} (h : a ≤ b) : pageBase c a ≤ pageBase c b := by
  rw [pageBase_eq, pageBase_eq]; exact Nat.mul_le_mul_left _ (Nat.div_le_div_right h)

/-- A multiple of the page size at or below an address is at or below its page's base. -/
theorem le_pageBase {c : Config} {a k : Nat} (hk : k % c.pageSize = 0) (h : k ≤ a) : k ≤ pageBase c a := by
  have := pageBase_mono (c := c) h
  rwa [pageBase_of_mod hk] at this

/-- A multiple of the page size above an address is at or above the end of its page. -/
theorem pageEnd_le {c : Config} {a k : Nat} (hp : 0 < c.pageSize) (hk : k % c.pageSize = 0) (h : a < k) :
    pageBase c a + c.pageSize ≤ k := by
  rw [pageBase_eq]
  obtain ⟨m, rfl⟩ := Nat.dvd_of_mod_eq_zero hk
  have h1 : a / c.pageSize < m := (Nat.div_lt_iff_lt_mul hp).mpr (by rw [Nat.mul_comm]; exact h)
  calc c.pageSize * (a / c.pageSize) + c.pageSize = c.pageSize * (a / c.pageSize + 1) := by ring
    _ ≤ c.pageSize * m := Nat.mul_le_mul_left _ h1

theorem mem_blockPages {c : Config} {a l p : Nat} (hp : 0 < c.pageSize) (hl : 1 ≤ l) :
    p ∈ blockPages c a l ↔ p % c.pageSize = 0 ∧ p < a + l ∧ a < p + c.pageSize := by
  have hmono : a / c.pageSize ≤ (a + l - 1) / c.pageSize := Nat.div_le_div_right (by omega)
  have hcount : (pageBase c (a + l - 1) - pageBase c a) / c.pageSize = (a + l - 1) / c.pageSize - a / c.pageSize := by
    rw [pageBase_eq, pageBase_eq, ← Nat.mul_sub, Nat.mul_div_cancel_left _ hp]
  unfold blockPages
  rw [hcount]
  simp only [List.mem_map, List.mem_range]
  constructor
  · rintro ⟨k, hk, rfl⟩
    have e : pageBase c a + k * c.pageSize = c.pageSize * (a / c.pageSize + k) := by rw [pageBase_eq]; ring
    rw [e]
    refine ⟨Nat.mul_mod_right _ _, ?_, ?_⟩
    · have h1 : a / c.pageSize + k ≤ (a + l - 1) / c.pageSize := by omega
      have h2 := (Nat.le_div_iff_mul_le hp).mp h1
      rw [Nat.mul_comm] at h2
      omega
    · have := Nat.mul_le_mul_left c.pageSize (Nat.le_add_right (a / c.pageSize) k)
      have := lt_pageBase_add hp a
      rw [pageBase_eq] at this
      omega
  · rintro ⟨hm, h1, h2⟩
    obtain ⟨m, rfl⟩ := Nat.dvd_of_mod_eq_zero hm
    have hlo : a / c.pageSize ≤ m := by
      have : a / c.pageSize < m + 1 := (Nat.div_lt_iff_lt_mul hp).mpr (by rw [Nat.mul_comm, Nat.mul_add]; omega)
      omega
    have hhi : m ≤ (a + l - 1) / c.pageSize := (Nat.le_div_iff_mul_le hp).mpr (by rw [Nat.mul_comm]; omega)
    refine ⟨m - a / c.pageSize, by omega, ?_⟩
    rw [pageBase_eq, Nat.mul_comm (m - _), ← Nat.mul_add]
    congr 1
    omega

theorem mem_blockPages_bounds {c : Config} {a l p : Nat} (hp : 0 < c.pageSize) (hl : 1 ≤ l) (h : p ∈ blockPages c a l) :
    pageBase c p = p ∧ pageBase c a ≤ p ∧ p ≤ pageBase c (a + l - 1) := by
  obtain ⟨hm, h1, h2⟩ := (mem_blockPages hp hl).mp h
  have hb := pageBase_of_mod hm
  refine ⟨hb, ?_, ?_⟩
  · by_contra hlt
    have := pageEnd_le (c := c) (a := p) hp (pageBase_mod c a) (by omega)
    have := pageBase_le c a
    omega
  · exact le_pageBase hm (by omega)

/-- Every address of the range `[a, a + l)` lies in one of the block's pages, whose base is in the list. -/
theorem exists_blockPage {c : Config} {a l x : Nat} (hp : 0 < c.pageSize)
    (h : inBlockPages c a l x) (hl : 1 ≤ l) : pageBase c x ∈ blockPages c a l := by
  rw [mem_blockPages hp hl]
  have h1 := le_pageBase (pageBase_mod c a) h.1
  have h2 := pageBase_le c x
  have h3 := lt_pageBase_add hp a
  have h4 : pageBase c x ≤ pageBase c (a + l - 1) := by
    by_contra hlt
    have := pageEnd_le (c := c) (a := a + l - 1) hp (pageBase_mod c x) (by
      by_contra hge
      exact hlt (le_pageBase (pageBase_mod c x) (by omega)))
    have := lt_pageBase_add hp (a + l - 1)
    have := pageBase_mono (c := c) (a := a + l - 1) (b := x)
    omega
  have h5 := pageBase_le c (a + l - 1)
  exact ⟨pageBase_mod c x, by omega, by omega⟩

/-! Lengths (R11 (f), R280). -/

theorem le_paddedLength (n : Nat) : n ≤ paddedLength n := by
  unfold paddedLength wordCount ceilDiv wordBytes; omega

theorem length_paddedData (c : Config) (data : List Byte) (n : Nat) (h : data.length = n) :
    (paddedData c data n).length = paddedLength n := by
  have := le_paddedLength n
  simp [paddedData, h]; omega

/-! What the reference programmers change in a block run. -/

theorem read_erasePages_outside {c : Config} (hr : referenceProgrammer c = true) (pages : List Nat) {m : List Host.Cell}
    {a : Nat} (h : ∀ p ∈ pages, a < pageBase c p ∨ pageBase c p + c.pageSize ≤ a) :
    Memory.read (unlistedByte c) (erasePages c m pages) a = Memory.read (unlistedByte c) m a := by
  unfold erasePages
  induction pages generalizing m with
  | nil => rfl
  | cons p pages ih =>
    rw [List.foldl_cons, ih (fun q hq => h q (List.mem_cons_of_mem _ hq))]
    exact read_fpErasePage_outside hr (h p List.mem_cons_self)

/-- A block run leaves every byte outside the block's pages alone. -/
theorem read_blockOutcome_outside {c : Config} {pb : PendingBlock} {m : List Host.Cell} {x : Nat}
    (hr : referenceProgrammer c = true) (hp : 0 < c.pageSize) (hd : pb.data.length = pb.length.toNat)
    (hl : 1 ≤ pb.length.toNat) (hx : ¬inBlockPages c pb.target (paddedLength pb.length.toNat) x) :
    Memory.read (unlistedByte c) (blockOutcome c pb m).flash x = Memory.read (unlistedByte c) m x := by
  have hL : 1 ≤ paddedLength pb.length.toNat := le_trans hl (le_paddedLength _)
  have hout : x < pb.target ∨ pb.target + (paddedData c pb.data pb.length.toNat).length ≤ x := by
    rw [length_paddedData _ _ _ hd]
    have h1 := pageBase_le c pb.target
    have h2 := lt_pageBase_add hp (pb.target + paddedLength pb.length.toNat - 1)
    by_contra hh
    exact hx ⟨by omega, by omega⟩
  have herase : ∀ m, Memory.read (unlistedByte c) (erasePages c m (blockPages c pb.target (paddedLength pb.length.toNat))) x
      = Memory.read (unlistedByte c) m x := by
    intro m
    apply read_erasePages_outside hr
    intro p hpm
    obtain ⟨h1, h2, h3⟩ := mem_blockPages_bounds hp hL hpm
    rw [h1]
    by_contra hh
    exact hx ⟨by omega, by omega⟩
  refine blockOutcome_cases
    (P := fun o => Memory.read (unlistedByte c) o.flash x = Memory.read (unlistedByte c) m x) c pb m ?_ ?_ ?_
  · intro _; rfl
  · intro _ _; exact read_fpProgram_outside hr hout
  · intro again _ _ _
    cases again with
    | true => exact (read_fpProgram_outside hr hout).trans (herase m)
    | false => exact herase m

/-- Under a valid configuration the pages of a block in range lie in the programmable region (R287). -/
theorem inBlockPages_region {c : Config} {a l x : Nat} (hp : 0 < c.pageSize) (hb : c.appBase % c.pageSize = 0)
    (he : c.appEnd % c.pageSize = 0) (hl : 1 ≤ l) (hr : inRange c a l = true) (hx : inBlockPages c a l x) :
    inRegion c x := by
  simp only [inRange, decide_eq_true_eq] at hr
  have h1 := le_pageBase hb hr.1
  have h2 := pageEnd_le (a := a + l - 1) hp he (by omega)
  exact ⟨le_trans h1 hx.1, by have := hx.2; omega⟩

/-! What `FP_IDEAL` leaves (R271 to R273, R294). -/

theorem read_erasePages_inside {c : Config} (hi : c.fp = .ideal) (pages : List Nat) {m : List Host.Cell} {x : Nat}
    (hm : Memory.wf (unlistedByte c) m = true) (hs : ∀ p ∈ pages, pageBase c p + c.pageSize ≤ flashSpace)
    (hx : Memory.read (unlistedByte c) m x = c.erasedByte ∨
      ∃ p ∈ pages, pageBase c p ≤ x ∧ x < pageBase c p + c.pageSize) :
    Memory.read (unlistedByte c) (erasePages c m pages) x = c.erasedByte := by
  unfold erasePages
  induction pages generalizing m with
  | nil =>
    obtain h | ⟨p, hp, _⟩ := hx
    · exact h
    · simp at hp
  | cons p pages ih =>
    rw [List.foldl_cons]
    have he : fpErasePage c m p = erasedPage c m p := by simp [fpErasePage, hi]
    refine ih (wf_fpErasePage p hm) (fun q hq => hs q (List.mem_cons_of_mem _ hq)) ?_
    rw [he]
    by_cases hin : pageBase c p ≤ x ∧ x < pageBase c p + c.pageSize
    · exact .inl (read_erasedPage_inside hm hin.1 hin.2 (hs p List.mem_cons_self))
    · obtain h | ⟨q, hq, h1, h2⟩ := hx
      · left; rw [read_erasedPage_outside (by omega)]; exact h
      · obtain rfl | hq := List.mem_cons.mp hq
        · exact absurd ⟨h1, h2⟩ hin
        · exact .inr ⟨q, hq, h1, h2⟩

/-- On `FP_IDEAL` programming a block always passes the read-back, whatever was there. -/
theorem programOutcome_ideal {c : Config} {pb : PendingBlock} {m : List Host.Cell} (calls : List Action)
    (hi : c.fp = .ideal) (hm : Memory.wf (unlistedByte c) m = true) (hd : pb.data.length = pb.length.toNat)
    (hs : pb.target + paddedLength pb.length.toNat ≤ flashSpace) :
    (programOutcome c pb m calls).error = none ∧
    (∀ i (h : i < pb.data.length),
      Memory.read (unlistedByte c) (programOutcome c pb m calls).flash (pb.target + i) = pb.data[i]) ∧
    (∀ a, pb.target + pb.length.toNat ≤ a → a < pb.target + paddedLength pb.length.toNat →
      Memory.read (unlistedByte c) (programOutcome c pb m calls).flash a = c.erasedByte) ∧
    (∀ a, a < pb.target ∨ pb.target + paddedLength pb.length.toNat ≤ a →
      Memory.read (unlistedByte c) (programOutcome c pb m calls).flash a = Memory.read (unlistedByte c) m a) := by
  have hlen := length_paddedData c pb.data pb.length.toNat hd
  have hf : (programOutcome c pb m calls).flash =
      Memory.writeBytes (unlistedByte c) m pb.target (paddedData c pb.data pb.length.toNat) := by
    simp [programOutcome, fpProgram, hi]
  have hin : ∀ i (h : i < (paddedData c pb.data pb.length.toNat).length),
      Memory.read (unlistedByte c) (programOutcome c pb m calls).flash (pb.target + i) =
        (paddedData c pb.data pb.length.toNat)[i] := by
    intro i h
    rw [hf]
    exact read_writeBytes_inside _ i hm h (by rw [hlen]; exact hs)
  have hdata : ∀ i (h : i < pb.data.length),
      Memory.read (unlistedByte c) (programOutcome c pb m calls).flash (pb.target + i) = pb.data[i] := by
    intro i h
    have hle := le_paddedLength pb.length.toNat
    rw [hin i (by rw [hlen]; omega)]
    simp [paddedData, List.getElem_append_left, h]
  refine ⟨?_, hdata, ?_, ?_⟩
  · have hr := readBytes_eq hdata
    rw [hd] at hr
    unfold programOutcome at hr ⊢
    dsimp only at hr ⊢
    rw [if_pos hr]
  · intro a h1 h2
    obtain ⟨i, rfl⟩ := Nat.exists_eq_add_of_le (le_trans (Nat.le_add_right _ _) h1)
    rw [hin i (by rw [hlen]; omega)]
    simp only [paddedData]
    rw [List.getElem_append_right (by omega)]
    simp
  · intro a h
    rw [hf]
    exact read_writeBytes_outside _ (by rw [hlen]; exact h)

/-- `FP_IDEAL` erases the whole page that contains the address, page base or not, nothing else, and then finds it erased
(R271, R272). -/
theorem fpErasePage_ideal {c : Config} {m : List Host.Cell} {a : Nat} (hi : c.fp = .ideal) (hp : 0 < c.pageSize)
    (hw : c.pageSize % wordBytes = 0) (hm : Memory.wf (unlistedByte c) m = true)
    (hs : pageBase c a + c.pageSize ≤ flashSpace) :
    fpIsErased c (fpErasePage c m a) (pageBase c a) (c.pageSize / wordBytes) = true ∧
    ∀ x, Memory.read (unlistedByte c) (fpErasePage c m a) x =
      if x / c.pageSize = a / c.pageSize then c.erasedByte else Memory.read (unlistedByte c) m x := by
  have he : fpErasePage c m a = erasedPage c m a := by simp [fpErasePage, hi]
  have hlen : c.pageSize / wordBytes * wordBytes = c.pageSize := by unfold wordBytes at *; omega
  have hsame : ∀ x, x / c.pageSize = a / c.pageSize ↔ pageBase c a ≤ x ∧ x < pageBase c a + c.pageSize := by
    intro x
    rw [pageBase_eq, Nat.div_eq_iff hp, Nat.mul_comm]
    omega
  rw [he]
  constructor
  · simp only [fpIsErased, hi, hlen]
    exact allErased_iff.mpr fun i h => read_erasedPage_inside hm (by omega) (by omega) hs
  · intro x
    split
    · next h => obtain ⟨h1, h2⟩ := (hsame x).mp h; exact read_erasedPage_inside hm h1 h2 hs
    · next h => exact read_erasedPage_outside (by have := mt (hsame x).mpr h; omega)

end Sys2Proof.Laws
end

