-- ==== Sys2Proof/Laws/Invariant.lean ====
section
/-! SUPPORT. How the invariant of Safety.lean is kept: the part that no engine register enters, and one lemma for each way an
event ends. -/

namespace Sys2Proof.Laws

open Machine

/-! What a valid configuration says (R6, R7). -/

structure ValidFacts (c : Config) : Prop where
  mps      : 1 ≤ c.mps ∧ c.mps ≤ 65535
  ts       : 1 ≤ c.ts ∧ c.ts ≤ 65535
  ctrlBuf  : c.ts ≤ c.ctrlBufSize ∧ c.ctrlBufSize ≤ 65535
  page     : 4 ≤ c.pageSize ∧ c.pageSize % 4 = 0
  region   : c.appBase < c.appEnd ∧ c.appEnd + c.ts ≤ 2 ^ 32
  aligned  : c.appBase % c.pageSize = 0 ∧ c.appEnd % c.pageSize = 0
  est      : c.estOk = true
  commands : c.cmdCodes.setAddress ≠ c.cmdCodes.erase

theorem validFacts {c : Config} (h : Config.valid c = true) : ValidFacts c := by
  simp only [Config.valid, Bool.and_eq_true, decide_eq_true_eq] at h
  obtain ⟨⟨⟨⟨⟨⟨⟨⟨⟨h1, h2⟩, h3⟩, h4⟩, h5⟩, h6⟩, h7⟩, _⟩, _⟩, h8⟩ := h
  exact ⟨h1, h2, h3, h4, h5, h6, h7, h8⟩

theorem validFacts_page_pos {c : Config} (h : ValidFacts c) : 0 < c.pageSize := by have := h.page.1; omega

/-- The parts of the invariant that no engine register enters. -/
structure Base (s : State) : Prop where
  config   : Config.valid s.cfg = true
  flash    : Memory.wf (unlistedByte s.cfg) s.flash = true
  usbAddr  : s.usbAddr.toNat ≤ 127
  classInv : ClassInv s

theorem Base.of_inv {s : State} (h : s.Inv) : Base s := ⟨h.config, h.flash, h.usbAddr, h.classInv⟩

theorem classInv_congr {s t : State} (h : ClassInv s) (hc : t.cfg = s.cfg) (hk : SameClass s t) : ClassInv t := by
  obtain ⟨k1, k2, k3, k4⟩ := hk
  constructor
  · rw [k1]; exact h.notTransient
  · rw [k1, k2]; exact h.errorCode
  · intro pb hpb
    rw [k1, k3, hc]
    exact h.block pb (k4 ▸ hpb)
  · intro hp
    rw [k1]
    exact h.manifestWork (k4 ▸ hp)

/-- States that share the parameters, flash, the address and the class group share `Base`. -/
theorem Base.congr {s t : State} (h : Base s) (hc : t.cfg = s.cfg) (hf : t.flash = s.flash) (hu : t.usbAddr = s.usbAddr)
    (hk : SameClass s t) : Base t :=
  ⟨by rw [hc]; exact h.config, by rw [hc, hf]; exact h.flash, by rw [hu]; exact h.usbAddr, classInv_congr h.classInv hc hk⟩

/-- With nothing pending, the class group needs only its state and its code to agree. -/
theorem classInv_of_noWork {s : State} (hp : s.pending = .noWork) (hs : s.dfuState ≠ .dnBusy ∧ s.dfuState ≠ .manifest)
    (he : s.dfuState = .error ↔ s.dfuStatusCode ≠ .ok) : ClassInv s :=
  ⟨hs, he, fun pb h => by simp [hp] at h, fun h => by simp [hp] at h⟩

/-! The ends of an event. -/

theorem inv_of_noTransfer {t : State} (hb : Base t) (hn : NoTransfer t) : t.Inv := by
  obtain ⟨h1, h2, h3, h4, h5⟩ := hn
  exact ⟨hb.config, hb.flash, hb.usbAddr, by simp [h3, h4], fun _ => ⟨h2, h3, h4, h5⟩,
    fun h => by simp [h1] at h, fun h => by simp [h1] at h, hb.classInv⟩

theorem base_fail {s : State} (h : Base s) : Base (fail s) := h.congr rfl rfl rfl ⟨rfl, rfl, rfl, rfl⟩

theorem base_newTransfer {s : State} (r : SetupRequest) (h : Base s) : Base (newTransfer r s) :=
  h.congr rfl rfl rfl ⟨rfl, rfl, rfl, rfl⟩

theorem inv_fail {s : State} (h : Base s) : (fail s).Inv := inv_of_noTransfer (base_fail h) ⟨rfl, rfl, rfl, rfl, rfl⟩

theorem inv_completeWrite {s : State} (ok : Bool) (h : Base s) : (completeWrite ok s).Inv :=
  inv_of_noTransfer (h.congr (by simp) (by simp) (by simp) ⟨by simp, by simp, by simp, by simp⟩)
    ⟨by simp, by simp, by simp, by simp, by simp⟩

theorem inv_startRead {s : State} (buf : List Byte) {n : Nat} (h : Base s) (hp : s.pendOut = none) (hn : n ≤ 65535) :
    (startRead buf n s).Inv := by
  have hb : Base (startRead buf n s) := h.congr (by simp) (by simp) (by simp) ⟨by simp, by simp, by simp, by simp⟩
  have hm := (validFacts h.config).mps
  refine ⟨hb.config, hb.flash, hb.usbAddr, ?_, ?_, ?_, ?_, hb.classInv⟩
  · simp only [startRead_xferPos, startRead_xferLen]; omega
  · intro hc
    rw [startRead_cts] at hc
    split at hc <;> simp at hc
  · intro _
    refine ⟨by simp [hp], by simp, ?_, ?_⟩
    · intro hc
      rw [startRead_cts] at hc
      split at hc
      · simp at hc
      · rw [startRead_xferPos, startRead_xferLen, startRead_cfg, Nat.min_eq_right (by omega)]
        exact ⟨by omega, by omega, Nat.mod_self _⟩
    · intro hc
      rw [startRead_cts] at hc
      split at hc
      · rw [startRead_xferPos, startRead_xferLen, Nat.min_eq_left (by omega)]
      · simp at hc
  · intro hc
    rw [startRead_cts] at hc
    split at hc <;> simp at hc

/-- Acceptance is judged by the parameters, the device state and the DFU state alone. -/
theorem acceptedWrite_congr {s t : State} {r : SetupRequest} (h : acceptedWrite s r) (hc : t.cfg = s.cfg)
    (hu : t.usbDevState = s.usbDevState) (hd : t.dfuState = s.dfuState) : acceptedWrite t r := by
  have h1 : stdRefValidate r t = stdRefValidate r s := by
    unfold stdRefValidate setAddressOk setConfigurationOk getDescriptorOk getConfigurationOk; rw [hc, hu]
  have h2 : classGate t = classGate s := by unfold classGate; rw [hc, hu]
  have h3 : ∀ q, legal q r t = legal q r s := by intro q; unfold legal; rw [hc, hd]
  unfold acceptedWrite at *
  simpa only [h1, h2, h3, hc] using h

theorem inv_startWrite {s : State} {r : SetupRequest} (h : Base s) (hn : NoTransfer s) (hr : s.setupReq = some r)
    (ha : acceptedWrite s r) : (startWrite r s).Inv := by
  have hb : Base (startWrite r s) := h.congr (by simp) (by simp) (by simp) ⟨by simp, by simp, by simp, by simp⟩
  by_cases hbig : s.cfg.ctrlBufSize < r.length.toNat
  · rw [startWrite_oversized hbig]; exact inv_fail h
  · obtain ⟨w1, w2, w3, w4, w5, _⟩ := writeBegun_startWrite (s := s) rfl hn rfl (Nat.not_lt.mp hbig)
    have hacc : acceptedWrite (startWrite r s) r := acceptedWrite_congr ha (by simp) (by simp) (by simp)
    have hlt := r.length.isLt
    refine ⟨hb.config, hb.flash, hb.usbAddr, by rw [w2, w3]; omega, ?_, ?_, ?_, hb.classInv⟩
    · intro hc
      rw [w5] at hc
      split at hc
      · simp at hc
      · split at hc <;> simp at hc
    · intro hc
      rw [w5] at hc
      split at hc
      · simp at hc
      · split at hc <;> simp at hc
    · intro _
      refine ⟨⟨r, w1, by simp [hr], w2, hacc⟩, by rw [w2]; simpa using Nat.not_lt.mp hbig, by rw [w4, w3]; rfl, ?_, ?_, ?_⟩
      all_goals
        intro hc
        rw [w5] at hc
        rw [w2, w3]
        try rw [startWrite_cfg]
        split at hc
        · first | (simp at hc; done) | omega
        · split at hc
          · first | (simp at hc; done) | omega
          · first | (simp at hc; done) | omega

/-! A `SETUP` event. -/

/-- What `validate` may do: change no engine register, keep `Base`, and accept only what `acceptedWrite` says. -/
structure ValidateLaw (r : SetupRequest) (v : State → Bool × State) : Prop where
  base     : ∀ s, Base s → Base (v s).2
  transfer : ∀ s, NoTransfer s → NoTransfer (v s).2
  setupReq : ∀ s, (v s).2.setupReq = s.setupReq
  accepts  : ∀ s, (v s).1 = true → r.dir = .hostToDevice → acceptedWrite (v s).2 r

/-- What `execute_get` may do after `validate` accepted: change no engine register and keep `Base`. -/
structure GetLaw (v : State → Bool × State) (g : State → Option (List Byte) × State) : Prop where
  base    : ∀ s, Base s → (v s).1 = true → Base (g (v s).2).2
  pendOut : ∀ s, s.pendOut = none → (g s).2.pendOut = none

theorem inv_transfer {r : SetupRequest} {v : State → Bool × State} {g : State → Option (List Byte) × State} {s : State}
    (h : Base s) (hv : ValidateLaw r v) (hg : r.dir = .deviceToHost → GetLaw v g) : (transfer r v g s).Inv := by
  have hb := base_newTransfer r h
  have hn : NoTransfer (newTransfer r s) := ⟨rfl, rfl, rfl, rfl, rfl⟩
  refine transfer_cases (P := State.Inv) ?_ ?_ ?_ ?_
  · intro _; exact inv_fail (hv.base _ hb)
  · intro h1 hd
    exact inv_startWrite (hv.base _ hb) (hv.transfer _ hn) (by rw [hv.setupReq]; rfl) (hv.accepts _ h1 hd)
  · intro buf h1 hd _
    exact inv_startRead _ ((hg hd).base _ hb h1) ((hg hd).pendOut _ (hv.transfer _ hn).pendOut) (by have := r.length.isLt; omega)
  · intro h1 hd _
    exact inv_fail ((hg hd).base _ hb h1)

end Sys2Proof.Laws
end

