-- ==== Sys2Proof/Laws/Requests.lean ====
section
/-! SUPPORT. That each handler's `validate`, `execute_get` and `execute_set` keep the invariant's part that no engine register
enters. -/

namespace Sys2Proof.Laws

open Machine

/-! The class validator. -/

theorem base_classError {s : State} {c : StatusCode} (h : Base s) (hc : c ≠ .ok) : Base (classError c s) := by
  refine ⟨h.config, h.flash, h.usbAddr, ?_⟩
  refine ⟨⟨by simp, by simp⟩, by simp [hc], ?_, by simp⟩
  intro pb hpb
  obtain ⟨_, h2⟩ := h.classInv.block pb hpb
  exact ⟨.inr rfl, h2⟩

theorem validateLaw_classJudge {q : DfuRequest} {r : SetupRequest} (ht : r.type = .classReq)
    (hs : DfuRequest.ofSelector r.dir r.code = some q) : ValidateLaw r (classJudge q r) := by
  constructor
  · intro s h
    obtain h' | ⟨_, _, h'⟩ | h' := classJudge_cases q r s <;> rw [h']
    · exact h
    · exact h
    · exact base_classError h (by simp)
  · intro s h
    obtain h' | ⟨_, _, h'⟩ | h' := classJudge_cases q r s <;> rw [h']
    · exact h
    · exact h
    · exact ⟨h.cts, h.pendOut, h.xferLen, h.xferPos, h.xferData⟩
  · intro s
    obtain h' | ⟨_, _, h'⟩ | h' := classJudge_cases q r s <;> rw [h']
    rfl
  · intro s ha hd
    obtain h' | ⟨hg, hl, h'⟩ | h' := classJudge_cases q r s <;> rw [h'] at ha ⊢
    · simp at ha
    · refine ⟨hd, ?_⟩
      rw [ht]
      exact ⟨q, hs, hg, hl⟩
    · simp at ha

/-! The class reads. -/

theorem code_ok_of_not_error {s : State} (h : Base s) (hs : s.dfuState ≠ .error) : s.dfuStatusCode = .ok := by
  by_contra hc
  exact hs (h.classInv.errorCode.mpr hc)

/-- Where no block and no manifestation can be pending, the state may change to any resting state. -/
theorem classInv_rest {s t : State} (h : Base s) (hs : s.dfuState ≠ .error ∧ s.dfuState ≠ .dnloadSync ∧ s.dfuState ≠ .manifestSync)
    (hp : t.pending = s.pending) (hc : t.dfuStatusCode = s.dfuStatusCode)
    (ht : t.dfuState ≠ .dnBusy ∧ t.dfuState ≠ .manifest ∧ t.dfuState ≠ .error) : ClassInv t := by
  have hno : t.pending = .noWork := by
    rw [hp]
    cases hw : s.pending with
    | noWork => rfl
    | block pb =>
      obtain ⟨h1 | h1, _⟩ := h.classInv.block pb hw
      · exact absurd h1 hs.2.1
      · exact absurd h1 hs.1
    | manifestWork =>
      obtain h1 | h1 := h.classInv.manifestWork hw
      · exact absurd h1 hs.2.2
      · exact absurd h1 hs.1
  refine classInv_of_noWork hno ⟨ht.1, ht.2.1⟩ ⟨fun he => absurd he ht.2.2, fun he => ?_⟩
  rw [hc, code_ok_of_not_error h hs.1] at he
  exact absurd rfl he

theorem base_uploadGet {s : State} (r : SetupRequest) (h : Base s) (hs : s.dfuState = .idle ∨ s.dfuState = .uploadIdle) :
    Base (uploadGet r s).2 := by
  have hs' : s.dfuState ≠ .error ∧ s.dfuState ≠ .dnloadSync ∧ s.dfuState ≠ .manifestSync := by
    obtain h1 | h1 := hs <;> simp [h1]
  unfold uploadGet
  dsimp only
  split
  · exact ⟨h.config, h.flash, h.usbAddr, classInv_rest h hs' rfl rfl ⟨by simp, by simp, by simp⟩⟩
  · exact ⟨h.config, h.flash, h.usbAddr, classInv_rest h hs' rfl rfl ⟨by simp, by simp, by simp⟩⟩

theorem base_pollBlock {s : State} (pb : PendingBlock) (h : Base s) (hs : s.dfuState = .dnloadSync) :
    Base (pollBlock pb s).2 := by
  have hok := code_ok_of_not_error h (by simp [hs])
  unfold pollBlock
  dsimp only
  refine ⟨by simpa using h.config, ?_, by simpa using h.usbAddr, ?_⟩
  · rw [blockExec_eq]
    simpa using blockOutcome_wf s.cfg pb s.flash h.flash
  · apply classInv_of_noWork (by simp)
    · rw [blockExec_eq, apply_dfuState]
      split <;> simp
    · rw [blockExec_eq, apply_dfuState, apply_dfuStatusCode]
      have he := blockOutcome_error s.cfg pb s.flash
      cases hc : (blockOutcome s.cfg pb s.flash).error with
      | none => simp [hok]
      | some c =>
        have : c ≠ .ok := by rintro rfl; exact he hc
        simp [this]

theorem base_pollInto {s : State} (d : DfuState) (h : Base s) (hp : s.pending = .noWork) (hs : s.dfuState ≠ .error)
    (hd : d ≠ .dnBusy ∧ d ≠ .manifest ∧ d ≠ .error) : Base (pollInto d s).2 := by
  refine ⟨h.config, h.flash, h.usbAddr, classInv_of_noWork hp ⟨hd.1, hd.2.1⟩ ⟨fun he => absurd he hd.2.2, fun he => ?_⟩⟩
  exact absurd (code_ok_of_not_error h hs) he

theorem base_pollInto_same {s : State} (h : Base s) : Base (pollInto s.dfuState s).2 := h

theorem base_getstatusGet {s : State} (h : Base s) : Base (getstatusGet s).2 := by
  unfold getstatusGet
  cases hs : s.dfuState with
  | dnloadSync =>
    cases hp : s.pending with
    | block pb => exact base_pollBlock pb h hs
    | noWork => exact base_pollInto _ h hp (by simp [hs]) (by simp)
    | manifestWork =>
      obtain h1 | h1 := h.classInv.manifestWork hp <;> simp [hs] at h1
  | manifestSync =>
    cases hp : s.pending with
    | block pb => obtain ⟨h1 | h1, _⟩ := h.classInv.block pb hp <;> simp [hs] at h1
    | noWork => exact base_pollInto _ h hp (by simp [hs]) (by simp)
    | manifestWork =>
      refine ⟨h.config, h.flash, h.usbAddr, classInv_of_noWork rfl ⟨?_, ?_⟩ ⟨?_, ?_⟩⟩
      · simp [pollManifest]
      · simp [pollManifest]
      · simp [pollManifest]
      · intro he
        exact absurd (code_ok_of_not_error h (by simp [hs])) he
  | idle => dsimp only; rw [← hs]; exact base_pollInto_same h
  | dnBusy => dsimp only; rw [← hs]; exact base_pollInto_same h
  | dnloadIdle => dsimp only; rw [← hs]; exact base_pollInto_same h
  | manifest => dsimp only; rw [← hs]; exact base_pollInto_same h
  | manifestWaitReset => dsimp only; rw [← hs]; exact base_pollInto_same h
  | uploadIdle => dsimp only; rw [← hs]; exact base_pollInto_same h
  | error => dsimp only; rw [← hs]; exact base_pollInto_same h

theorem getstatusGet_pendOut (s : State) : (getstatusGet s).2.pendOut = s.pendOut := by
  unfold getstatusGet
  repeat' split
  all_goals simp [pollBlock, pollManifest, pollInto, manifestation]

theorem uploadGet_pendOut (r : SetupRequest) (s : State) : (uploadGet r s).2.pendOut = s.pendOut := by
  unfold uploadGet; dsimp only; split <;> rfl

theorem getLaw_dfu {q : DfuRequest} {f : SetupFields} (hd : (requestOfDfu q f).dir = .deviceToHost) :
    GetLaw (classJudge q (requestOfDfu q f)) (dfuRead q (requestOfDfu q f)) := by
  have accepted : ∀ s, (classJudge q (requestOfDfu q f) s).1 = true →
      legal q (requestOfDfu q f) s = true ∧ classJudge q (requestOfDfu q f) s = (true, s) := by
    intro s ha
    obtain h' | ⟨_, hl, h'⟩ | h' := classJudge_cases q (requestOfDfu q f) s <;> rw [h'] at ha
    · simp at ha
    · exact ⟨hl, h'⟩
    · simp at ha
  constructor
  · intro s h ha
    obtain ⟨hl, h'⟩ := accepted s ha
    rw [h']
    cases q with
    | upload =>
      refine base_uploadGet _ h ?_
      simp only [legal, legalIn, Bool.and_eq_true, Bool.or_eq_true, beq_iff_eq] at hl
      exact hl.1
    | getstatus => exact base_getstatusGet h
    | getstate => exact h
    | detach => simp [requestOfDfu, SetupFields.request] at hd
    | dnload => simp [requestOfDfu, SetupFields.request] at hd
    | clrstatus => simp [requestOfDfu, SetupFields.request] at hd
    | abort => simp [requestOfDfu, SetupFields.request] at hd
  · intro s hp
    cases q with
    | upload => exact (uploadGet_pendOut _ s).trans hp
    | getstatus => exact (getstatusGet_pendOut s).trans hp
    | getstate => exact hp
    | detach => exact hp
    | dnload => exact hp
    | clrstatus => exact hp
    | abort => exact hp

theorem ofSelector_requestOfDfu (q : DfuRequest) (f : SetupFields) :
    DfuRequest.ofSelector (requestOfDfu q f).dir (requestOfDfu q f).code = some q ∧
      (requestOfDfu q f).type = .classReq := by
  cases q <;> exact ⟨by simp [requestOfDfu, SetupFields.request, DfuRequest.ofSelector], rfl⟩

/-! The Standard and the Vendor handler. -/

theorem base_handlerState {s t : State} (h : Base s) (hc : t.cfg = s.cfg) (hf : t.flash = s.flash)
    (hu : t.usbAddr = s.usbAddr) (hk : SameClass s t) : Base t := h.congr hc hf hu hk

theorem validateLaw_stdJudge {ok : State → Bool} {r : SetupRequest} (ht : r.type = .standard)
    (hok : ∀ s, ok s = true → r.dir = .hostToDevice → stdRefValidate r s = true) : ValidateLaw r (stdJudge ok r) := by
  constructor
  · intro s h
    unfold stdJudge
    split
    · exact h
    · exact h.congr rfl rfl rfl ⟨rfl, rfl, rfl, rfl⟩
  · intro s h
    unfold stdJudge
    split
    · exact h
    · exact ⟨h.cts, h.pendOut, h.xferLen, h.xferPos, h.xferData⟩
  · intro s
    unfold stdJudge
    split <;> rfl
  · intro s ha hd
    refine ⟨hd, ?_⟩
    rw [ht]
    intro href
    have hcfg : (stdJudge ok r s).2.cfg = s.cfg := by unfold stdJudge; split <;> rfl
    rw [hcfg] at href
    unfold stdJudge at ha ⊢
    rw [href] at ha ⊢
    exact hok s ha hd

theorem getLaw_std {v : State → Bool × State} {get : State → Option (List Byte)} {r : SetupRequest}
    (hv : ValidateLaw r v) : GetLaw v (stdRead get r) := by
  constructor
  · intro s h _
    unfold stdRead
    split
    · exact hv.base s h
    · exact (hv.base s h).congr rfl rfl rfl ⟨rfl, rfl, rfl, rfl⟩
  · intro s hp
    unfold stdRead
    split
    · exact hp
    · exact hp

theorem validateLaw_vnd {r : SetupRequest} (ht : r.type = .vendor) : ValidateLaw r (vndValidate r) := by
  constructor
  · intro s h
    unfold vndValidate
    split
    · exact h
    · exact h.congr rfl rfl rfl ⟨rfl, rfl, rfl, rfl⟩
  · intro s h
    unfold vndValidate
    split
    · exact h
    · exact ⟨h.cts, h.pendOut, h.xferLen, h.xferPos, h.xferData⟩
  · intro s
    unfold vndValidate
    split <;> rfl
  · intro s ha hd
    refine ⟨hd, ?_⟩
    rw [ht]
    show (vndValidate r s).2.cfg.vnd ≠ .ref
    have hcfg : (vndValidate r s).2.cfg = s.cfg := by unfold vndValidate; split <;> rfl
    rw [hcfg]
    intro href
    unfold vndValidate at ha
    rw [href] at ha
    simp at ha

theorem getLaw_vnd {v : State → Bool × State} {r : SetupRequest} (hv : ValidateLaw r v) : GetLaw v (vndGet r) := by
  constructor
  · intro s h _
    unfold vndGet
    split
    · exact hv.base s h
    · exact (hv.base s h).congr rfl rfl rfl ⟨rfl, rfl, rfl, rfl⟩
  · intro s hp
    unfold vndGet
    split
    · exact hp
    · exact hp

/-! Writes executed at the `IN` (R174). -/

theorem base_classWrite {s t : State} (h : Base s) (hc : t.cfg = s.cfg) (hf : t.flash = s.flash)
    (hu : t.usbAddr = s.usbAddr) (hk : ClassInv t) : Base t :=
  ⟨by rw [hc]; exact h.config, by rw [hc, hf]; exact h.flash, by rw [hu]; exact h.usbAddr, hk⟩

theorem base_clrstatusSet {s : State} (h : Base s) : Base (clrstatusSet s) :=
  base_classWrite h rfl rfl rfl (classInv_of_noWork rfl ⟨by simp [clrstatusSet], by simp [clrstatusSet]⟩
    (by simp [clrstatusSet]))

theorem base_abortSet {s : State} (h : Base s) (hs : s.dfuState ≠ .error) : Base (abortSet s) :=
  base_classWrite h rfl rfl rfl (classInv_of_noWork rfl ⟨by simp, by simp⟩ (by simp [code_ok_of_not_error h hs]))

theorem base_endDownload {s : State} (h : Base s) : Base (endDownload s) := by
  unfold endDownload
  split
  · rename_i hs
    have hok := code_ok_of_not_error h (by simp [hs])
    refine base_classWrite h rfl rfl rfl ⟨⟨by simp, by simp⟩, by simp [hok], ?_, ?_⟩
    · intro pb hpb
      dsimp only at hpb
      split at hpb <;> simp at hpb
    · intro _; exact .inl rfl
  · exact h

theorem base_captureBlock {s : State} {r : SetupRequest} {data : List Byte} {a : Nat} (h : Base s)
    (hs : s.dfuState ≠ .error) (hl : 1 ≤ r.length.toNat) (hts : r.length.toNat ≤ s.cfg.ts)
    (hd : data.length = r.length.toNat) (ha : s.cfg.variant = .plainDfu → a = s.addrPtr.toNat) :
    Base (captureBlock r data a s) := by
  refine base_classWrite h rfl rfl rfl ⟨⟨by simp, by simp⟩, by simp [code_ok_of_not_error h hs], ?_, by simp⟩
  intro pb hpb
  simp only [captureBlock_pending, Pending.block.injEq] at hpb
  subst hpb
  exact ⟨.inl rfl, hl, hts, by simp [hd], ha⟩

theorem base_setAddressPointer {s : State} (arg : Word) (h : Base s) (hs : s.dfuState ≠ .error) :
    Base (setAddressPointer arg s).2 :=
  base_classWrite h rfl rfl rfl (classInv_of_noWork rfl ⟨by simp [setAddressPointer], by simp [setAddressPointer]⟩
    (by simp [setAddressPointer, code_ok_of_not_error h hs]))

theorem base_badCommand {s : State} (h : Base s) : Base (badCommand s).2 :=
  base_classWrite h rfl rfl rfl (classInv_of_noWork rfl ⟨by simp [badCommand], by simp [badCommand]⟩
    (by simp [badCommand]))

theorem base_erasePageCommand {s : State} (arg : Word) (h : Base s) (hs : s.dfuState ≠ .error) :
    Base (erasePageCommand arg s).2 := by
  have hok := code_ok_of_not_error h hs
  have hwf := wf_fpErasePage arg.toNat h.flash
  unfold erasePageCommand
  dsimp only
  split
  · split
    · exact ⟨h.config, hwf, h.usbAddr, classInv_of_noWork rfl ⟨by simp, by simp⟩ (by simp [hok])⟩
    · exact ⟨h.config, hwf, h.usbAddr, classInv_of_noWork rfl ⟨by simp, by simp⟩ (by simp)⟩
  · exact ⟨h.config, h.flash, h.usbAddr, classInv_of_noWork rfl ⟨by simp, by simp⟩ (by simp)⟩

theorem base_dfuseCommand {s : State} (n : Half) (data : List Byte) (h : Base s) (hs : s.dfuState ≠ .error) :
    Base (dfuseCommand n data s).2 := by
  unfold dfuseCommand
  split
  · exact base_setAddressPointer _ h hs
  · exact base_erasePageCommand _ h hs
  · exact base_badCommand h

theorem base_dnloadSet {s : State} {r : SetupRequest} {data : List Byte} (h : Base s)
    (hl : legal .dnload r s = true) (hd : data.length = r.length.toNat) :
    ∃ x, dnloadSet r data s = some x ∧ Base x.2 := by
  simp only [legal, legalIn, extraCondition, Bool.and_eq_true, Bool.or_eq_true, Bool.not_eq_true', Bool.and_eq_false_iff,
    beq_iff_eq, decide_eq_true_eq, decide_eq_false_iff_not] at hl
  obtain ⟨hst, hts, hone⟩ := hl
  have hs : s.dfuState ≠ .error := by obtain h1 | h1 := hst <;> simp [h1]
  unfold dnloadSet
  by_cases h0 : r.length.toNat = 0
  · rw [if_pos h0]; exact ⟨_, rfl, base_endDownload h⟩
  · rw [if_neg h0]
    cases hvar : s.cfg.variant with
    | plainDfu => exact ⟨_, rfl, base_captureBlock h hs (by omega) hts hd (fun _ => rfl)⟩
    | dfuse =>
      dsimp only
      by_cases hv0 : r.value = 0
      · rw [if_pos hv0]; exact ⟨_, rfl, base_dfuseCommand _ _ h hs⟩
      · rw [if_neg hv0]
        by_cases hv1 : r.value = 1
        · exfalso
          rw [hvar, hv1] at hone
          simp at hone
          omega
        · rw [if_neg hv1]
          exact ⟨_, rfl, base_captureBlock h hs (by omega) hts hd (by simp [hvar])⟩

theorem base_classSet {s : State} {r : SetupRequest} {q : DfuRequest} {data : List Byte} (h : Base s)
    (hq : DfuRequest.ofSelector r.dir r.code = some q) (hdir : r.dir = .hostToDevice) (hl : legal q r s = true)
    (hd : data.length = r.length.toNat) : ∃ x, classSet r data s = some x ∧ Base x.2 := by
  unfold classSet
  rw [hq]
  cases q with
  | dnload => exact base_dnloadSet h hl hd
  | clrstatus => exact ⟨_, rfl, base_clrstatusSet h⟩
  | abort =>
    refine ⟨_, rfl, base_abortSet h ?_⟩
    intro hs
    simp [legal, legalIn, hs] at hl
  | detach => simp [legal, legalIn] at hl
  | upload =>
    rw [hdir] at hq
    simp only [DfuRequest.ofSelector] at hq
    repeat' split at hq
    all_goals simp at hq
  | getstatus =>
    rw [hdir] at hq
    simp only [DfuRequest.ofSelector] at hq
    repeat' split at hq
    all_goals simp at hq
  | getstate =>
    rw [hdir] at hq
    simp only [DfuRequest.ofSelector] at hq
    repeat' split at hq
    all_goals simp at hq

theorem base_stdRefSet {s : State} {r : SetupRequest} (h : Base s) (hdir : r.dir = .hostToDevice)
    (ha : stdRefValidate r s = true) : ∃ x, stdRefSet r s = some x ∧ Base x.2 := by
  unfold stdRefValidate at ha
  unfold stdRefSet
  rw [hdir] at ha ⊢
  dsimp only at ha ⊢
  split at ha
  · rename_i h5
    rw [if_pos h5]
    refine ⟨_, rfl, ⟨h.config, h.flash, ?_, classInv_congr h.classInv rfl ⟨rfl, rfl, rfl, rfl⟩⟩⟩
    simp only [setAddressOk, Bool.and_eq_true, decide_eq_true_eq] at ha
    have := ha.1.1
    simp only [setAddress_usbAddr, BitVec.toNat_setWidth]
    omega
  · rename_i h5
    split at ha
    · rename_i h9
      rw [if_neg h5, if_pos h9]
      exact ⟨_, rfl, h.congr rfl rfl rfl ⟨rfl, rfl, rfl, rfl⟩⟩
    · simp at ha

/-- A request that validation accepted is executed, and keeps `Base` (R174). -/
theorem base_dispatcherSet {s : State} {r : SetupRequest} {data : List Byte} (h : Base s) (ha : acceptedWrite s r)
    (hd : data.length = r.length.toNat) : ∃ x, dispatcherSet r data s = some x ∧ Base x.2 := by
  obtain ⟨hdir, ha⟩ := ha
  unfold dispatcherSet
  cases ht : r.type with
  | standard =>
    rw [ht] at ha
    dsimp only
    unfold stdSet
    cases hs : s.cfg.std with
    | ref => exact base_stdRefSet h hdir (ha hs)
    | other id => exact ⟨_, rfl, h.congr rfl rfl rfl ⟨rfl, rfl, rfl, rfl⟩⟩
  | classReq =>
    rw [ht] at ha
    obtain ⟨q, hq, _, hl⟩ := ha
    exact base_classSet h hq hdir hl hd
  | vendor =>
    rw [ht] at ha
    dsimp only
    unfold vndSet
    cases hs : s.cfg.vnd with
    | ref => exact absurd hs ha
    | other id => exact ⟨_, rfl, h.congr rfl rfl rfl ⟨rfl, rfl, rfl, rfl⟩⟩
  | reserved => rw [ht] at ha; exact absurd ha id

/-- A bus reset gives `Base` whatever the class group held (R131, R206). -/
theorem base_onReset {s : State} (hc : Config.valid s.cfg = true) (hf : Memory.wf (unlistedByte s.cfg) s.flash = true) :
    Base (onReset s) ∧ NoTransfer (onReset s) := by
  have key : ∀ u : State, u.cfg = s.cfg → u.flash = s.flash → NoTransfer u →
      Base (vndReset (classReset (stdReset u))) ∧ NoTransfer (vndReset (classReset (stdReset u))) := by
    intro u h1 h2 hn
    obtain ⟨n1, n2, n3, n4, n5⟩ := hn
    unfold vndReset stdReset
    split <;> split
    all_goals
      exact ⟨⟨by simpa [stdRefReset, h1] using hc, by simpa [stdRefReset, h1, h2] using hf, by simp [stdRefReset],
        classInv_of_noWork (by simp) (by simp) (by simp)⟩,
        ⟨by simpa [stdRefReset] using n1, by simpa [stdRefReset] using n2, by simpa [stdRefReset] using n3,
          by simpa [stdRefReset] using n4, by simpa [stdRefReset] using n5⟩⟩
  exact key _ rfl rfl ⟨rfl, rfl, rfl, rfl, rfl⟩

end Sys2Proof.Laws
end

