-- ==== Sys2Proof/Laws/Events.lean ====
section
/-! SUPPORT. The events and the steps: what each `IN`, `OUT` and `SETUP` row leaves of the invariant, and the one inversion of
`step`. -/

namespace Sys2Proof.Laws

open Machine

/-! `IN` in the read phases. -/

theorem inv_sendNext {s : State} (h : s.Inv) (hc : s.cts = .dataIn) : (sendNext s).Inv := by
  obtain ⟨r1, r2, r3, _⟩ := h.read (.inl hc)
  obtain ⟨r4, r5, r6⟩ := r3 hc
  have hm := (validFacts h.config).mps
  have hlen := h.cursor.2
  have hb : Base (sendNext s) := (Base.of_inv h).congr rfl rfl rfl ⟨rfl, rfl, rfl, rfl⟩
  have hctsEq : (sendNext s).cts =
      if s.xferPos + min s.cfg.mps (s.xferLen - s.xferPos) = s.xferLen then .lastDataIn else .dataIn := rfl
  have hpos : (sendNext s).xferPos = s.xferPos + min s.cfg.mps (s.xferLen - s.xferPos) := rfl
  have hl : (sendNext s).xferLen = s.xferLen := rfl
  refine ⟨hb.config, hb.flash, hb.usbAddr, by rw [hpos, hl]; omega, ?_, ?_, ?_, hb.classInv⟩
  · intro hc'; rw [hctsEq] at hc'; split at hc' <;> simp at hc'
  · intro _
    refine ⟨r1, r2, ?_, ?_⟩
    · intro hc'
      rw [hctsEq] at hc'
      split at hc'
      · simp at hc'
      · rw [hpos, hl]
        refine ⟨by omega, by omega, ?_⟩
        rw [Nat.min_eq_left (by omega)]
        show (s.xferPos + s.cfg.mps) % s.cfg.mps = 0
        rw [Nat.add_mod_right]
        exact r6
    · intro hc'
      rw [hctsEq] at hc'
      rw [hpos, hl]
      split at hc'
      · assumption
      · simp at hc'
  · intro hc'
    rw [hctsEq] at hc'
    split at hc' <;> simp at hc'

theorem inv_toStatusOut {s : State} (h : s.Inv) (hc : s.cts = .lastDataIn) : ({ s with cts := .statusOut } : State).Inv := by
  obtain ⟨r1, r2, _, r4⟩ := h.read (.inr (.inl hc))
  have hb : Base ({ s with cts := .statusOut } : State) := (Base.of_inv h).congr rfl rfl rfl ⟨rfl, rfl, rfl, rfl⟩
  refine ⟨hb.config, hb.flash, hb.usbAddr, h.cursor, fun hc' => by simp at hc', ?_, fun hc' => by simp at hc', hb.classInv⟩
  intro _
  exact ⟨r1, r2, fun hc' => by simp at hc', fun _ => r4 (by simp [hc])⟩

/-- `IN` in `StatusIn`: there is a request, it is executed, and the transfer ends (R141, R150, R174). -/
theorem exec_inDone_statusIn_of_inv {s : State} (h : s.Inv) (hc : s.cts = .statusIn) :
    ∃ r x, s.pendOut = some r ∧ acceptedWrite s r ∧ s.setupReq = some r ∧
      dispatcherSet r (s.xferData.take s.xferLen) s = some x ∧ Base x.2 ∧
      exec .inDone s = .next (completeWrite x.1 x.2) := by
  obtain ⟨⟨r, w1, w2, w3, w4⟩, _, w6, _, _, w9⟩ := h.write (.inr (.inr hc))
  have hlen : (s.xferData.take s.xferLen).length = r.length.toNat := by
    rw [List.length_take, w6, w9 hc, w3, Nat.min_self]
  obtain ⟨x, hx, hb⟩ := base_dispatcherSet (Base.of_inv h) w4 hlen
  exact ⟨r, x, w1, w4, w2, hx, hb, exec_inDone_writes hc w1 hx⟩

theorem inv_exec_inDone {s : State} (h : s.Inv) : ∃ t, exec .inDone s = .next t ∧ t.Inv := by
  cases hc : s.cts with
  | dataIn => exact ⟨sendNext s, by show onInComplete s = _; unfold onInComplete; rw [hc], inv_sendNext h hc⟩
  | lastDataIn =>
    exact ⟨{ s with cts := .statusOut }, by show onInComplete s = _; unfold onInComplete; rw [hc], inv_toStatusOut h hc⟩
  | statusIn =>
    obtain ⟨_, x, _, _, _, _, hb, he⟩ := exec_inDone_statusIn_of_inv h hc
    exact ⟨_, he, inv_completeWrite x.1 hb⟩
  | stalled => exact ⟨fail s, by show onInComplete s = _; unfold onInComplete; rw [hc], inv_fail (Base.of_inv h)⟩
  | statusOut => exact ⟨fail s, by show onInComplete s = _; unfold onInComplete; rw [hc], inv_fail (Base.of_inv h)⟩
  | dataOut => exact ⟨fail s, by show onInComplete s = _; unfold onInComplete; rw [hc], inv_fail (Base.of_inv h)⟩
  | lastDataOut => exact ⟨fail s, by show onInComplete s = _; unfold onInComplete; rw [hc], inv_fail (Base.of_inv h)⟩

/-! `OUT`. -/

theorem inv_receiveFull {s : State} (p : List Byte) (h : s.Inv) (hc : s.cts = .dataOut) : (receiveFull p s).Inv := by
  obtain ⟨⟨r, w1, w2, w3, w4⟩, w5, w6, w7, _, _⟩ := h.write (.inl hc)
  have hw := w7 hc
  have hcur := h.cursor
  have hm := (validFacts h.config).mps
  unfold receiveFull
  split
  · rename_i hp
    have hb : Base ({ storePacket p s with
        cts := if s.xferLen - (s.xferPos + p.length) ≤ s.cfg.mps then .lastDataOut else .dataOut } : State) :=
      (Base.of_inv h).congr rfl rfl rfl ⟨rfl, rfl, rfl, rfl⟩
    have hacc := acceptedWrite_congr (t := ({ storePacket p s with
      cts := if s.xferLen - (s.xferPos + p.length) ≤ s.cfg.mps then .lastDataOut else .dataOut } : State)) w4 rfl rfl rfl
    refine ⟨hb.config, hb.flash, hb.usbAddr, ?_, ?_, ?_, ?_, hb.classInv⟩
    · simp only [storePacket_xferPos, storePacket_xferLen]; omega
    · intro hc'; dsimp only at hc'; split at hc' <;> simp at hc'
    · intro hc'; dsimp only at hc'; split at hc' <;> simp at hc'
    · intro _
      refine ⟨⟨r, w1, w2, w3, hacc⟩, w5, ?_, ?_, ?_, ?_⟩
      · simp only [storePacket_xferData, storePacket_xferPos, List.length_append, List.length_take, w6]
        omega
      · intro hc'
        dsimp only at hc'
        split at hc'
        · simp at hc'
        · simp only [storePacket_xferPos, storePacket_xferLen, storePacket_cfg]; omega
      · intro hc'
        dsimp only at hc'
        split at hc'
        · simp only [storePacket_xferPos, storePacket_xferLen, storePacket_cfg]; omega
        · simp at hc'
      · intro hc'
        dsimp only at hc'
        split at hc' <;> simp at hc'
  · exact inv_fail (Base.of_inv h)

theorem inv_receiveLast {s : State} (p : List Byte) (h : s.Inv) (hc : s.cts = .lastDataOut) : (receiveLast p s).Inv := by
  obtain ⟨⟨r, w1, w2, w3, w4⟩, w5, w6, _, w8, _⟩ := h.write (.inr (.inl hc))
  have hw := w8 hc
  have hcur := h.cursor
  unfold receiveLast
  split
  · rename_i hp
    have hb : Base ({ emit .zlp (storePacket p s) with cts := .statusIn } : State) :=
      (Base.of_inv h).congr rfl rfl rfl ⟨rfl, rfl, rfl, rfl⟩
    have hacc := acceptedWrite_congr (t := ({ emit .zlp (storePacket p s) with cts := .statusIn } : State)) w4 rfl rfl rfl
    refine ⟨hb.config, hb.flash, hb.usbAddr, ?_, fun hc' => by simp at hc', fun hc' => by simp at hc', ?_, hb.classInv⟩
    · simp only [emit_xferPos, emit_xferLen, storePacket_xferPos, storePacket_xferLen]; omega
    · intro _
      refine ⟨⟨r, w1, w2, w3, hacc⟩, w5, ?_, fun hc' => by simp at hc', fun hc' => by simp at hc', ?_⟩
      · simp only [emit_xferData, emit_xferPos, storePacket_xferData, storePacket_xferPos, List.length_append,
          List.length_take, w6]
        omega
      · intro _
        simp only [emit_xferPos, emit_xferLen, storePacket_xferPos, storePacket_xferLen]; omega
  · exact inv_fail (Base.of_inv h)

theorem inv_receiveStatus {s : State} (p : List Byte) (h : s.Inv) (hc : s.cts = .statusOut) : (receiveStatus p s).Inv := by
  obtain ⟨r1, _, _, _⟩ := h.read (.inr (.inr hc))
  have hb := Base.of_inv h
  unfold receiveStatus
  dsimp only
  split
  · exact inv_of_noTransfer (hb.congr rfl rfl rfl ⟨rfl, rfl, rfl, rfl⟩) ⟨rfl, r1, rfl, rfl, rfl⟩
  · exact inv_of_noTransfer (hb.congr rfl rfl rfl ⟨rfl, rfl, rfl, rfl⟩) ⟨rfl, r1, rfl, rfl, rfl⟩

theorem inv_onOutComplete {s : State} (p : List Byte) (h : s.Inv) : (onOutComplete p s).Inv := by
  unfold onOutComplete
  cases hc : s.cts with
  | dataOut => exact inv_receiveFull p h hc
  | lastDataOut => exact inv_receiveLast p h hc
  | statusOut => exact inv_receiveStatus p h hc
  | stalled => exact inv_fail (Base.of_inv h)
  | dataIn => exact inv_fail (Base.of_inv h)
  | lastDataIn => exact inv_fail (Base.of_inv h)
  | statusIn => exact inv_fail (Base.of_inv h)

/-! The `SETUP` rows. -/

theorem inv_exec_dfu (q : DfuRequest) (f : SetupFields) {s : State} (h : Base s) :
    ∃ t, exec (instrOfDfu q f) s = .next t ∧ t.Inv := by
  obtain ⟨hq, ht⟩ := ofSelector_requestOfDfu q f
  exact ⟨_, exec_instrOfDfu q f s, inv_transfer h (validateLaw_classJudge ht hq) getLaw_dfu⟩

theorem inv_stdTransfer {ok : State → Bool} {get : State → Option (List Byte)} {r : SetupRequest} {s : State} (h : Base s)
    (ht : r.type = .standard) (hok : ∀ s, ok s = true → r.dir = .hostToDevice → stdRefValidate r s = true) :
    (transfer r (stdJudge ok r) (stdRead get r) s).Inv :=
  inv_transfer h (validateLaw_stdJudge ht hok) fun _ => getLaw_std (validateLaw_stdJudge ht hok)

theorem inv_stallRequest {s : State} (r : SetupRequest) (h : Base s) : (stallRequest r s).Inv :=
  inv_fail (base_newTransfer r h)

/-- Every `SETUP` row leaves the invariant, from any state whose class group, flash and address are in order. -/
theorem inv_exec_setup {i : Instr} (hi : isSetup i = true) {s : State} (h : Base s) :
    ∃ t, exec i s = .next t ∧ t.Inv := by
  cases i with
  | setup p =>
    refine ⟨_, rfl, ?_⟩
    unfold onSetup
    cases hp : decodeRequest p with
    | none => exact inv_fail (h.congr rfl rfl rfl ⟨rfl, rfl, rfl, rfl⟩)
    | some r =>
      dsimp only
      cases ht : r.type with
      | standard =>
        have hv : ValidateLaw r (dispatcherValidate r) := by
          unfold dispatcherValidate; rw [ht]; exact validateLaw_stdJudge ht fun _ h _ => h
        refine inv_transfer h hv fun _ => ?_
        unfold dispatcherGet
        rw [ht]
        exact getLaw_std hv
      | classReq =>
        unfold dispatcherValidate dispatcherGet
        rw [ht]
        dsimp only
        cases hq : DfuRequest.ofSelector r.dir r.code with
        | none =>
          have hcv : classValidate r = fun s => (false, s) := by funext s; unfold classValidate; rw [hq]
          rw [hcv]
          exact inv_fail (base_newTransfer r h)
        | some q =>
          have hcv : classValidate r = classJudge q r := by funext s; unfold classValidate; rw [hq]
          rw [hcv]
          refine inv_transfer h (validateLaw_classJudge ht hq) fun hd => ?_
          obtain ⟨f, rfl⟩ : ∃ f, r = requestOfDfu q f := by
            refine ⟨r.fields, ?_⟩
            cases r with
            | mk d t rc c v ix ln =>
              dsimp only at ht hq
              subst ht
              cases d <;> simp only [DfuRequest.ofSelector] at hq <;> (repeat' split at hq) <;>
                simp_all [requestOfDfu, SetupFields.request, SetupRequest.fields]
              all_goals (subst hq; rfl)
          have hg : classGet (requestOfDfu q f) = dfuRead q (requestOfDfu q f) := by
            funext s; unfold classGet; rw [hq]; cases q <;> rfl
          rw [hg]
          exact getLaw_dfu hd
      | vendor =>
        have hv : ValidateLaw r (dispatcherValidate r) := by
          unfold dispatcherValidate; rw [ht]; exact validateLaw_vnd ht
        refine inv_transfer h hv fun _ => ?_
        unfold dispatcherGet
        rw [ht]
        exact getLaw_vnd hv
      | reserved =>
        unfold dispatcherValidate
        rw [ht]
        exact inv_fail (base_newTransfer r h)
  | handlerStandard d c f => exact ⟨_, rfl, inv_stdTransfer h rfl (by simp)⟩
  | handlerClass d c f => exact ⟨_, rfl, inv_stallRequest _ h⟩
  | handlerVendor d c f => exact ⟨_, rfl, inv_transfer h (validateLaw_vnd rfl) fun _ => getLaw_vnd (validateLaw_vnd rfl)⟩
  | handlerReserved d c f => exact ⟨_, rfl, inv_stallRequest _ h⟩
  | dfuDetach f => exact inv_exec_dfu .detach f h
  | dfuDnload f => exact inv_exec_dfu .dnload f h
  | dfuUpload f => exact inv_exec_dfu .upload f h
  | dfuGetstatus f => exact inv_exec_dfu .getstatus f h
  | dfuClrstatus f => exact inv_exec_dfu .clrstatus f h
  | dfuGetstate f => exact inv_exec_dfu .getstate f h
  | dfuAbort f => exact inv_exec_dfu .abort f h
  | stdSetAddress f =>
    exact ⟨_, rfl, inv_stdTransfer h rfl (by intro s hs _; simpa [stdRefValidate, SetupFields.request] using hs)⟩
  | stdGetDescriptor f => exact ⟨_, rfl, inv_stdTransfer h rfl (by intro s _ hd; simp [SetupFields.request] at hd)⟩
  | stdGetConfiguration f => exact ⟨_, rfl, inv_stdTransfer h rfl (by intro s _ hd; simp [SetupFields.request] at hd)⟩
  | stdSetConfiguration f =>
    exact ⟨_, rfl, inv_stdTransfer h rfl (by intro s hs _; simpa [stdRefValidate, SetupFields.request] using hs)⟩
  | reset => simp [isSetup] at hi
  | inDone => simp [isSetup] at hi
  | outDone p => simp [isSetup] at hi
  | dfuseSetAddressPointer a => simp [isSetup] at hi
  | dfuseErasePage a => simp [isSetup] at hi

end Sys2Proof.Laws
end

