-- ==== Sys2Proof/Laws/PerInstr.lean ====
section
/-! SUPPORT. The per-instruction family `TableRow`: the encoder's words are words of the instruction's row in
spec/opcode_table.json. A statement about syntax: it holds of a term, well-formed or not, and tells nothing of its meaning. -/

namespace Sys2Proof.Laws

/-- The bytes as one number, bit 0 the least significant bit of the first byte (R96, the table's numbering). -/
def tableNumber : List Byte → Nat
  | [] => 0
  | b :: bs => b.toNat + 256 * tableNumber bs

/-- The number's bits `lo` to `lo + width - 1` are `value`. -/
def fixedBits (bytes : List Byte) (lo width value : Nat) : Prop := tableNumber bytes / 2 ^ lo % 2 ^ width = value

/-- The first byte of a packet, by its three fields (R94). -/
theorem toNat_requestType (d : BitVec 1) (t : BitVec 2) (r : BitVec 5) :
    (d ++ t ++ r).toNat = 128 * d.toNat + 32 * t.toNat + r.toNat := by
  revert d t r
  decide

/-- The selector bits of a packet: `bRequest`, `dir` and `type` (mask `0xFFE0` of R96). -/
theorem fixedBits_selector (r : SetupRequest) :
    fixedBits (encodeRequest r) 5 11 (8 * r.code.toNat + 4 * r.dir.bit.toNat + r.type.bits.toNat) := by
  have h1 := r.dir.bit.isLt
  have h2 := r.type.bits.isLt
  have h3 := r.recipient.isLt
  have h4 := r.code.isLt
  simp only [fixedBits, encodeRequest, tableNumber, toNat_requestType]
  omega

/-- The type bits of a packet (mask `0x60` of R96). -/
theorem fixedBits_type (r : SetupRequest) : fixedBits (encodeRequest r) 5 2 r.type.bits.toNat := by
  have h := fixedBits_selector r
  have h2 := r.type.bits.isLt
  unfold fixedBits at *
  omega

/-- A command's first byte (mask `0xFF` of the table's DFUSE_CMD40 rows). -/
theorem fixedBits_command (b : Byte) (bs : List Byte) : fixedBits (b :: bs) 0 8 b.toNat := by
  have h := b.isLt
  simp only [fixedBits, tableNumber]
  omega

namespace TableRow

/-- The format and the fixed bits (`lo`, width, value) that the opcode table gives the instruction's row. -/
def row : Instr → Format × Nat × Nat × Nat
  | .reset => (.event, 0, 2, 0)
  | .setup _ => (.event, 0, 2, 1)
  | .inDone => (.event, 0, 2, 2)
  | .outDone _ => (.event, 0, 2, 3)
  | .handlerStandard _ _ _ => (.setup64, 5, 2, 0)
  | .handlerClass _ _ _ => (.setup64, 5, 2, 1)
  | .handlerVendor _ _ _ => (.setup64, 5, 2, 2)
  | .handlerReserved _ _ _ => (.setup64, 5, 2, 3)
  | .dfuDetach _ => (.setup64, 5, 11, 1)
  | .dfuDnload _ => (.setup64, 5, 11, 9)
  | .dfuUpload _ => (.setup64, 5, 11, 21)
  | .dfuGetstatus _ => (.setup64, 5, 11, 29)
  | .dfuClrstatus _ => (.setup64, 5, 11, 33)
  | .dfuGetstate _ => (.setup64, 5, 11, 45)
  | .dfuAbort _ => (.setup64, 5, 11, 49)
  | .dfuseSetAddressPointer _ => (.dfuseCmd40, 0, 8, 33)
  | .dfuseErasePage _ => (.dfuseCmd40, 0, 8, 65)
  | .stdSetAddress _ => (.setup64, 5, 11, 40)
  | .stdGetDescriptor _ => (.setup64, 5, 11, 52)
  | .stdGetConfiguration _ => (.setup64, 5, 11, 68)
  | .stdSetConfiguration _ => (.setup64, 5, 11, 72)

/-- The encoding under the table's command bytes is in the row's format and has the row's fixed bits. -/
def Statement (i : Instr) : Prop :=
  (encode CmdCodes.ref i).1 = (row i).1 ∧
    fixedBits (encode CmdCodes.ref i).2 (row i).2.1 (row i).2.2.1 (row i).2.2.2

theorem reset : Statement .reset := ⟨rfl, rfl⟩

theorem setup (payload : List Byte) : Statement (.setup payload) := by
  refine ⟨rfl, ?_⟩
  change (1 + 256 * tableNumber payload) / 1 % 4 = 1
  omega

theorem inDone : Statement .inDone := ⟨rfl, rfl⟩

theorem outDone (packet : List Byte) : Statement (.outDone packet) := by
  refine ⟨rfl, ?_⟩
  change (3 + 256 * tableNumber packet) / 1 % 4 = 3
  omega

theorem handlerStandard (dir : Dir) (code : Byte) (f : SetupFields) : Statement (.handlerStandard dir code f) :=
  ⟨rfl, fixedBits_type _⟩

theorem handlerClass (dir : Dir) (code : Byte) (f : SetupFields) : Statement (.handlerClass dir code f) :=
  ⟨rfl, fixedBits_type _⟩

theorem handlerVendor (dir : Dir) (code : Byte) (f : SetupFields) : Statement (.handlerVendor dir code f) :=
  ⟨rfl, fixedBits_type _⟩

theorem handlerReserved (dir : Dir) (code : Byte) (f : SetupFields) : Statement (.handlerReserved dir code f) :=
  ⟨rfl, fixedBits_type _⟩

theorem dfuDetach (f : SetupFields) : Statement (.dfuDetach f) := ⟨rfl, fixedBits_selector _⟩

theorem dfuDnload (f : SetupFields) : Statement (.dfuDnload f) := ⟨rfl, fixedBits_selector _⟩

theorem dfuUpload (f : SetupFields) : Statement (.dfuUpload f) := ⟨rfl, fixedBits_selector _⟩

theorem dfuGetstatus (f : SetupFields) : Statement (.dfuGetstatus f) := ⟨rfl, fixedBits_selector _⟩

theorem dfuClrstatus (f : SetupFields) : Statement (.dfuClrstatus f) := ⟨rfl, fixedBits_selector _⟩

theorem dfuGetstate (f : SetupFields) : Statement (.dfuGetstate f) := ⟨rfl, fixedBits_selector _⟩

theorem dfuAbort (f : SetupFields) : Statement (.dfuAbort f) := ⟨rfl, fixedBits_selector _⟩

theorem dfuseSetAddressPointer (arg : Word) : Statement (.dfuseSetAddressPointer arg) := ⟨rfl, fixedBits_command _ _⟩

theorem dfuseErasePage (arg : Word) : Statement (.dfuseErasePage arg) := ⟨rfl, fixedBits_command _ _⟩

theorem stdSetAddress (f : SetupFields) : Statement (.stdSetAddress f) := ⟨rfl, fixedBits_selector _⟩

theorem stdGetDescriptor (f : SetupFields) : Statement (.stdGetDescriptor f) := ⟨rfl, fixedBits_selector _⟩

theorem stdGetConfiguration (f : SetupFields) : Statement (.stdGetConfiguration f) := ⟨rfl, fixedBits_selector _⟩

theorem stdSetConfiguration (f : SetupFields) : Statement (.stdSetConfiguration f) := ⟨rfl, fixedBits_selector _⟩

end TableRow

end Sys2Proof.Laws
end

