-- ==== Sys2Proof/Laws/Step.lean ====
section
/-! SUPPORT. One inversion of `step`, and the command rows as the `IN` they are. -/

namespace Sys2Proof.Laws

open Machine

theorem isSetup_ofRequest (r : SetupRequest) : isSetup (Instr.ofRequest r) = true := by
  unfold Instr.ofRequest
  cases r.type with
  | standard => cases r.dir <;> dsimp only [Instr.ofStandard] <;> (repeat' split) <;> rfl
  | classReq =>
    dsimp only [Instr.ofClass]
    cases DfuRequest.ofSelector r.dir r.code with
    | none => rfl
    | some q => cases q <;> rfl
  | vendor => rfl
  | reserved => rfl

theorem isSetup_decodeSetup (p : List Byte) : isSetup (decodeSetup p) = true := by
  unfold decodeSetup
  split
  · exact isSetup_ofRequest _
  · rfl

/-- What it says that a command waits for the `IN` (R252). -/
theorem awaitedCommand_some {s : State} {c : DfuseCommand} (h : awaitedCommand s = some c) :
    s.cts = .statusIn ∧ ∃ r, s.pendOut = some r ∧ isCommandRequest s.cfg r = true ∧
      commandOf s.cfg r.length (s.xferData.take s.xferLen) = .ok c := by
  unfold awaitedCommand at h
  split at h
  · rename_i r hc hp
    split at h
    · rename_i hr
      refine ⟨hc, r, hp, hr, ?_⟩
      revert h
      cases commandOf s.cfg r.length (s.xferData.take s.xferLen) <;> simp [Except.toOption]
    · simp at h
  · simp at h

/-- A command request is executed by `DfuSeCommand` (R220). -/
theorem dispatcherSet_command {s : State} {r : SetupRequest} {data : List Byte} (h : isCommandRequest s.cfg r = true) :
    dispatcherSet r data s = some (dfuseCommand r.length data s) := by
  simp only [isCommandRequest, Bool.and_eq_true, beq_iff_eq, decide_eq_true_eq] at h
  obtain ⟨⟨⟨⟨hv, ht⟩, hq⟩, h0⟩, hl⟩ := h
  unfold dispatcherSet
  rw [ht]
  dsimp only [classSet]
  rw [hq]
  dsimp only [dnloadSet]
  rw [if_neg (by omega), hv]
  dsimp only
  rw [if_pos h0]

/-- Running a command's row is running the `IN` that completes its transfer. -/
theorem exec_ofCommand {s : State} {c : DfuseCommand} (h : awaitedCommand s = some c) :
    exec (Instr.ofCommand c) s = exec .inDone s := by
  obtain ⟨hc, r, hp, hr, hk⟩ := awaitedCommand_some h
  rw [exec_inDone_writes hc hp (dispatcherSet_command hr)]
  unfold dfuseCommand
  rw [hk]
  cases c <;> rfl

/-- Whatever an `IN` is decoded as, running it is running `IN`. -/
theorem exec_instrOf_inDone (s : State) (rest : List Event) :
    exec (instrOf s .inDone) { s with events := rest } = exec .inDone { s with events := rest } := by
  unfold instrOf
  cases h : awaitedCommand s with
  | none => rfl
  | some c =>
    have h' : awaitedCommand ({ s with events := rest } : State) = some c := h
    exact exec_ofCommand h'

/-- A step is a wait, or one event's instruction on the state with that event taken. -/
theorem step_eq {s : State} (hc : Config.valid s.cfg = true) :
    step s = match s.events with
      | [] => .next s
      | e :: rest => exec (instrOf s e) { s with events := rest } := by
  unfold step configAccepted fetch
  rw [hc]
  cases s.events <;> rfl

/-- The one inversion of `step`: the machine waits, or it handled the oldest event; the four kinds in their own forms. -/
theorem step_cases {s t : State} (h : step s = .next t) :
    Config.valid s.cfg = true ∧
    ((s.events = [] ∧ t = s) ∨
     (∃ rest, s.events = .reset :: rest ∧ t = onReset { s with events := rest }) ∨
     (∃ rest p, s.events = .setup p :: rest ∧ exec (decodeSetup p) { s with events := rest } = .next t) ∨
     (∃ rest, s.events = .inDone :: rest ∧ exec .inDone { s with events := rest } = .next t) ∨
     (∃ rest p, s.events = .outDone p :: rest ∧ t = onOutComplete p { s with events := rest })) := by
  cases hc : Config.valid s.cfg with
  | false => simp [step, configAccepted, hc] at h
  | true =>
    refine ⟨rfl, ?_⟩
    rw [step_eq hc] at h
    cases he : s.events with
    | nil =>
      rw [he] at h
      exact .inl ⟨rfl, by simpa using h.symm⟩
    | cons e rest =>
      rw [he] at h
      refine .inr ?_
      cases e with
      | reset =>
        refine .inl ⟨rest, rfl, ?_⟩
        have h' : Host.Outcome.next (onReset { s with events := rest }) = .next t := h
        injection h' with h'
        exact h'.symm
      | setup p => exact .inr (.inl ⟨rest, p, rfl, h⟩)
      | inDone => exact .inr (.inr (.inl ⟨rest, rfl, (exec_instrOf_inDone s rest).symm.trans h⟩))
      | outDone p =>
        refine .inr (.inr (.inr ⟨rest, p, rfl, ?_⟩))
        have h' : Host.Outcome.next (onOutComplete p { s with events := rest }) = .next t := h
        injection h' with h'
        exact h'.symm

/-- Taking an event off the input keeps the invariant. -/
theorem inv_takeEvent {s : State} (rest : List Event) (h : s.Inv) : ({ s with events := rest } : State).Inv := by
  have hb : Base ({ s with events := rest } : State) := (Base.of_inv h).congr rfl rfl rfl ⟨rfl, rfl, rfl, rfl⟩
  refine ⟨h.config, h.flash, h.usbAddr, h.cursor, h.idle, h.read, ?_, hb.classInv⟩
  intro hc
  obtain ⟨⟨r, w1, w2, w3, w4⟩, w⟩ := h.write hc
  exact ⟨⟨r, w1, w2, w3, acceptedWrite_congr w4 rfl rfl rfl⟩, w⟩

end Sys2Proof.Laws
end

