-- ==== Sys2Proof/Laws/Rows.lean ====
section
/-! SUPPORT. What a row can do to the class group, to flash and to the trace, said once for all rows: the inversion that the
whole-machine rules rest on. -/

namespace Sys2Proof.Laws

open Machine

/-- What an event appends to the trace: at most one `STALL`, as its last output, and then the transfer is gone. -/
def TraceGrows (s t : State) : Prop :=
  ∃ out, t.trace = s.trace ++ out ∧
    (.stall ∈ out → NoTransfer t ∧ ∃ before, out = before ++ [.stall] ∧ .stall ∉ before)

theorem traceGrows_of_noStall {s t : State} (out : List Action) (h : t.trace = s.trace ++ out) (hn : .stall ∉ out) :
    TraceGrows s t := ⟨out, h, fun hs => absurd hs hn⟩

theorem traceGrows_fail {s u : State} (calls : List Action) (h : u.trace = s.trace ++ calls) (hn : .stall ∉ calls) :
    TraceGrows s (fail u) :=
  ⟨calls ++ [.stall], by simp [h], fun _ => ⟨⟨rfl, rfl, rfl, rfl, rfl⟩, calls, rfl, hn⟩⟩

theorem startRead_traceGrows {s u : State} (buf : List Byte) (n : Nat) (calls : List Action)
    (h : u.trace = s.trace ++ calls) (hn : .stall ∉ calls) : TraceGrows s (startRead buf n u) := by
  refine traceGrows_of_noStall (calls ++ [if min (min buf.length n) u.cfg.mps = 0 then .zlp
    else .tx (buf.take (min (min buf.length n) u.cfg.mps))]) (by rw [startRead_trace, h, List.append_assoc]) ?_
  rw [List.mem_append]
  rintro (h | h)
  · exact hn h
  · split at h <;> simp at h

theorem startWrite_traceGrows {s u : State} (r : SetupRequest) (h : u.trace = s.trace) : TraceGrows s (startWrite r u) := by
  unfold startWrite
  split
  · exact traceGrows_fail [] (by simp [h]) (by simp)
  · split
    · exact traceGrows_of_noStall [.zlp] (by simp [h]) (by simp)
    · exact traceGrows_of_noStall [] (by simp [h]) (by simp)

theorem completeWrite_traceGrows {s u : State} (ok : Bool) (calls : List Action) (h : u.trace = s.trace ++ calls)
    (hn : .stall ∉ calls) : TraceGrows s (completeWrite ok u) := by
  cases ok with
  | false => exact traceGrows_fail calls h hn
  | true => exact traceGrows_of_noStall calls (by simp [h]) hn

/-- The event leaves the class group and flash as they were. -/
structure ClassUntouched (s t : State) : Prop where
  cls   : SameClass s t
  flash : t.flash = s.flash

/-- A transfer whose handler touches no class register and no flash, and emits nothing, leaves both as they were. -/
theorem transfer_untouched {r : SetupRequest} {v : State → Bool × State} {g : State → Option (List Byte) × State}
    {s : State} (hv : ∀ u, ClassUntouched u (v u).2 ∧ (v u).2.trace = u.trace ∧ SameInputs u (v u).2)
    (hg : ∀ u, ClassUntouched u (g u).2 ∧ (g u).2.trace = u.trace ∧ SameInputs u (g u).2) :
    ClassUntouched s (transfer r v g s) ∧ TraceGrows s (transfer r v g s) ∧ SameInputs s (transfer r v g s) := by
  obtain ⟨⟨⟨v1, v2, v3, v4⟩, v5⟩, v6, ⟨v7, v8⟩⟩ := hv (newTransfer r s)
  obtain ⟨⟨⟨g1, g2, g3, g4⟩, g5⟩, g6, ⟨g7, g8⟩⟩ := hg (v (newTransfer r s)).2
  refine transfer_cases (P := fun t => ClassUntouched s t ∧ TraceGrows s t ∧ SameInputs s t) ?_ ?_ ?_ ?_
  · intro _
    exact ⟨⟨⟨by simp [v1], by simp [v2], by simp [v3], by simp [v4]⟩, by simp [v5]⟩,
      traceGrows_fail [] (by simp [v6]) (by simp), ⟨by simp [v7], by simp [v8]⟩⟩
  · intro _ _
    exact ⟨⟨⟨by simp [v1], by simp [v2], by simp [v3], by simp [v4]⟩, by simp [v5]⟩,
      startWrite_traceGrows r (by simp [v6]), ⟨by simp [v7], by simp [v8]⟩⟩
  · intro buf _ _ _
    exact ⟨⟨⟨by simp [g1, v1], by simp [g2, v2], by simp [g3, v3], by simp [g4, v4]⟩, by simp [g5, v5]⟩,
      startRead_traceGrows _ _ [] (by simp [g6, v6]) (by simp), ⟨by simp [g7, v7], by simp [g8, v8]⟩⟩
  · intro _ _ _
    exact ⟨⟨⟨by simp [g1, v1], by simp [g2, v2], by simp [g3, v3], by simp [g4, v4]⟩, by simp [g5, v5]⟩,
      traceGrows_fail [] (by simp [g6, v6]) (by simp), ⟨by simp [g7, v7], by simp [g8, v8]⟩⟩

theorem stdTransfer_untouched (ok : State → Bool) (get : State → Option (List Byte)) (r : SetupRequest) (s : State) :
    ClassUntouched s (transfer r (stdJudge ok r) (stdRead get r) s) ∧
      TraceGrows s (transfer r (stdJudge ok r) (stdRead get r) s) ∧
      SameInputs s (transfer r (stdJudge ok r) (stdRead get r) s) := by
  apply transfer_untouched
  · intro u
    unfold stdJudge
    split <;> exact ⟨⟨⟨rfl, rfl, rfl, rfl⟩, rfl⟩, rfl, ⟨rfl, rfl⟩⟩
  · intro u
    unfold stdRead
    split <;> exact ⟨⟨⟨rfl, rfl, rfl, rfl⟩, rfl⟩, rfl, ⟨rfl, rfl⟩⟩

theorem vndTransfer_untouched (r : SetupRequest) (s : State) :
    ClassUntouched s (transfer r (vndValidate r) (vndGet r) s) ∧ TraceGrows s (transfer r (vndValidate r) (vndGet r) s) ∧
      SameInputs s (transfer r (vndValidate r) (vndGet r) s) := by
  apply transfer_untouched
  · intro u
    unfold vndValidate
    split <;> exact ⟨⟨⟨rfl, rfl, rfl, rfl⟩, rfl⟩, rfl, ⟨rfl, rfl⟩⟩
  · intro u
    unfold vndGet
    split <;> exact ⟨⟨⟨rfl, rfl, rfl, rfl⟩, rfl⟩, rfl, ⟨rfl, rfl⟩⟩

theorem stallRequest_untouched (r : SetupRequest) (s : State) :
    ClassUntouched s (stallRequest r s) ∧ TraceGrows s (stallRequest r s) ∧ SameInputs s (stallRequest r s) :=
  ⟨⟨⟨rfl, rfl, rfl, rfl⟩, rfl⟩, traceGrows_fail [] (by simp) (by simp), ⟨rfl, rfl⟩⟩

/-- The four effects a `SETUP` row can have on the class group and flash: none; the violation; an upload; a poll. -/
def RowEffect (i : Instr) (s t : State) : Prop :=
  ClassUntouched s t ∨
  (∃ r, t = fail (classError .errSTALLEDPKT (newTransfer r s))) ∨
  (∃ f, i = .dfuUpload f ∧ (s.dfuState = .idle ∨ s.dfuState = .uploadIdle) ∧
    t = startRead (uploadGet (requestOfDfu .upload f) (newTransfer (requestOfDfu .upload f) s)).1 f.length.toNat
      (uploadGet (requestOfDfu .upload f) (newTransfer (requestOfDfu .upload f) s)).2) ∨
  (∃ f, i = .dfuGetstatus f ∧ classGate s = true ∧ legal .getstatus (requestOfDfu .getstatus f) s = true ∧
    t = startRead (getstatusGet (newTransfer (requestOfDfu .getstatus f) s)).1 f.length.toNat
      (getstatusGet (newTransfer (requestOfDfu .getstatus f) s)).2)

/-- A row that is a `SETUP` event: it has a next state, keeps the inputs, stalls at most once, and has one of the effects. -/
def SetupEffect (i : Instr) (s : State) : Prop :=
  ∃ t, exec i s = .next t ∧ SameInputs s t ∧ TraceGrows s t ∧ RowEffect i s t

theorem uploadGet_inputs (r : SetupRequest) (u : State) :
    (uploadGet r u).2.cfg = u.cfg ∧ (uploadGet r u).2.events = u.events ∧ (uploadGet r u).2.trace = u.trace := by
  unfold uploadGet; dsimp only; split <;> exact ⟨rfl, rfl, rfl⟩

theorem getstatusGet_inputs (u : State) :
    (getstatusGet u).2.cfg = u.cfg ∧ (getstatusGet u).2.events = u.events ∧
      ∃ calls, (getstatusGet u).2.trace = u.trace ++ calls ∧ Action.stall ∉ calls := by
  unfold getstatusGet
  repeat' split
  all_goals first
    | exact ⟨rfl, rfl, [], (List.append_nil _).symm, by simp⟩
    | skip
  rename_i pb _
  exact ⟨by simp [pollBlock], by simp [pollBlock], _, by simp [pollBlock, blockExec_eq],
    blockOutcome_calls u.cfg pb u.flash⟩

theorem dfu_effect (q : DfuRequest) (f : SetupFields) (s : State) : SetupEffect (instrOfDfu q f) s := by
  cases hg : classGate s with
  | false =>
    exact ⟨_, exec_dfu_gated hg, ⟨rfl, rfl⟩, traceGrows_fail [] (by simp) (by simp), .inl ⟨⟨rfl, rfl, rfl, rfl⟩, rfl⟩⟩
  | true =>
    cases hl : legal q (requestOfDfu q f) s with
    | false =>
      exact ⟨_, exec_dfu_violation hg hl, ⟨rfl, rfl⟩, traceGrows_fail [] (by simp) (by simp), .inr (.inl ⟨_, rfl⟩)⟩
    | true =>
      have write : (requestOfDfu q f).dir = .hostToDevice → SetupEffect (instrOfDfu q f) s := fun hd =>
        ⟨_, exec_dfu_write hg hl hd, ⟨by simp, by simp⟩, startWrite_traceGrows _ (by simp),
          .inl ⟨⟨by simp, by simp, by simp, by simp⟩, by simp⟩⟩
      cases q with
      | detach => exact write rfl
      | dnload => exact write rfl
      | clrstatus => exact write rfl
      | abort => exact write rfl
      | getstate =>
        refine ⟨_, exec_dfu_read hg hl rfl rfl, ⟨by simp [dfuRead, reads, getstateGet], by simp [dfuRead, reads, getstateGet]⟩,
          startRead_traceGrows _ _ [] (by simp [dfuRead, reads, getstateGet]) (by simp), .inl ⟨⟨?_, ?_, ?_, ?_⟩, ?_⟩⟩
        all_goals simp [dfuRead, reads, getstateGet]
      | upload =>
        have hst : s.dfuState = .idle ∨ s.dfuState = .uploadIdle := by
          simp only [legal, legalIn, Bool.and_eq_true, Bool.or_eq_true, beq_iff_eq] at hl
          exact hl.1
        obtain ⟨i1, i2, i3⟩ := uploadGet_inputs (requestOfDfu .upload f) (newTransfer (requestOfDfu .upload f) s)
        exact ⟨_, exec_dfu_read hg hl rfl rfl, ⟨by simp [dfuRead, reads, i1], by simp [dfuRead, reads, i2]⟩,
          startRead_traceGrows _ _ [] (by simp [dfuRead, reads, i3]) (by simp), .inr (.inr (.inl ⟨f, rfl, hst, rfl⟩))⟩
      | getstatus =>
        obtain ⟨i1, i2, calls, i3, i4⟩ := getstatusGet_inputs (newTransfer (requestOfDfu .getstatus f) s)
        exact ⟨_, exec_dfu_read hg hl rfl rfl, ⟨by simp [dfuRead, reads, i1], by simp [dfuRead, reads, i2]⟩,
          startRead_traceGrows _ _ calls (by simp [dfuRead, reads, i3]) i4, .inr (.inr (.inr ⟨f, rfl, hg, hl, rfl⟩))⟩

/-- Every well-formed `SETUP` row has one of the effects. -/
theorem setup_effect {i : Instr} (hi : isSetup i = true) (hw : i.wf = true) (s : State) : SetupEffect i s := by
  have std : ∀ ok get r, exec i s = .next (transfer r (stdJudge ok r) (stdRead get r) s) → SetupEffect i s :=
    fun ok get r h => ⟨_, h, (stdTransfer_untouched ok get r s).2.2, (stdTransfer_untouched ok get r s).2.1,
      .inl (stdTransfer_untouched ok get r s).1⟩
  have stall : ∀ r, exec i s = .next (stallRequest r s) → SetupEffect i s := fun r h =>
    ⟨_, h, (stallRequest_untouched r s).2.2, (stallRequest_untouched r s).2.1, .inl (stallRequest_untouched r s).1⟩
  cases i with
  | setup p =>
    have hp : decodeRequest p = none := (decodeRequest_none_iff p).mpr (by simpa [Instr.wf] using hw)
    refine ⟨parseFailure s, ?_, ⟨rfl, rfl⟩, traceGrows_fail [] (by simp) (by simp), .inl ⟨⟨rfl, rfl, rfl, rfl⟩, rfl⟩⟩
    show Host.Outcome.next (onSetup p s) = _
    unfold onSetup
    rw [hp]
  | handlerStandard d c f => exact std _ _ _ rfl
  | handlerClass d c f => exact stall _ rfl
  | handlerVendor d c f =>
    exact ⟨_, rfl, (vndTransfer_untouched _ s).2.2, (vndTransfer_untouched _ s).2.1, .inl (vndTransfer_untouched _ s).1⟩
  | handlerReserved d c f => exact stall _ rfl
  | dfuDetach f => exact dfu_effect .detach f s
  | dfuDnload f => exact dfu_effect .dnload f s
  | dfuUpload f => exact dfu_effect .upload f s
  | dfuGetstatus f => exact dfu_effect .getstatus f s
  | dfuClrstatus f => exact dfu_effect .clrstatus f s
  | dfuGetstate f => exact dfu_effect .getstate f s
  | dfuAbort f => exact dfu_effect .abort f s
  | stdSetAddress f => exact std _ _ _ rfl
  | stdGetDescriptor f => exact std _ _ _ rfl
  | stdGetConfiguration f => exact std _ _ _ rfl
  | stdSetConfiguration f => exact std _ _ _ rfl
  | reset => simp [isSetup] at hi
  | inDone => simp [isSetup] at hi
  | outDone p => simp [isSetup] at hi
  | dfuseSetAddressPointer a => simp [isSetup] at hi
  | dfuseErasePage a => simp [isSetup] at hi

/-! `OUT` touches neither the class group nor flash. -/

theorem onOutComplete_untouched (p : List Byte) (s : State) :
    ClassUntouched s (onOutComplete p s) ∧ SameInputs s (onOutComplete p s) := by
  unfold onOutComplete
  split
  · unfold receiveFull; split <;> exact ⟨⟨⟨rfl, rfl, rfl, rfl⟩, rfl⟩, ⟨rfl, rfl⟩⟩
  · unfold receiveLast; split <;> exact ⟨⟨⟨rfl, rfl, rfl, rfl⟩, rfl⟩, ⟨rfl, rfl⟩⟩
  · unfold receiveStatus; dsimp only; split <;> exact ⟨⟨⟨rfl, rfl, rfl, rfl⟩, rfl⟩, ⟨rfl, rfl⟩⟩
  all_goals exact ⟨⟨⟨rfl, rfl, rfl, rfl⟩, rfl⟩, ⟨rfl, rfl⟩⟩

/-! The decoder gives well-formed rows. -/

theorem wf_decodeSetup (p : List Byte) : (decodeSetup p).wf = true := by
  unfold decodeSetup
  cases hd : decodeRequest p with
  | none => simpa [Instr.wf] using (decodeRequest_none_iff p).mp hd
  | some r =>
    dsimp only [Instr.ofRequest]
    cases r.type with
    | standard =>
      cases hdir : r.dir <;> simp only [Instr.ofStandard] <;> (repeat' split) <;> simp_all [Instr.wf, standardRows]
    | classReq =>
      simp only [Instr.ofClass]
      cases hq : DfuRequest.ofSelector r.dir r.code with
      | none => simpa [Instr.wf] using (ofSelector_none_iff _ _).mp hq
      | some q => cases q <;> rfl
    | vendor => rfl
    | reserved => rfl

/-! `IN`: the class group and flash change only where it executes a class write (R141). -/

/-- The four ways a class write goes (R211, R220). -/
theorem classSet_cases {r : SetupRequest} {data : List Byte} {s : State} {x : Bool × State}
    (h : classSet r data s = some x) :
    (DfuRequest.ofSelector r.dir r.code = some .clrstatus ∧ x = (true, clrstatusSet s)) ∨
    (DfuRequest.ofSelector r.dir r.code = some .abort ∧ x = (true, abortSet s)) ∨
    (DfuRequest.ofSelector r.dir r.code = some .dnload ∧
      (x = (true, endDownload s) ∨ (∃ a, x = (true, captureBlock r data a s)) ∨
        (s.cfg.variant = .dfuse ∧ r.value = 0 ∧ r.length.toNat ≠ 0 ∧ x = dfuseCommand r.length data s))) := by
  unfold classSet at h
  split at h
  · rename_i hq
    refine .inr (.inr ⟨hq, ?_⟩)
    unfold dnloadSet at h
    split at h
    · left; simpa using h.symm
    · rename_i hl
      split at h
      · right; left; exact ⟨_, by simpa using h.symm⟩
      · rename_i hv
        split at h
        · rename_i h0
          right; right; exact ⟨hv, h0, hl, by simpa using h.symm⟩
        · split at h
          · simp at h
          · right; left; exact ⟨_, by simpa using h.symm⟩
  · rename_i hq; left; exact ⟨hq, by simpa using h.symm⟩
  · rename_i hq; right; left; exact ⟨hq, by simpa using h.symm⟩
  all_goals simp at h

/-- An `IN` either leaves the class group and flash, or executes a class write. -/
theorem inDone_effect {s t : State} (h : exec .inDone s = .next t) :
    (ClassUntouched s t ∧ SameInputs s t ∧ TraceGrows s t) ∨
    (s.cts = .statusIn ∧ ∃ r x, s.pendOut = some r ∧ r.type = .classReq ∧
      classSet r (s.xferData.take s.xferLen) s = some x ∧ t = completeWrite x.1 x.2) := by
  have same : ∀ u : State, ClassUntouched s u → SameInputs s u → TraceGrows s u → onInComplete s = .next u → u = t := by
    intro u _ _ _ hu
    have h' : onInComplete s = .next t := h
    rw [hu] at h'
    injection h'
  have done : ∀ u : State, ClassUntouched s u → SameInputs s u → TraceGrows s u → onInComplete s = .next u →
      ClassUntouched s t ∧ SameInputs s t ∧ TraceGrows s t := by
    intro u h1 h2 h3 hu
    rw [← same u h1 h2 h3 hu]
    exact ⟨h1, h2, h3⟩
  have failed : onInComplete s = .next (fail s) → ClassUntouched s t ∧ SameInputs s t ∧ TraceGrows s t :=
    done _ ⟨⟨rfl, rfl, rfl, rfl⟩, rfl⟩ ⟨rfl, rfl⟩ (traceGrows_fail [] (by simp) (by simp))
  cases hc : s.cts with
  | dataIn =>
    exact .inl (done (sendNext s) ⟨⟨rfl, rfl, rfl, rfl⟩, rfl⟩ ⟨rfl, rfl⟩
      (traceGrows_of_noStall [_] rfl (by simp)) (by unfold onInComplete; rw [hc]))
  | lastDataIn =>
    exact .inl (done { s with cts := .statusOut } ⟨⟨rfl, rfl, rfl, rfl⟩, rfl⟩ ⟨rfl, rfl⟩
      (traceGrows_of_noStall [] (by simp) (by simp)) (by unfold onInComplete; rw [hc]))
  | stalled => exact .inl (failed (by unfold onInComplete; rw [hc]))
  | statusOut => exact .inl (failed (by unfold onInComplete; rw [hc]))
  | dataOut => exact .inl (failed (by unfold onInComplete; rw [hc]))
  | lastDataOut => exact .inl (failed (by unfold onInComplete; rw [hc]))
  | statusIn =>
    cases hp : s.pendOut with
    | none =>
      have h' : onInComplete s = .next t := h
      simp [onInComplete, hc, finishWrite, hp] at h'
    | some r =>
      rw [exec_inDone_statusIn hc hp] at h
      cases hx : dispatcherSet r (s.xferData.take s.xferLen) s with
      | none => rw [hx] at h; simp at h
      | some x =>
        rw [hx] at h
        injection h with ht
        have other : ClassUntouched s x.2 → SameInputs s x.2 → (∃ calls, x.2.trace = s.trace ++ calls ∧ Action.stall ∉ calls) →
            ClassUntouched s t ∧ SameInputs s t ∧ TraceGrows s t := by
          rintro ⟨⟨k1, k2, k3, k4⟩, k5⟩ ⟨i1, i2⟩ ⟨calls, c1, c2⟩
          rw [← ht]
          exact ⟨⟨⟨by simp [k1], by simp [k2], by simp [k3], by simp [k4]⟩, by simp [k5]⟩, ⟨by simp [i1], by simp [i2]⟩,
            completeWrite_traceGrows _ calls c1 c2⟩
        unfold dispatcherSet at hx
        cases htp : r.type with
        | classReq =>
          rw [htp] at hx
          exact .inr ⟨rfl, r, x, rfl, htp, hx, ht.symm⟩
        | standard =>
          rw [htp] at hx
          dsimp only [stdSet] at hx
          left
          split at hx
          · unfold stdRefSet at hx
            split at hx
            · split at hx
              · injection hx with hx; subst hx
                exact other ⟨⟨rfl, rfl, rfl, rfl⟩, rfl⟩ ⟨rfl, rfl⟩ ⟨[_], rfl, by simp⟩
              · split at hx
                · injection hx with hx; subst hx
                  exact other ⟨⟨rfl, rfl, rfl, rfl⟩, rfl⟩ ⟨rfl, rfl⟩ ⟨[], by simp, by simp⟩
                · simp at hx
            · simp at hx
          · injection hx with hx; subst hx
            exact other ⟨⟨rfl, rfl, rfl, rfl⟩, rfl⟩ ⟨rfl, rfl⟩ ⟨_, rfl, by simp⟩
        | vendor =>
          rw [htp] at hx
          dsimp only [vndSet] at hx
          left
          split at hx
          · simp at hx
          · injection hx with hx; subst hx
            exact other ⟨⟨rfl, rfl, rfl, rfl⟩, rfl⟩ ⟨rfl, rfl⟩ ⟨[], by simp, by simp⟩
        | reserved => rw [htp] at hx; simp at hx

/-! The latched request is only a copy: what a row does with another one there is the same, but for the copies. -/

theorem startRead_setupReq_comm (buf : List Byte) (n : Nat) (x : Option SetupRequest) (u : State) :
    startRead buf n { u with setupReq := x } = { startRead buf n u with setupReq := x } := by
  unfold startRead
  dsimp only
  split <;> rfl

theorem apply_setupReq_comm (o : BlockOutcome) (x : Option SetupRequest) (u : State) :
    o.apply { u with setupReq := x } = { o.apply u with setupReq := x } := by
  unfold BlockOutcome.apply
  cases o.error with
  | none => dsimp only; unfold advanceAfterBlock; dsimp only; split <;> rfl
  | some c => rfl

theorem getstatusGet_setupReq_comm (x : Option SetupRequest) (u : State) :
    getstatusGet { u with setupReq := x } = ((getstatusGet u).1, { (getstatusGet u).2 with setupReq := x }) := by
  obtain ⟨cfg, events, trace, cts, sr, po, xd, xl, xp, uds, ua, uc, so, vo, ds, dc, ap, pd, fl⟩ := u
  cases ds <;> first | rfl | skip
  · cases pd with
    | noWork => rfl
    | manifestWork => rfl
    | block pb =>
      dsimp only [getstatusGet, pollBlock]
      rw [blockExec_eq, blockExec_eq]
      exact congrArg (Prod.mk _) (apply_setupReq_comm _ x
        ⟨cfg, events, trace, cts, sr, po, xd, xl, xp, uds, ua, uc, so, vo, .dnBusy, dc, ap, .noWork, fl⟩)
  · cases pd <;> rfl

theorem uploadGet_setupReq_comm {r r' : SetupRequest} (h : r'.length = r.length) (x : Option SetupRequest) (u : State) :
    uploadGet r' { u with setupReq := x } = ((uploadGet r u).1, { (uploadGet r u).2 with setupReq := x }) := by
  unfold uploadGet
  rw [h]
  dsimp only [pointerAddress]
  split <;> rfl

theorem startWrite_comm {r r' : SetupRequest} (h : r'.length = r.length) (s : State) :
    startWrite r' (newTransfer r' s) =
      { startWrite r (newTransfer r s) with
        setupReq := some r', pendOut := (startWrite r (newTransfer r s)).pendOut.map fun _ => r' } := by
  by_cases h1 : s.cfg.ctrlBufSize < r.length.toNat
  · rw [startWrite_oversized (s := newTransfer r s) h1, startWrite_oversized (s := newTransfer r' s) (h ▸ h1)]
    rfl
  · have e : ∀ q : SetupRequest, q.length = r.length → startWrite q (newTransfer q s) =
        if r.length.toNat = 0 then { emit .zlp { newTransfer q s with pendOut := some q } with cts := .statusIn }
        else { newTransfer q s with
          pendOut := some q, xferLen := r.length.toNat, xferPos := 0,
          cts := if r.length.toNat ≤ s.cfg.mps then .lastDataOut else .dataOut } := by
      intro q hq
      unfold startWrite
      rw [hq, if_neg (show ¬(newTransfer q s).cfg.ctrlBufSize < r.length.toNat from h1)]
      rfl
    rw [e r' h, e r rfl]
    split <;> rfl

end Sys2Proof.Laws
end

