-- ==== Sys2Proof/Machine/Transfers.lean ====
section
/-! DEFINITION. The pseudo-instructions of 30_encoding.md R121 and R122: a host-level transfer as the events a well-behaved host
causes. The machine accepts any event sequence; these are only names for some. -/

namespace Sys2Proof.Machine

/-- `d` cut into packets of `mps` bytes, `k` of them (R121). -/
def chunks (mps : Nat) : Nat → List Byte → List (List Byte)
  | 0, _ => []
  | k + 1, d => d.take mps :: chunks mps k (d.drop mps)

/-- `XFER_NODATA s` (R121). -/
def xferNoData (setup : List Byte) : List Event := [.setup setup, .inDone]

/-- `XFER_WRITE s d` (R121). -/
def xferWrite (mps : Nat) (setup d : List Byte) : List Event :=
  .setup setup :: (chunks mps (ceilDiv d.length mps) d).map .outDone ++ [.inDone]

/-- `XFER_READ s`, for a response of `n` bytes (R121). -/
def xferRead (mps : Nat) (setup : List Byte) (n : Nat) : List Event :=
  .setup setup :: List.replicate (max 1 (ceilDiv n mps)) .inDone ++ [.outDone []]

/-- The packet of a DFU request with `index = 0` and recipient = interface (R122). -/
def interfacePacket (dir : Dir) (code : Byte) (value length : Half) : List Byte :=
  encodeRequest { dir := dir, type := .classReq, recipient := 1, code := code, value := value, index := 0, length := length }

/-- `DNLOAD(b, d)` (R122). -/
def hostDnload (mps : Nat) (b : Half) (d : List Byte) : List Event :=
  let setup := interfacePacket .hostToDevice 1 b (BitVec.ofNat 16 d.length)
  if d = [] then xferNoData setup else xferWrite mps setup d

/-- `UPLOAD(b, n)` whose response has `m` bytes (R122). -/
def hostUpload (mps : Nat) (b n : Half) (m : Nat) : List Event :=
  xferRead mps (interfacePacket .deviceToHost 2 b n) m

/-- `GETSTATUS` (R122). -/
def hostGetstatus (mps : Nat) : List Event := xferRead mps (interfacePacket .deviceToHost 3 0 6) 6

/-- `CLRSTATUS` (R122). -/
def hostClrstatus : List Event := xferNoData (interfacePacket .hostToDevice 4 0 0)

/-- `GETSTATE` (R122). -/
def hostGetstate (mps : Nat) : List Event := xferRead mps (interfacePacket .deviceToHost 5 0 1) 1

/-- `ABORT` (R122). -/
def hostAbort : List Event := xferNoData (interfacePacket .hostToDevice 6 0 0)

/-- `DETACH(t)` (R122). -/
def hostDetach (t : Half) : List Event := xferNoData (interfacePacket .hostToDevice 0 t 0)

end Sys2Proof.Machine
end

