-- ==== Sys2Proof/Tests/Slice0.lean ====
section
/-! SUPPORT. The model's own tests. Words and expected results are copied from spec/95_test_vectors.md (named V-.., P..) and from
the examples of the rules (R..); nothing here is read off the model. -/

namespace Sys2Proof.Tests

open Machine

/-! ## Helpers: small states, and the parts of an outcome a test looks at -/

/-- The state after, where there is one. -/
def after (o : Host.Outcome State Fault Refusal) : Option State :=
  match o with
  | .next t => some t
  | .fault _ => none
  | .refused _ => none

/-- The state after `BOOT` (R345), with the trace cleared. -/
def boot : State := { State.reset with usbDevState := .configured, usbAddr := 7, usbConfig := 1 }

/-- `boot` in a DFU state set by hand, as the vectors' "harness-set". -/
def booted (d : DfuState) : State := { boot with dfuState := d }

/-- `boot` in `Error` with a status code. -/
def inError (c : StatusCode) : State := { booted .error with dfuStatusCode := c }

/-- `boot` under the DfuSe variant. -/
def bootDfuse : State := { boot with cfg := { Config.ref with variant := .dfuse } }

/-- A state with another Flash Programmer. -/
def withFp (p : FlashProgrammer) (s : State) : State := { s with cfg := { s.cfg with fp := p } }

/-- A state with pages of one word, so that a page is small enough to write out. -/
def smallPages (s : State) : State := { s with cfg := { s.cfg with pageSize := 4 } }

/-- The fields of a packet to interface 0 (recipient = interface). -/
def fields (value length : Half) : SetupFields := { recipient := 1, value := value, index := 0, length := length }

/-- A write transfer whose status stage is about to complete, with its data stage received. -/
def completing (r : SetupRequest) (data : List Byte) (s : State) : State :=
  { s with cts := .statusIn, setupReq := some r, pendOut := some r, xferData := data, xferLen := data.length,
           xferPos := data.length }

/-- A poll is due: a block is pending in `DnloadSync`. -/
def pollDue (target : Nat) (data : List Byte) (s : State) : State :=
  { s with dfuState := .dnloadSync,
           pending := .block { blockNum := 0, length := BitVec.ofNat 16 data.length, data := data, target := target } }

/-- The class group, for a test to compare. -/
def cls (t : State) : DfuState × StatusCode × Word × Pending := (t.dfuState, t.dfuStatusCode, t.addrPtr, t.pending)

/-! ## WellFormed: one ill-formed term for each check -/

theorem test_wf_refuses_setup_of_8_bytes : (Instr.setup [0x21, 0x01, 0, 0, 0, 0, 0x80, 0]).wf = false := by decide
theorem test_wf_takes_setup_of_7_bytes : (Instr.setup [0, 0, 0, 0, 0, 0, 0]).wf = true := by decide
theorem test_wf_refuses_handlerStandard_of_set_address :
    (Instr.handlerStandard .hostToDevice 5 (fields 7 0)).wf = false := by decide
theorem test_wf_takes_handlerStandard_of_get_status :
    (Instr.handlerStandard .deviceToHost 0 (fields 0 2)).wf = true := by decide
theorem test_wf_refuses_handlerClass_of_dnload :
    (Instr.handlerClass .hostToDevice 1 (fields 0 8)).wf = false := by decide
theorem test_wf_takes_handlerClass_of_dnload_read :
    (Instr.handlerClass .deviceToHost 1 (fields 0 8)).wf = true := by decide

/-! ## Decode: words from R91, R93, R94, R96, R102, R108, R110, for every constructor -/

theorem test_decode_reset : decode .ref .event [0x00] = .ok .reset := by decide
theorem test_decode_setup : decode .ref .event [0x01, 0x21, 0x01] = .ok (.setup [0x21, 0x01]) := by decide
theorem test_decode_inDone : decode .ref .event [0x02] = .ok .inDone := by decide
theorem test_decode_outDone : decode .ref .event [0x03, 0xAA] = .ok (.outDone [0xAA]) := by decide
theorem test_decode_reserved_kind : decode .ref .event [0x04] = .error .reservedKind := by decide
theorem test_decode_payload_on_in : decode .ref .event [0x02, 0x00] = .error .payloadNotAllowed := by decide
theorem test_decode_empty_record : decode .ref .event [] = .error .emptyRecord := by decide

/-- bmRequestType 0x82: bit 7 set (device to host), bits 6:5 = 00 (standard), bits 4:0 = 00010; GET_STATUS is none of the four. -/
theorem test_decode_handlerStandard :
    decode .ref .setup64 [0x82, 0x00, 0x00, 0x00, 0x81, 0x00, 0x02, 0x00] =
      .ok (.handlerStandard .deviceToHost 0 { recipient := 2, value := 0, index := 0x0081, length := 2 }) := by decide
/-- V-C2: code 7 is none of the seven. -/
theorem test_decode_handlerClass :
    decode .ref .setup64 [0x21, 0x07, 0, 0, 0, 0, 0, 0] = .ok (.handlerClass .hostToDevice 7 (fields 0 0)) := by decide
/-- V-B3. -/
theorem test_decode_handlerVendor :
    decode .ref .setup64 [0xC0, 0x01, 0, 0, 0, 0, 0x02, 0] =
      .ok (.handlerVendor .deviceToHost 1 { recipient := 0, value := 0, index := 0, length := 2 }) := by decide
/-- V-B3. -/
theorem test_decode_handlerReserved :
    decode .ref .setup64 [0x61, 0x01, 0, 0, 0, 0, 0, 0] = .ok (.handlerReserved .hostToDevice 1 (fields 0 0)) := by decide
/-- R245: DETACH with timeout 0x03E8. -/
theorem test_decode_dfuDetach :
    decode .ref .setup64 [0x21, 0x00, 0xE8, 0x03, 0, 0, 0, 0] = .ok (.dfuDetach (fields 1000 0)) := by decide
theorem test_decode_dfuDnload :
    decode .ref .setup64 [0x21, 0x01, 0x02, 0x00, 0, 0, 0x80, 0] = .ok (.dfuDnload (fields 2 128)) := by decide
theorem test_decode_dfuUpload :
    decode .ref .setup64 [0xA1, 0x02, 0x00, 0x01, 0, 0, 0x08, 0] = .ok (.dfuUpload (fields 0x0100 8)) := by decide
theorem test_decode_dfuGetstatus :
    decode .ref .setup64 [0xA1, 0x03, 0, 0, 0, 0, 0x06, 0] = .ok (.dfuGetstatus (fields 0 6)) := by decide
theorem test_decode_dfuClrstatus :
    decode .ref .setup64 [0x21, 0x04, 0, 0, 0, 0, 0, 0] = .ok (.dfuClrstatus (fields 0 0)) := by decide
/-- V-B3: recipient 3, value 0x1234, index 5. -/
theorem test_decode_dfuGetstate :
    decode .ref .setup64 [0xA3, 0x05, 0x34, 0x12, 0x05, 0x00, 0x01, 0x00] =
      .ok (.dfuGetstate { recipient := 3, value := 0x1234, index := 5, length := 1 }) := by decide
theorem test_decode_dfuAbort :
    decode .ref .setup64 [0x21, 0x06, 0, 0, 0, 0, 0, 0] = .ok (.dfuAbort (fields 0 0)) := by decide
/-- V-D1: the sixth byte is ignored. -/
theorem test_decode_dfuseSetAddressPointer :
    decode .ref .dfuseCmd40 [0x21, 0x00, 0x40, 0x00, 0x08, 0xEE] = .ok (.dfuseSetAddressPointer 0x08004000) := by decide
/-- V-D2. -/
theorem test_decode_dfuseErasePage :
    decode .ref .dfuseCmd40 [0x41, 0x10, 0x30, 0x00, 0x08] = .ok (.dfuseErasePage 0x08003010) := by decide
/-- V-D5. -/
theorem test_decode_short_command : decode .ref .dfuseCmd40 [0x21, 0x00, 0x30, 0x00] = .error .shortCommand := by decide
/-- V-D5. -/
theorem test_decode_unknown_command : decode .ref .dfuseCmd40 [0x99, 0, 0, 0, 0] = .error .unknownCommand := by decide
/-- V-B2. -/
theorem test_decode_stdSetAddress :
    decode .ref .setup64 [0x00, 0x05, 0x07, 0, 0, 0, 0, 0] =
      .ok (.stdSetAddress { recipient := 0, value := 7, index := 0, length := 0 }) := by decide
/-- V-A1. -/
theorem test_decode_stdGetDescriptor :
    decode .ref .setup64 [0x80, 0x06, 0x00, 0x02, 0, 0, 0xFF, 0] =
      .ok (.stdGetDescriptor { recipient := 0, value := 0x0200, index := 0, length := 255 }) := by decide
/-- V-B2. -/
theorem test_decode_stdGetConfiguration :
    decode .ref .setup64 [0x80, 0x08, 0, 0, 0, 0, 0x01, 0] =
      .ok (.stdGetConfiguration { recipient := 0, value := 0, index := 0, length := 1 }) := by decide
/-- V-B2. -/
theorem test_decode_stdSetConfiguration :
    decode .ref .setup64 [0x00, 0x09, 0x01, 0, 0, 0, 0, 0] =
      .ok (.stdSetConfiguration { recipient := 0, value := 1, index := 0, length := 0 }) := by decide

/-- The match word of `DFU_GETSTATUS` in spec/opcode_table.json, as the host gives it. -/
theorem test_table_word_getstatus :
    decodeTableWord 64 0x00000000000003A0 =
      some (.dfuGetstatus { recipient := 0, value := 0, index := 0, length := 0 }) := by decide
/-- The match word of `DFUSE_ERASE_PAGE`, with only its fixed byte given. -/
theorem test_table_word_erase : decodeTableWord 8 0x41 = some (.dfuseErasePage 0) := by decide

/-! ## One step of each instruction -/

/-- V-G1: `RESET` from the middle of a write in `Error`. -/
theorem test_reset_class_group :
    (after (exec .reset { inError .errVERIFY with addrPtr := 0x08002380, pending := .manifestWork, cts := .dataOut })).map
      (fun t => (cls t, t.cts, t.usbDevState, t.usbAddr, t.usbConfig)) =
    some ((.idle, .ok, 0x08002000, .noWork), .stalled, .default, 0, 0) := by decide

/-- V-A5: 7 bytes. -/
theorem test_setup_seven_bytes :
    (after (exec (.setup [0, 0, 0, 0, 0, 0, 0]) boot)).map (fun t => (t.trace, t.setupReq, t.dfuState)) =
    some ([.stall], none, .idle) := by decide

/-- V-A1: the third packet of 130 bytes holds the last two. -/
theorem test_in_last_packet :
    (after (exec .inDone { boot with cts := .dataIn, xferLen := 130, xferPos := 128,
                                     xferData := (List.range 130).map (BitVec.ofNat 8) })).map
      (fun t => (t.trace, t.cts, t.xferPos)) = some ([.tx [0x80, 0x81]], .lastDataIn, 130) := by decide

/-- P2 event 25: the `IN` that completes `CLRSTATUS`. -/
theorem test_in_completes_clrstatus :
    (after (exec .inDone (completing (requestOfDfu .clrstatus (fields 0 0)) []
      { inError .errSTALLEDPKT with addrPtr := 0x08003000 }))).map (fun t => (cls t, t.cts, t.trace)) =
    some ((.idle, .ok, 0x08002000, .noWork), .stalled, []) := by decide

/-- V-A7: 36 bytes were owed and 35 came. -/
theorem test_out_short_last_packet :
    (after (exec (.outDone (List.replicate 35 0)) { boot with cts := .lastDataOut, xferLen := 100, xferPos := 64,
                                                              xferData := List.replicate 64 0 })).map
      (fun t => (t.trace, t.cts)) = some ([.stall], .stalled) := by decide

/-- V-A6: the first of two packets. -/
theorem test_out_first_packet :
    (after (exec (.outDone (List.replicate 64 0x5A)) { boot with cts := .dataOut, xferLen := 128 })).map
      (fun t => (t.trace, t.cts, t.xferPos)) = some ([], .lastDataOut, 64) := by decide

/-- R185: a standard request that is none of the four. -/
theorem test_handlerStandard_stalls :
    (after (exec (.handlerStandard .deviceToHost 0 (fields 0 2)) boot)).map (fun t => (t.trace, cls t)) =
    some ([.stall], cls boot) := by decide

/-- V-C2: no class effect. -/
theorem test_handlerClass_stalls :
    (after (exec (.handlerClass .hostToDevice 7 (fields 0 0)) boot)).map (fun t => (t.trace, cls t)) =
    some ([.stall], cls boot) := by decide

/-- V-B3. -/
theorem test_handlerVendor_stalls :
    (after (exec (.handlerVendor .deviceToHost 1 (fields 0 2)) boot)).map (fun t => (t.trace, cls t)) =
    some ([.stall], cls boot) := by decide

/-- V-B3. -/
theorem test_handlerReserved_stalls :
    (after (exec (.handlerReserved .hostToDevice 1 (fields 0 0)) boot)).map (fun t => (t.trace, cls t)) =
    some ([.stall], cls boot) := by decide

/-- R245's example. -/
theorem test_detach_violates :
    (after (exec (.dfuDetach (fields 1000 0)) boot)).map (fun t => (t.trace, t.dfuState, t.dfuStatusCode)) =
    some ([.stall], .error, .errSTALLEDPKT) := by decide

/-- V-A6: a two-packet write opens with no output. -/
theorem test_dnload_opens :
    (after (exec (.dfuDnload (fields 0 128)) boot)).map (fun t => (t.trace, t.cts, t.xferLen, t.dfuState)) =
    some ([], .dataOut, 128, .idle) := by decide

/-- P3 event 11: `DNLOAD` in `Error` overwrites the code. -/
theorem test_dnload_in_error :
    (after (exec (.dfuDnload (fields 0 32)) (inError .errVERIFY))).map (fun t => (t.trace, t.dfuState, t.dfuStatusCode)) =
    some ([.stall], .error, .errSTALLEDPKT) := by decide

/-- R225: four bytes from the pointer, which advances by `TS`. -/
theorem test_upload_reads :
    (after (exec (.dfuUpload (fields 0 4)) { boot with flash := [(0x08002001, 0xAB), (0x08002003, 0xCD)] })).map
      (fun t => (t.trace, t.dfuState, t.addrPtr)) =
    some ([.tx [0x00, 0xAB, 0x00, 0xCD]], .uploadIdle, 0x08002080) := by decide

/-- V-E7: the padding of a five-byte block, and the advanced pointer. -/
theorem test_poll_programs_padded_block :
    (after (exec (.dfuGetstatus (fields 0 6)) (pollDue 0x08002000 [0xC1, 0xC2, 0xC3, 0xC4, 0xC5] boot))).map
      (fun t => (t.trace, cls t)) =
    some ([.erasedQ 0x08002000 2 true, .prog 0x08002000 [0xC1, 0xC2, 0xC3, 0xC4, 0xC5, 0, 0, 0],
           .tx [0x00, 0x02, 0x00, 0x00, 0x04, 0x00]], (.dnloadSync, .ok, 0x08002080, .noWork)) := by decide

/-- V-E5: the page does not erase; the failing poll is answered, and the error stands. -/
theorem test_poll_stuck_page :
    (after (exec (.dfuGetstatus (fields 0 6)) (withFp .stuck
      { pollDue 0x08002000 [1, 2, 3, 4, 5, 6, 7, 8] boot with flash := [(0x08002004, 0xFF)] }))).map
      (fun t => (t.trace, t.dfuState, t.dfuStatusCode)) =
    some ([.erasedQ 0x08002000 2 false, .erase 0x08002000, .erasedQ 0x08002000 2 false,
           .tx [0x00, 0x02, 0x00, 0x00, 0x04, 0x00]], .error, .errCHECK_ERASED) := by decide

/-- V-C1: accepted in `Error`, nothing executed yet. -/
theorem test_clrstatus_opens :
    (after (exec (.dfuClrstatus (fields 0 0)) (inError .errVERIFY))).map (fun t => (t.trace, t.cts, t.dfuState)) =
    some ([.zlp], .statusIn, .error) := by decide

/-- V-C1: `GETSTATE` in `Error`. -/
theorem test_getstate_in_error :
    (after (exec (.dfuGetstate (fields 0 1)) (inError .errVERIFY))).map (·.trace) = some [.tx [0x0A]] := by decide

/-- V-C1: `ABORT` is a violation in `Error`, and accepted in `DnloadSync`. -/
theorem test_abort_in_dnloadSync :
    (after (exec (.dfuAbort (fields 0 0)) (booted .dnloadSync))).map (fun t => (t.trace, t.cts, t.dfuState)) =
    some ([.zlp], .statusIn, .dnloadSync) := by decide

/-- P2 event 8. -/
theorem test_set_address_pointer :
    (after (exec (.dfuseSetAddressPointer 0x08003000)
      (completing (requestOfDfu .dnload (fields 0 5)) [0x21, 0x00, 0x30, 0x00, 0x08] bootDfuse))).map
      (fun t => (cls t, t.trace, t.cts)) = some ((.dnloadSync, .ok, 0x08003000, .noWork), [], .stalled) := by decide

/-- V-D3: exactly `APP_END` is outside. -/
theorem test_erase_at_app_end :
    (after (exec (.dfuseErasePage 0x08020000)
      (completing (requestOfDfu .dnload (fields 0 5)) [0x41, 0x00, 0x00, 0x02, 0x08] bootDfuse))).map
      (fun t => (t.trace, t.dfuState, t.dfuStatusCode)) = some ([.stall], .error, .errADDRESS) := by decide

/-- V-B1: 128 is above the address range. -/
theorem test_set_address_128 :
    (after (exec (.stdSetAddress { recipient := 0, value := 128, index := 0, length := 0 }) State.reset)).map (·.trace) =
    some [.stall] := by decide

/-- V-A2: declared 18, requested 8. -/
theorem test_get_descriptor_clamped :
    (after (exec (.stdGetDescriptor { recipient := 0, value := 0x0100, index := 0, length := 8 }) State.reset)).map
      (fun t => (t.trace, t.cts)) = some ([.tx [0x12, 0x01, 0x00, 0x02, 0x00, 0x00, 0x00, 0x40]], .lastDataIn) := by decide

/-- V-B2. -/
theorem test_get_configuration :
    (after (exec (.stdGetConfiguration { recipient := 0, value := 0, index := 0, length := 1 }) boot)).map (·.trace) =
    some [.tx [0x01]] := by decide

/-- V-B1: `SET_CONFIGURATION` in `Default`. -/
theorem test_set_configuration_in_default :
    (after (exec (.stdSetConfiguration { recipient := 0, value := 1, index := 0, length := 0 }) State.reset)).map (·.trace) =
    some [.stall] := by decide

/-! ## A step -/

/-- The word of `STD_GET_DESCRIPTOR`'s row with V-A2's operands, placed after reset, is what the next step runs. -/
theorem test_step_runs_fetch_word :
    (after (step (State.reset.withFetchWord 64 0x0008000001000680))).map (fun t => (t.trace, t.cts, t.events)) =
    some ([.tx [0x12, 0x01, 0x00, 0x02, 0x00, 0x00, 0x00, 0x40]], .lastDataIn, []) := by decide

/-- A command's word, placed after reset, runs as the command. -/
theorem test_step_runs_command_word :
    (after (step (State.reset.withFetchWord 40 0x0800300021))).map (fun t => (t.addrPtr, t.dfuState)) =
    some (0x08003000, .dnloadSync) := by decide

/-- R7: a page size that is not a multiple of 4 is refused. -/
theorem test_step_refuses_invalid_configuration :
    step { State.reset with cfg := { Config.ref with pageSize := 6 } } = .refused .invalidConfiguration := rfl

/-! ## Witnesses: for every obligation with hypotheses, states and operands that meet them, clause by clause -/

/-- The state in which class requests reach the DFU machine, with a replacement Standard or Vendor handler. -/
def replaced : State := { boot with cfg := { Config.ref with std := .other 0, vnd := .other 1 } }

/-- `boot` in a phase. -/
def phase (c : Cts) : State := { boot with cts := c }

theorem base_of_idle {s : State} (hv : Config.valid s.cfg = true) (hf : s.flash = []) (ha : s.usbAddr.toNat ≤ 127)
    (hp : s.pending = .noWork) (hs : s.dfuState ≠ .dnBusy ∧ s.dfuState ≠ .manifest)
    (he : s.dfuState = .error ↔ s.dfuStatusCode ≠ .ok) : Laws.Base s :=
  ⟨hv, by rw [hf]; rfl, ha, Laws.classInv_of_noWork hp hs he⟩

/-- `Base` of the states the witnesses start from: any idle engine over `boot` or `inError`, with any input. -/
theorem base_boot (es : List Event) : Laws.Base { boot with events := es } :=
  base_of_idle (show Config.valid boot.cfg = true by decide) rfl (show boot.usbAddr.toNat ≤ 127 by decide) rfl
    (show boot.dfuState ≠ .dnBusy ∧ boot.dfuState ≠ .manifest by decide)
    (show boot.dfuState = .error ↔ boot.dfuStatusCode ≠ .ok by decide)

theorem base_inError (es : List Event) : Laws.Base { inError .errVERIFY with events := es } :=
  base_of_idle (show Config.valid boot.cfg = true by decide) rfl (show boot.usbAddr.toNat ≤ 127 by decide) rfl
    (show (inError .errVERIFY).dfuState ≠ .dnBusy ∧ (inError .errVERIFY).dfuState ≠ .manifest by decide)
    (show (inError .errVERIFY).dfuState = .error ↔ (inError .errVERIFY).dfuStatusCode ≠ .ok by decide)

theorem inv_boot (es : List Event) : ({ boot with events := es } : State).Inv :=
  Laws.inv_of_noTransfer (base_boot es) ⟨rfl, rfl, rfl, rfl, rfl⟩

theorem inv_inError (es : List Event) : ({ inError .errVERIFY with events := es } : State).Inv :=
  Laws.inv_of_noTransfer (base_inError es) ⟨rfl, rfl, rfl, rfl, rfl⟩

theorem witness_ResetRestoresEveryRegister :
    boot.cfg.std = .ref ∧ boot.cfg.vnd = .ref ∧ replaced.cfg.std = .other 0 ∧ replaced.cfg.vnd = .other 1 ∧
    (boot.cfg = Config.ref ∧ boot.events = [] ∧ boot.trace = [] ∧ boot.flash = [] ∧ boot.stdOwn = [] ∧ boot.vndOwn = []) := by
  decide

theorem witness_SetupOfWrongLengthStalls :
    ([] : List Byte).length ≠ 8 ∧ (List.replicate 7 (0 : Byte)).length ≠ 8 ∧ (List.replicate 9 (0 : Byte)).length ≠ 8 := by
  decide

theorem witness_SetupAbandonsEveryPhase :
    isSetup (.setup []) = true ∧ isSetup (.dfuGetstate (fields 0 1)) = true ∧ isSetup (.handlerVendor .hostToDevice 1 (fields 0 0)) = true := by
  decide

theorem witness_InSendsNextPacket : (phase .dataIn).cts = .dataIn ∧ (phase .lastDataIn).cts = .lastDataIn := by decide

theorem witness_UnexpectedInStalls :
    ∀ c ∈ [Cts.stalled, .statusOut, .dataOut, .lastDataOut],
      (phase c).cts = .stalled ∨ (phase c).cts = .statusOut ∨ (phase c).cts = .dataOut ∨ (phase c).cts = .lastDataOut := by
  decide

theorem witness_OutStoresFullPacket :
    (phase .dataOut).cts = .dataOut ∧ (List.replicate 64 (0 : Byte)).length = (phase .dataOut).cfg.mps ∧
    (List.replicate 63 (0 : Byte)).length ≠ (phase .dataOut).cfg.mps := by decide

theorem witness_OutEndsDataStage :
    let s := { phase .lastDataOut with xferLen := 100, xferPos := 64 }
    s.cts = .lastDataOut ∧ (List.replicate 36 (0 : Byte)).length = s.xferLen - s.xferPos ∧
    (List.replicate 35 (0 : Byte)).length ≠ s.xferLen - s.xferPos ∧
    (List.replicate 37 (0 : Byte)).length ≠ s.xferLen - s.xferPos := by decide

theorem witness_OutEndsReadTransfer : (phase .statusOut).cts = .statusOut := by decide

theorem witness_UnexpectedOutStalls :
    ∀ c ∈ [Cts.stalled, .dataIn, .lastDataIn, .statusIn],
      (phase c).cts = .stalled ∨ (phase c).cts = .dataIn ∨ (phase c).cts = .lastDataIn ∨ (phase c).cts = .statusIn := by
  decide

theorem witness_PacketsOfNoRequestStall :
    (Dir.hostToDevice, (7 : Byte)) ∉ classRows ∧ (Dir.deviceToHost, (6 : Byte)) ∉ classRows ∧
    (Dir.hostToDevice, (2 : Byte)) ∉ classRows := by decide

theorem witness_ReferenceHandlersStallOthers :
    boot.cfg.std = .ref ∧ boot.cfg.vnd = .ref ∧ (Dir.deviceToHost, (5 : Byte)) ∉ standardRows ∧
    (Dir.hostToDevice, (8 : Byte)) ∉ standardRows := by decide

theorem witness_ReplacedStandardHandlerDecides :
    let r := (fields 7 0).request .hostToDevice .standard 5
    replaced.cfg.std = .other 0 ∧ (completing r [] replaced).cfg.std = .other 0 ∧
    (completing r [] replaced).cts = .statusIn ∧ (completing r [] replaced).pendOut = some r := by decide

theorem witness_ReplacedVendorHandlerDecides :
    let r := (fields 7 2).request .hostToDevice .vendor 1
    replaced.cfg.vnd = .other 1 ∧ (completing r [1, 2] replaced).cfg.vnd = .other 1 ∧
    (completing r [1, 2] replaced).cts = .statusIn ∧ (completing r [1, 2] replaced).pendOut = some r := by decide

theorem witness_SetAddressRequest :
    let at127 : SetupFields := { recipient := 0, value := 127, index := 0, length := 0 }
    let at128 : SetupFields := { recipient := 0, value := 128, index := 0, length := 0 }
    let done := completing (at127.request .hostToDevice .standard 5) [] State.reset
    State.reset.cfg.std = .ref ∧
    (at127.value.toNat ≤ 127 ∧ at127.length = 0 ∧ (State.reset.usbDevState = .default ∨ State.reset.usbDevState = .address)) ∧
    ¬(at128.value.toNat ≤ 127 ∧ at128.length = 0 ∧ (State.reset.usbDevState = .default ∨ State.reset.usbDevState = .address)) ∧
    (done.cfg.std = .ref ∧ done.cts = .statusIn ∧ done.pendOut = some (at127.request .hostToDevice .standard 5)) := by
  decide

theorem witness_SetConfigurationRequest :
    let one : SetupFields := { recipient := 0, value := 0xFF01, index := 0, length := 0 }
    let two : SetupFields := { recipient := 0, value := 2, index := 0, length := 0 }
    let done := completing (one.request .hostToDevice .standard 9) [] boot
    boot.cfg.std = .ref ∧
    (one.length = 0 ∧ (boot.usbDevState = .address ∨ boot.usbDevState = .configured) ∧
      (one.value.extractLsb' 0 8 = 0 ∨ one.value.extractLsb' 0 8 = 1)) ∧
    ¬(two.value.extractLsb' 0 8 = 0 ∨ two.value.extractLsb' 0 8 = 1) ∧
    (done.cfg.std = .ref ∧ done.cts = .statusIn ∧ done.pendOut = some (one.request .hostToDevice .standard 9)) := by
  decide

theorem witness_GetDescriptorRequest :
    boot.cfg.std = .ref ∧ (descriptor boot.cfg.desc 0x0100 0).isSome = true ∧ descriptor boot.cfg.desc 0x0300 0 = none ∧
    descriptor boot.cfg.desc 0x0100 1 = none := by decide

theorem witness_GetConfigurationRequest :
    boot.cfg.std = .ref ∧ boot.usbDevState = .configured ∧ State.reset.cfg.std = .ref ∧
    State.reset.usbDevState = .default := by decide

theorem witness_LegalityTable :
    let f := fields 0 128
    classGate (booted .dnloadIdle) = true ∧ (booted .dnloadIdle).dfuState ∈ legalStates .dnload ∧
    extraCondition boot.cfg (requestOfDfu .dnload f) .dnload = true ∧ f.length.toNat ≤ boot.cfg.ctrlBufSize ∧
    (booted .uploadIdle).dfuState ∉ legalStates .dnload ∧ (booted .dnBusy).dfuState ∉ legalStates .getstatus := by decide

theorem witness_ExtraConditionViolations :
    classGate boot = true ∧ boot.cfg.ts < (fields 0 129).length.toNat ∧ classGate bootDfuse = true ∧
    (bootDfuse.cfg.variant = .dfuse ∧ (fields 1 1).value = 1 ∧ (fields 1 1).length ≠ 0) ∧
    (let s := { boot with cfg := { Config.ref with canUpload := false } }
     classGate s = true ∧ s.cfg.canUpload = false) := by decide

theorem witness_ClassGateStalls :
    classGate State.reset = false ∧ classGate { boot with usbDevState := .address } = false := by decide

theorem witness_DetachAlwaysViolates : classGate boot = true := by decide

theorem witness_ClassErrorForcesStall :
    ∃ t, (Instr.dfuDetach (fields 0 0)).wf = true ∧ exec (.dfuDetach (fields 0 0)) boot = .next t ∧ t.dfuState = .error ∧
      boot.dfuState ≠ .error := ⟨_, rfl, rfl, by decide, by decide⟩

theorem witness_DnloadAcceptedAtSetup :
    Config.valid bootDfuse.cfg = true ∧ classGate bootDfuse = true ∧ bootDfuse.dfuState = .idle ∧
    (fields 2 128).length.toNat ≤ bootDfuse.cfg.ts ∧
    ¬(bootDfuse.cfg.variant = .dfuse ∧ (fields 2 128).value = 1 ∧ (fields 2 128).length ≠ 0) ∧
    ¬(bootDfuse.cfg.variant = .dfuse ∧ (fields 1 0).value = 1 ∧ (fields 1 0).length ≠ 0) := by decide

theorem witness_DnloadCapturesBlock :
    let s := completing (requestOfDfu .dnload (fields 2 4)) [1, 2, 3, 4] bootDfuse
    let u := completing (requestOfDfu .dnload (fields 0 4)) [1, 2, 3, 4] boot
    (s.cts = .statusIn ∧ s.pendOut = some (requestOfDfu .dnload (fields 2 4)) ∧ (fields 2 4).length ≠ 0 ∧
      2 ≤ (fields 2 4).value.toNat) ∧
    (u.cts = .statusIn ∧ u.pendOut = some (requestOfDfu .dnload (fields 0 4)) ∧ u.cfg.variant = .plainDfu) := by decide

theorem witness_ZeroLengthDnload :
    let s := completing (requestOfDfu .dnload (fields 1 0)) [] (booted .dnloadIdle)
    let u := completing (requestOfDfu .dnload (fields 1 0)) [] bootDfuse
    (s.cts = .statusIn ∧ s.pendOut = some (requestOfDfu .dnload (fields 1 0)) ∧ (fields 1 0).length = 0 ∧
      s.dfuState = .dnloadIdle) ∧ (u.cts = .statusIn ∧ u.dfuState = .idle) := by decide

theorem witness_UploadReadsAndAdvances :
    classGate boot = true ∧ boot.dfuState = .idle ∧ boot.cfg.canUpload = true ∧
    (boot.cfg.appBase ≤ boot.addrPtr.toNat ∧ boot.addrPtr.toNat < boot.cfg.appEnd) ∧
    (let s := { boot with addrPtr := 0x08020000 }
     classGate s = true ∧ ¬(s.cfg.appBase ≤ s.addrPtr.toNat ∧ s.addrPtr.toNat < s.cfg.appEnd)) := by decide

theorem witness_GetstateReportsState :
    classGate (booted .dnloadSync) = true ∧ (booted .dnloadSync).dfuState ≠ .dnBusy ∧
    (booted .dnloadSync).dfuState ≠ .manifest ∧ (booted .dnloadSync).dfuState ≠ .manifestWaitReset := by decide

theorem witness_ClrstatusLeavesError :
    let s := inError .errVERIFY
    let done := completing (requestOfDfu .clrstatus (fields 0 2)) [1, 2] s
    (classGate s = true ∧ s.dfuState = .error ∧ (fields 0 128).length.toNat ≤ s.cfg.ctrlBufSize) ∧
    (classGate boot = true ∧ boot.dfuState ≠ .error) ∧
    (done.cts = .statusIn ∧ done.pendOut = some (requestOfDfu .clrstatus (fields 0 2))) := by decide

theorem witness_AbortReturnsToIdle :
    let done := completing (requestOfDfu .abort (fields 0 0)) [] (pollDue 0x08002000 [1] boot)
    (classGate boot = true ∧ (fields 0 128).length.toNat ≤ boot.cfg.ctrlBufSize ∧
      (booted .uploadIdle).dfuState ∈ [DfuState.idle, .dnloadSync, .dnloadIdle, .manifestSync, .uploadIdle]) ∧
    (done.cts = .statusIn ∧ done.pendOut = some (requestOfDfu .abort (fields 0 0))) := by decide

theorem witness_OversizedDataStageStalls :
    classGate (inError .errVERIFY) = true ∧ (inError .errVERIFY).dfuState = .error ∧
    boot.cfg.ctrlBufSize < (fields 0 129).length.toNat ∧
    ∀ d ∈ [DfuState.idle, .dnloadSync, .dnloadIdle, .manifestSync, .uploadIdle],
      classGate (booted d) = true ∧ (booted d).dfuState ∈ legalStates .abort := by decide

theorem witness_StatusRecordLayout :
    classGate boot = true ∧ boot.dfuState ∈ legalStates .getstatus ∧ classGate (inError .errVERIFY) = true ∧
    (inError .errVERIFY).dfuState ∈ legalStates .getstatus := by decide

theorem witness_GetstatusReportsRestingState :
    ∀ d ∈ [DfuState.idle, .dnloadIdle, .uploadIdle, .error],
      classGate (booted d) = true ∧ (booted d).dfuState ∈ [DfuState.idle, .dnloadIdle, .uploadIdle, .error] := by decide

theorem witness_GetstatusLeavesSyncStates :
    let m := { booted .manifestSync with pending := .manifestWork }
    classGate m = true ∧ (m.dfuState = .manifestSync ∧ m.pending = .manifestWork) ∧
    ((booted .dnloadSync).dfuState = .dnloadSync ∧ (booted .dnloadSync).pending = .noWork) ∧
    ((booted .manifestSync).dfuState = .manifestSync ∧ (booted .manifestSync).pending = .noWork) := by decide

/-- R281's example, and one byte below the region. -/
theorem witness_PollOfBlockOutOfRange :
    let s := pollDue 0x0801FFC0 (List.replicate 128 0) boot
    classGate s = true ∧ s.dfuState = .dnloadSync ∧
    ¬(s.cfg.appBase ≤ 0x0801FFC0 ∧ 0x0801FFC0 + (128 + 3) / 4 * 4 ≤ s.cfg.appEnd) ∧
    ¬(s.cfg.appBase ≤ 0x08001FFF ∧ 0x08001FFF + (1 + 3) / 4 * 4 ≤ s.cfg.appEnd) := by decide

/-- The last word of the region, erased; on `FP_BADPROG` its read-back differs, on `FP_IDEAL` it does not. -/
theorem witness_PollProgramsErasedBlock :
    let s := pollDue 0x0801FFFC [1, 2, 3, 4] boot
    let u := withFp .badProg s
    classGate s = true ∧ s.dfuState = .dnloadSync ∧ inRange s.cfg 0x0801FFFC (paddedLength 4) = true ∧
    fpIsErased s.cfg s.flash 0x0801FFFC (wordCount 4) = true ∧
    (after (exec (.dfuGetstatus (fields 0 6)) s)).map (fun t => decide (t.flashRead 0x0801FFFC 4 = [1, 2, 3, 4])) = some true ∧
    (Config.valid s.cfg = true ∧ 4 ≤ s.cfg.ts) ∧
    classGate u = true ∧ fpIsErased u.cfg u.flash 0x0801FFFC (wordCount 4) = true ∧
    (after (exec (.dfuGetstatus (fields 0 6)) u)).map (fun t => decide (t.flashRead 0x0801FFFC 4 = [1, 2, 3, 4])) = some false := by
  decide

/-- A dirty byte under the block: erased by `FP_IDEAL`, not by `FP_STUCK`; and `FP_BADPROG` erases but programs wrongly. -/
theorem witness_PollErasesBeforeProgramming :
    let s := smallPages { pollDue 0x08002000 [1, 2] boot with flash := [(0x08002003, 0xFF)] }
    let again := fun (u : State) =>
      fpIsErased u.cfg ((blockPages u.cfg 0x08002000 (paddedLength 2)).foldl (fun m p => fpErasePage u.cfg m p) u.flash)
        0x08002000 (wordCount 2)
    classGate s = true ∧ s.dfuState = .dnloadSync ∧ inRange s.cfg 0x08002000 (paddedLength 2) = true ∧
    fpIsErased s.cfg s.flash 0x08002000 (wordCount 2) = false ∧ again s = true ∧
    fpIsErased (withFp .stuck s).cfg s.flash 0x08002000 (wordCount 2) = false ∧ again (withFp .stuck s) = false ∧
    again (withFp .badProg s) = true := by decide

theorem witness_BlockPagesAreThePagesOfTheBlock :
    Config.valid Config.ref = true ∧ inRange Config.ref 0x0801FFFF 1 = true ∧ inRange Config.ref 0x080020FF 2 = true := by
  decide

theorem witness_IdealPollWritesBlock :
    let s := { pollDue 0x08002000 [1, 2] boot with flash := [(0x08002003, 0xFF)] }
    classGate s = true ∧ s.cfg.fp = .ideal ∧ Config.valid s.cfg = true ∧ Memory.wf (unlistedByte s.cfg) s.flash = true ∧
    s.dfuState = .dnloadSync ∧ s.pending = .block { blockNum := 0, length := 2, data := [1, 2], target := 0x08002000 } ∧
    inRange s.cfg 0x08002000 (paddedLength 2) = true := by decide

theorem witness_FlashFrameOfPollAndErase :
    let s := withFp .stuck (pollDue 0x08002000 [1, 2] boot)
    referenceProgrammer s.cfg = true ∧ Config.valid s.cfg = true ∧
    (after (exec (.dfuGetstatus (fields 0 6)) s)).isSome = true ∧ ¬inBlockPages s.cfg 0x08002000 (paddedLength 2) 0x08002100 ∧
    (after (exec (.dfuseErasePage 0x08002000) s)).isSome = true ∧
    (0x08001FFF < pageBase s.cfg (0x08002000 : Word).toNat) ∧
    pageBase s.cfg (0x08002000 : Word).toNat + s.cfg.pageSize ≤ 0x08002100 := by decide

/-- Two blocks and two states that differ in everything a block run does not read. -/
theorem witness_BlockRunIsPure :
    let pb : PendingBlock := { blockNum := 0, length := 2, data := [1, 2], target := 0x08002000 }
    let pb' : PendingBlock := { pb with blockNum := 9 }
    let s' := { booted .dnloadSync with addrPtr := 0, cts := .dataOut }
    s'.cfg = boot.cfg ∧ s'.flash = boot.flash ∧ pb'.target = pb.target ∧ pb'.data = pb.data ∧ pb'.length = pb.length ∧
    s' ≠ boot ∧ pb' ≠ pb := by decide

theorem witness_ErasePageCommand :
    let s := smallPages { bootDfuse with flash := [(0x08003000, 0xFF)] }
    let ok := fun (u : State) => fpIsErased u.cfg (fpErasePage u.cfg u.flash 0x08003000) (pageBase u.cfg 0x08003000) (u.cfg.pageSize / 4)
    (s.cfg.appBase ≤ 0x08003000 ∧ 0x08003000 < s.cfg.appEnd) ∧ ok s = true ∧ ok (withFp .stuck s) = false ∧
    ¬(s.cfg.appBase ≤ 0x08020000 ∧ 0x08020000 < s.cfg.appEnd) ∧ ¬(s.cfg.appBase ≤ 0x08001FFF ∧ 0x08001FFF < s.cfg.appEnd) ∧
    (s.cfg.fp = .ideal ∧ Config.valid s.cfg = true ∧ Memory.wf (unlistedByte s.cfg) s.flash = true ∧
      (0x08003003 : Word).toNat % s.cfg.pageSize ≠ 0 ∧ (s.cfg.appBase ≤ 0x08003003 ∧ 0x08003003 < s.cfg.appEnd) ∧
      0x08003000 / s.cfg.pageSize = 0x08003003 / s.cfg.pageSize ∧ 0x08003004 / s.cfg.pageSize ≠ 0x08003003 / s.cfg.pageSize) := by
  decide

/-- V-D5: four bytes, and an unknown command byte. -/
theorem witness_BadCommandStalls :
    let s := completing (requestOfDfu .dnload (fields 0 4)) [0x21, 0, 0x30, 0] bootDfuse
    let u := completing (requestOfDfu .dnload (fields 0 5)) [0x99, 0, 0, 0, 0] bootDfuse
    (s.cfg.variant = .dfuse ∧ s.cts = .statusIn ∧ s.pendOut = some (requestOfDfu .dnload (fields 0 4)) ∧
      s.xferData.take s.xferLen = [0x21, 0, 0x30, 0] ∧ (fields 0 4).length.toNat = 4) ∧
    (u.cfg.variant = .dfuse ∧ u.cts = .statusIn ∧ u.pendOut = some (requestOfDfu .dnload (fields 0 5)) ∧
      u.xferData.take u.xferLen = [0x99, 0, 0, 0, 0] ∧
      (u.xferData.head? ≠ some u.cfg.cmdCodes.setAddress ∧ u.xferData.head? ≠ some u.cfg.cmdCodes.erase)) := by decide

/-- V-D1's six-byte command. -/
theorem witness_CommandRowsAreTheCompletingIn :
    let s := completing (requestOfDfu .dnload (fields 0 6)) [0x21, 0, 0x40, 0, 0x08, 0xEE] bootDfuse
    s.cfg.variant = .dfuse ∧ s.cfg.cmdCodes.setAddress ≠ s.cfg.cmdCodes.erase ∧ s.cts = .statusIn ∧
    s.pendOut = some (requestOfDfu .dnload (fields 0 6)) ∧ (fields 0 6).length.toNat = [(0xEE : Byte)].length + 5 ∧
    s.xferData.take s.xferLen = 0x21 :: 0 :: 0x40 :: 0 :: 0x08 :: [0xEE] ∧ s.cfg.cmdCodes.setAddress = 0x21 ∧
    s.cfg.cmdCodes.erase = 0x41 := by decide

theorem witness_StepRunsDecodedInstruction :
    let s := fun (e : Event) => { boot with events := [e] }
    let c := { completing (requestOfDfu .dnload (fields 0 5)) [0x41, 0x10, 0x30, 0x00, 0x08] bootDfuse with events := [.inDone] }
    (∀ e ∈ [Event.reset, .setup [], .setup [0xA1, 3, 0, 0, 0, 0, 6, 0], .outDone [0xAA], .inDone],
      Config.valid (s e).cfg = true ∧ (s e).events = e :: []) ∧ awaitedCommand (s .inDone) = none ∧
    (Config.valid c.cfg = true ∧ c.events = Event.inDone :: [] ∧ awaitedCommand c = some (.erasePage 0x08003010)) := by decide

theorem witness_StepTakesOneEventWaitsOrRefuses :
    (after (step { boot with events := [.reset, .inDone] })).isSome = true ∧ (Config.valid boot.cfg = true ∧ boot.events = []) ∧
    Config.valid { Config.ref with pageSize := 6 } = false := by decide

theorem witness_DecodeOfEncode :
    CmdCodes.ref.setAddress ≠ CmdCodes.ref.erase ∧ (Instr.dfuseErasePage 0xFFFFFFFF).wf = true ∧
    (Instr.setup []).wf = true := by decide

theorem witness_EncodeOfDecodedPacket : (List.replicate 8 (0xFF : Byte)).length = 8 := by decide

/-- An accepted write, mid-transfer, meets the invariant with its next event delivered; so the invariant's `write` clause is not
only met by idle states. -/
theorem witness_StepKeepsInvariant :
    ∃ s t : State, s.Inv ∧ s.cts = .statusIn ∧ s.events = [.inDone] ∧ step s = .next t := by
  obtain ⟨s, hs, hi⟩ := Laws.inv_exec_setup (i := .dfuClrstatus (fields 0 0)) rfl (base_inError [.inDone])
  injection (show Host.Outcome.next _ = Host.Outcome.next s from hs) with hs
  subst hs
  exact ⟨_, _, hi, by decide, by decide, rfl⟩

theorem witness_StepNeverStops : ({ boot with events := [.outDone []] } : State).Inv := inv_boot _

/-- Both ways out of `Error`, and a poll in it. -/
theorem witness_ErrorLeftOnlyByClrstatusOrReset :
    (∃ s t : State, s.Inv ∧ s.dfuState = .error ∧ step s = .next t ∧ s.events = [.inDone] ∧ s.cts = .statusIn ∧
      s.pendOut = some (requestOfDfu .clrstatus (fields 0 0))) ∧
    (∃ s t : State, s.Inv ∧ s.dfuState = .error ∧ step s = .next t ∧ s.events = [.reset]) ∧
    (∃ s : State, s.Inv ∧ s.dfuState = .error ∧ classGate s = true) := by
  refine ⟨?_, ⟨_, _, inv_inError [.reset], rfl, rfl, rfl⟩, ⟨_, inv_inError [], rfl, rfl⟩⟩
  obtain ⟨s, hs, hi⟩ := Laws.inv_exec_setup (i := .dfuClrstatus (fields 0 0)) rfl (base_inError [.inDone])
  injection (show Host.Outcome.next _ = Host.Outcome.next s from hs) with hs
  subst hs
  exact ⟨_, _, hi, by decide, rfl, by decide, by decide, by decide⟩

/-- A `DETACH` in `Idle`, and a `RESET` in `Error`. -/
theorem witness_StatusCodeIsSticky :
    (∃ s t : State, s.Inv ∧ step s = .next t ∧ t.dfuStatusCode ≠ s.dfuStatusCode ∧ t.dfuState = .error) ∧
    (∃ s t : State, s.Inv ∧ step s = .next t ∧ t.dfuStatusCode ≠ s.dfuStatusCode ∧ t.dfuStatusCode = .ok) :=
  ⟨⟨_, _, inv_boot [.setup [0x21, 0, 0, 0, 0, 0, 0, 0]], rfl, by decide, by decide⟩,
    ⟨_, _, inv_inError [.reset], rfl, by decide, by decide⟩⟩

/-- A poll that programs a byte, and an erase command that erases one. -/
theorem witness_FlashChangesOnlyInPollOrErase :
    (∃ t, (Instr.dfuGetstatus (fields 0 6)).wf = true ∧
      exec (.dfuGetstatus (fields 0 6)) (pollDue 0x08002000 [1] boot) = .next t ∧ ¬SameFlash (pollDue 0x08002000 [1] boot) t) ∧
    (∃ t, exec (.dfuseErasePage 0x08002000) (smallPages { bootDfuse with flash := [(0x08002003, 0xFF)] }) = .next t ∧
      ¬SameFlash (smallPages { bootDfuse with flash := [(0x08002003, 0xFF)] }) t) := by
  refine ⟨⟨_, rfl, rfl, fun h => ?_⟩, ⟨_, rfl, fun h => ?_⟩⟩
  · exact absurd (h 0x08002000) (by decide)
  · exact absurd (h 0x08002003) (by decide)

theorem witness_FlashOutsideRegionIsUntouched :
    ∃ s t : State, s.Inv ∧ referenceProgrammer s.cfg = true ∧ step s = .next t ∧ ¬(s.cfg.appBase ≤ 0x08001FFF ∧ 0x08001FFF < s.cfg.appEnd) :=
  ⟨_, _, inv_boot [.inDone], rfl, rfl, by decide⟩

theorem witness_StallEndsTransfer :
    ∃ s t : State, s.Inv ∧ step s = .next t ∧ t.trace = s.trace ++ [.stall] :=
  ⟨_, _, inv_boot [.inDone], rfl, by decide⟩

theorem witness_RecipientAndIndexAreNotRead :
    ∃ t, exec (instrOfDfu .getstate (fields 0 1)) boot = .next t := ⟨_, rfl⟩

end Sys2Proof.Tests
end

section
/-! PROOFS of the family 00_scope.md: what one step takes off the input, and which instruction it runs (R5, R10, R71, R75). -/

namespace Sys2Proof.Proofs

open Machine Laws

/-! Which instruction an `IN` is fetched as (level 3 of R90). -/

theorem instrOf_inDone_of_none {s : State} (h : awaitedCommand s = none) : instrOf s .inDone = .inDone := by
  simp only [instrOf, h]

theorem instrOf_inDone_of_some {s : State} {c : DfuseCommand} (h : awaitedCommand s = some c) :
    instrOf s .inDone = Instr.ofCommand c := by
  simp only [instrOf, h]

/-! The three ways a step goes: refused, waiting, or running the oldest event's instruction. -/

theorem step_of_invalid {s : State} (hc : Config.valid s.cfg = false) : step s = .refused .invalidConfiguration := by
  simp only [step, configAccepted, hc]

theorem step_of_noEvent {s : State} (hc : Config.valid s.cfg = true) (he : s.events = []) : step s = .next s := by
  rw [step_eq hc, he]

theorem step_of_event {s : State} {e : Event} {rest : List Event} (hc : Config.valid s.cfg = true)
    (he : s.events = e :: rest) : step s = exec (instrOf s e) { s with events := rest } := by
  rw [step_eq hc, he]

/-- Settles O46: the step runs what `instrOf` fetches, and each clause names what that is for one kind of event. -/
theorem stepRunsDecodedInstruction : Obligations.StepRunsDecodedInstruction := by
  intro e rest s hc he
  have run := step_of_event hc he
  refine ⟨run, ?_, ?_, ?_, ?_, ?_⟩
  · rintro payload rfl
    exact run
  · rintro packet rfl
    exact run
  · rintro rfl
    exact run
  · rintro rfl hn
    rwa [instrOf_inDone_of_none hn] at run
  · rintro c rfl hk
    rwa [instrOf_inDone_of_some hk] at run

/-! No event writes a parameter or the input. `SETUP` and `OUT` have `setup_effect` and `onOutComplete_untouched`; `RESET` and
the class writes that an `IN` executes follow. -/

theorem onReset_sameInputs (s : State) : SameInputs s (onReset s) := by
  unfold onReset dispatcherReset vndReset stdReset
  split <;> split <;> exact ⟨rfl, rfl⟩

theorem erasePageCommand_sameInputs (arg : Word) (s : State) : SameInputs s (erasePageCommand arg s).2 := by
  unfold erasePageCommand
  dsimp only
  split
  · split <;> exact ⟨rfl, rfl⟩
  · exact ⟨rfl, rfl⟩

theorem dfuseCommand_sameInputs (length : Half) (data : List Byte) (s : State) :
    SameInputs s (dfuseCommand length data s).2 := by
  unfold dfuseCommand
  split
  · exact ⟨rfl, rfl⟩
  · exact erasePageCommand_sameInputs _ s
  · exact ⟨rfl, rfl⟩

theorem classSet_sameInputs {r : SetupRequest} {data : List Byte} {s : State} {x : Bool × State}
    (h : classSet r data s = some x) : SameInputs s x.2 := by
  obtain ⟨-, rfl⟩ | ⟨-, rfl⟩ | ⟨-, rfl | ⟨a, rfl⟩ | ⟨-, -, -, rfl⟩⟩ := classSet_cases h
  · exact ⟨rfl, rfl⟩
  · exact ⟨rfl, rfl⟩
  · exact ⟨endDownload_cfg s, endDownload_events s⟩
  · exact ⟨rfl, rfl⟩
  · exact dfuseCommand_sameInputs r.length data s

theorem exec_inDone_sameInputs {s t : State} (h : exec .inDone s = .next t) : SameInputs s t := by
  obtain ⟨-, same, -⟩ | ⟨-, r, x, -, -, hx, rfl⟩ := inDone_effect h
  · exact same
  · obtain ⟨hc, he⟩ := classSet_sameInputs hx
    exact ⟨(completeWrite_cfg x.1 x.2).trans hc, (completeWrite_events x.1 x.2).trans he⟩

theorem exec_decodeSetup_sameInputs {s t : State} {p : List Byte} (h : exec (decodeSetup p) s = .next t) :
    SameInputs s t := by
  obtain ⟨u, hu, same, -, -⟩ := setup_effect (isSetup_decodeSetup p) (wf_decodeSetup p) s
  rw [h] at hu
  injection hu with hu
  exact hu ▸ same

/-- A step leaves the parameters, and the input without its first event; a wait has none to take (R75, R151). -/
theorem step_inputs {s t : State} (h : step s = .next t) : t.cfg = s.cfg ∧ t.events = s.events.tail := by
  have taken : ∀ {e : Event} {rest : List Event}, s.events = e :: rest → SameInputs { s with events := rest } t →
      t.cfg = s.cfg ∧ t.events = s.events.tail := by
    intro e rest he same
    rw [he]
    exact ⟨same.cfg, same.events⟩
  obtain ⟨-, ⟨he, rfl⟩ | ⟨rest, he, rfl⟩ | ⟨rest, p, he, hx⟩ | ⟨rest, he, hx⟩ | ⟨rest, p, he, rfl⟩⟩ := step_cases h
  · simp [he]
  · exact taken he (onReset_sameInputs _)
  · exact taken he (exec_decodeSetup_sameInputs hx)
  · exact taken he (exec_inDone_sameInputs hx)
  · exact taken he (onOutComplete_untouched p _).2

/-- Settles O47: by the inversion of `step`, one kind of event at a time; the wait and the refusal are `step`'s own. -/
theorem stepTakesOneEventWaitsOrRefuses : Obligations.StepTakesOneEventWaitsOrRefuses :=
  fun _ => ⟨fun _ => step_inputs, step_of_noEvent, step_of_invalid⟩

end Sys2Proof.Proofs
end

section
/-! PROOFS of the family 10_state.md: what `RESET` leaves in every register (R50), and which rows can write the status code,
enter `Error` or change flash (R31, R37, R40). -/

namespace Sys2Proof.Proofs

open Machine Laws

/-! `RESET` (R131, R175, R206). -/

/-- The own state of a handler after its `reset`: a reference handler has none to clear (R176, R180, R186). -/
def ownAfterReset : Handler → List Byte → List Byte
  | .ref, own => own
  | .other id, _ => Config.handlerReset id

/-- The reset table of R50 as one update of the state. -/
def afterReset (s : State) : State :=
  { s with
    cts := .stalled, setupReq := none, pendOut := none, xferData := [], xferLen := 0, xferPos := 0,
    usbDevState := .default, usbAddr := 0, usbConfig := 0,
    stdOwn := ownAfterReset s.cfg.std s.stdOwn, vndOwn := ownAfterReset s.cfg.vnd s.vndOwn,
    dfuState := .idle, dfuStatusCode := .ok, addrPtr := basePointer s.cfg, pending := .noWork }

theorem stdReset_eq (s : State) :
    stdReset s = { s with usbAddr := 0, usbConfig := 0, stdOwn := ownAfterReset s.cfg.std s.stdOwn } := by
  unfold stdReset
  cases s.cfg.std <;> rfl

theorem vndReset_eq (s : State) : vndReset s = { s with vndOwn := ownAfterReset s.cfg.vnd s.vndOwn } := by
  unfold vndReset
  cases s.cfg.vnd <;> rfl

theorem onReset_eq (s : State) : onReset s = afterReset s := by
  unfold onReset dispatcherReset
  rw [stdReset_eq, vndReset_eq]
  rfl

theorem exec_reset (s : State) : exec .reset s = .next (afterReset s) := congrArg Host.Outcome.next (onReset_eq s)

theorem ownAfterReset_idem (h : Handler) (own : List Byte) :
    ownAfterReset h (ownAfterReset h own) = ownAfterReset h own := by
  cases h <;> rfl

theorem afterReset_idem (s : State) : afterReset (afterReset s) = afterReset s := by
  simp only [afterReset, ownAfterReset_idem]

theorem afterReset_ref {s : State} (hc : s.cfg = Config.ref) (he : s.events = []) (ht : s.trace = []) (hf : s.flash = [])
    (hs : s.stdOwn = []) (hv : s.vndOwn = []) : afterReset s = State.reset := by
  simp only [afterReset, hc, he, ht, hf, hs, hv]
  rfl

/-- Settles O1: `RESET` is `afterReset`, whose fields are the table's; it is idempotent because each handler's reset is. -/
theorem resetRestoresEveryRegister : Obligations.ResetRestoresEveryRegister := by
  intro s
  have own : ∀ {h k : Handler} {o : List Byte}, h = k → ownAfterReset h o = ownAfterReset k o := congrArg (ownAfterReset · _)
  exact ⟨afterReset s, exec_reset s, ⟨rfl, rfl, rfl, rfl, rfl⟩, rfl, rfl, rfl, rfl, rfl, rfl, rfl, rfl,
    own, fun _ => own, own, fun _ => own, rfl, ⟨rfl, rfl⟩, fun _ => rfl,
    (exec_reset _).trans (congrArg _ (afterReset_idem s)), afterReset_ref⟩

/-! Rows that change neither the status code nor flash and do not enter `Error`. -/

/-- The status code and flash are as before, and `Error` is not entered. -/
structure Quiet (s t : State) : Prop where
  code    : t.dfuStatusCode = s.dfuStatusCode
  noEntry : t.dfuState = .error → s.dfuState = .error
  flash   : SameFlash s t

theorem Quiet.trans {s t u : State} (h : Quiet s t) (k : Quiet t u) : Quiet s u :=
  ⟨k.code.trans h.code, fun e => h.noEntry (k.noEntry e), fun a => (k.flash a).trans (h.flash a)⟩

theorem quiet_of_untouched {s t : State} (h : ClassUntouched s t) (hi : SameInputs s t) : Quiet s t :=
  ⟨h.cls.dfuStatusCode, fun e => h.cls.dfuState.symm.trans e, sameFlash_of hi.cfg h.flash⟩

theorem quiet_newTransfer (r : SetupRequest) (s : State) : Quiet s (newTransfer r s) := ⟨rfl, id, sameFlash_refl s⟩

theorem quiet_startRead (buf : List Byte) (n : Nat) (s : State) : Quiet s (startRead buf n s) :=
  ⟨by simp, by simp, fun a => by simp⟩

theorem quiet_completeWrite (ok : Bool) (s : State) : Quiet s (completeWrite ok s) :=
  ⟨by simp, by simp, fun a => by simp⟩

theorem quiet_uploadGet (r : SetupRequest) (s : State) : Quiet s (uploadGet r s).2 := by
  unfold uploadGet
  dsimp only
  split
  · exact ⟨rfl, nofun, sameFlash_refl s⟩
  · exact ⟨rfl, nofun, sameFlash_refl s⟩

theorem quiet_pollInto {d : DfuState} {s : State} (h : d = .error → s.dfuState = .error) : Quiet s (pollInto d s).2 :=
  ⟨rfl, h, sameFlash_refl s⟩

/-- The one poll that can enter `Error` or change flash is the one that runs a block (R230, R304). -/
theorem getstatusGet_cases (s : State) :
    (∃ pb, s.dfuState = .dnloadSync ∧ s.pending = .block pb ∧ (getstatusGet s).2 = (pollBlock pb s).2) ∨
    Quiet s (getstatusGet s).2 := by
  unfold getstatusGet
  cases hs : s.dfuState with
  | dnloadSync =>
    cases hp : s.pending with
    | block pb => exact .inl ⟨pb, rfl, rfl, rfl⟩
    | noWork => exact .inr (quiet_pollInto nofun)
    | manifestWork => exact .inr (quiet_pollInto nofun)
  | manifestSync =>
    cases s.pending with
    | block pb => exact .inr (quiet_pollInto nofun)
    | noWork => exact .inr (quiet_pollInto nofun)
    | manifestWork => exact .inr ⟨rfl, nofun, sameFlash_refl s⟩
  | error => exact .inr (quiet_pollInto fun _ => hs)
  | idle => exact .inr (quiet_pollInto nofun)
  | dnBusy => exact .inr (quiet_pollInto nofun)
  | dnloadIdle => exact .inr (quiet_pollInto nofun)
  | manifest => exact .inr (quiet_pollInto nofun)
  | manifestWaitReset => exact .inr (quiet_pollInto nofun)
  | uploadIdle => exact .inr (quiet_pollInto nofun)

theorem quiet_abortSet (s : State) : Quiet s (abortSet s) := ⟨rfl, nofun, sameFlash_refl s⟩

theorem quiet_captureBlock (r : SetupRequest) (data : List Byte) (a : Nat) (s : State) :
    Quiet s (captureBlock r data a s) := ⟨rfl, nofun, sameFlash_refl s⟩

theorem quiet_setAddressPointer (arg : Word) (s : State) : Quiet s (setAddressPointer arg s).2 :=
  ⟨rfl, nofun, sameFlash_refl s⟩

theorem quiet_endDownload (s : State) : Quiet s (endDownload s) := by
  unfold endDownload
  split
  · exact ⟨rfl, nofun, sameFlash_refl s⟩
  · exact ⟨rfl, id, sameFlash_refl s⟩

/-! The inversion of a row by what it does to the status code, `Error` and flash. -/

/-- The seven ways a row goes: quiet; `RESET`; a legality violation (R204); the poll that runs a block (R280); a completed
`CLRSTATUS` (R240); the erase command, as its own row or as the `IN` it is (R254); a bad command (R255). -/
inductive RowOutcome (s : State) : Instr → State → Prop where
  | quiet {i : Instr} {t : State} (h : Quiet s t) : RowOutcome s i t
  | reset : RowOutcome s .reset (afterReset s)
  | violation {i : Instr} (r : SetupRequest) : RowOutcome s i (fail (classError .errSTALLEDPKT (newTransfer r s)))
  | poll {f : SetupFields} {pb : PendingBlock} (r : SetupRequest) (buf : List Byte) (n : Nat)
      (hs : s.dfuState = .dnloadSync) (hp : s.pending = .block pb) :
      RowOutcome s (.dfuGetstatus f) (startRead buf n (pollBlock pb (newTransfer r s)).2)
  | clrstatus {f : SetupFields} (hc : s.cts = .statusIn) (hp : s.pendOut = some (requestOfDfu .clrstatus f)) :
      RowOutcome s .inDone (completeWrite true (clrstatusSet s))
  | erase {i : Instr} {arg : Word}
      (hi : i = .dfuseErasePage arg ∨ i = .inDone ∧ awaitedCommand s = some (.erasePage arg)) :
      RowOutcome s i (completeWrite (erasePageCommand arg s).1 (erasePageCommand arg s).2)
  | badCommand : RowOutcome s .inDone (completeWrite false (badCommand s).2)

theorem rowOutcome_of_setup {i : Instr} {s t : State} (hi : isSetup i = true) (hw : i.wf = true)
    (h : exec i s = .next t) : RowOutcome s i t := by
  obtain ⟨u, hu, same, -, effect⟩ := setup_effect hi hw s
  obtain rfl : t = u := Host.Outcome.next.inj (h.symm.trans hu)
  obtain untouched | ⟨r, rfl⟩ | ⟨f, rfl, -, rfl⟩ | ⟨f, rfl, -, -, rfl⟩ := effect
  · exact .quiet (quiet_of_untouched untouched same)
  · exact .violation r
  · exact .quiet (((quiet_newTransfer _ s).trans (quiet_uploadGet _ _)).trans (quiet_startRead _ _ _))
  · obtain ⟨pb, hs, hp, he⟩ | quiet := getstatusGet_cases (newTransfer (requestOfDfu .getstatus f) s)
    · rw [he]
      exact .poll _ _ _ hs hp
    · exact .quiet (((quiet_newTransfer _ s).trans quiet).trans (quiet_startRead _ _ _))

/-- A class packet with the selector of one of the seven requests is that request with its own free fields (R102). -/
theorem eq_requestOfDfu {r : SetupRequest} {q : DfuRequest} (ht : r.type = .classReq)
    (hq : DfuRequest.ofSelector r.dir r.code = some q) : r = requestOfDfu q r.fields := by
  obtain ⟨dir, type, recipient, code, value, index, length⟩ := r
  obtain rfl : type = .classReq := ht
  cases dir with
  | hostToDevice =>
    simp only [DfuRequest.ofSelector] at hq
    split_ifs at hq <;> (cases hq; subst code; rfl)
  | deviceToHost =>
    simp only [DfuRequest.ofSelector] at hq
    split_ifs at hq <;> (cases hq; subst code; rfl)

theorem awaitedCommand_of {s : State} {r : SetupRequest} {c : DfuseCommand} (hc : s.cts = .statusIn)
    (hp : s.pendOut = some r) (hr : isCommandRequest s.cfg r = true)
    (hk : commandOf s.cfg r.length (s.xferData.take s.xferLen) = .ok c) : awaitedCommand s = some c := by
  simp only [awaitedCommand, hc, hp, hr, hk, if_true, Except.toOption]

/-- The `IN` that completes a block-0 `DNLOAD` with data runs the command that the data is, or refuses it (R252). -/
theorem rowOutcome_of_dfuseCommand {s : State} {r : SetupRequest} (hc : s.cts = .statusIn) (hp : s.pendOut = some r)
    (hr : isCommandRequest s.cfg r = true) :
    RowOutcome s .inDone (completeWrite (dfuseCommand r.length (s.xferData.take s.xferLen) s).1
      (dfuseCommand r.length (s.xferData.take s.xferLen) s).2) := by
  unfold dfuseCommand
  cases hk : commandOf s.cfg r.length (s.xferData.take s.xferLen) with
  | error e => exact .badCommand
  | ok c =>
    cases c with
    | setAddressPointer arg => exact .quiet ((quiet_setAddressPointer arg s).trans (quiet_completeWrite _ _))
    | erasePage arg => exact .erase (.inr ⟨rfl, awaitedCommand_of hc hp hr hk⟩)

theorem rowOutcome_of_inDone {s t : State} (h : exec .inDone s = .next t) : RowOutcome s .inDone t := by
  obtain ⟨untouched, same, -⟩ | ⟨hc, r, x, hp, ht, hx, rfl⟩ := inDone_effect h
  · exact .quiet (quiet_of_untouched untouched same)
  · obtain ⟨hq, rfl⟩ | ⟨-, rfl⟩ | ⟨hq, rfl | ⟨a, rfl⟩ | ⟨hv, h0, hl, rfl⟩⟩ := classSet_cases hx
    · exact .clrstatus hc (hp.trans (congrArg some (eq_requestOfDfu ht hq)))
    · exact .quiet ((quiet_abortSet s).trans (quiet_completeWrite _ _))
    · exact .quiet ((quiet_endDownload s).trans (quiet_completeWrite _ _))
    · exact .quiet ((quiet_captureBlock r _ a s).trans (quiet_completeWrite _ _))
    · have hr : isCommandRequest s.cfg r = true := by
        simp [isCommandRequest, hv, ht, hq, h0, Nat.pos_of_ne_zero hl]
      exact rowOutcome_of_dfuseCommand hc hp hr

theorem rowOutcome_of_outDone {s t : State} {p : List Byte} (h : exec (.outDone p) s = .next t) :
    RowOutcome s (.outDone p) t := by
  obtain rfl : onOutComplete p s = t := Host.Outcome.next.inj h
  obtain ⟨untouched, same⟩ := onOutComplete_untouched p s
  exact .quiet (quiet_of_untouched untouched same)

/-- Every well-formed row, in every state, has one of the outcomes. -/
theorem rowOutcome {i : Instr} {s t : State} (hw : i.wf = true) (h : exec i s = .next t) : RowOutcome s i t := by
  cases hi : isSetup i with
  | true => exact rowOutcome_of_setup hi hw h
  | false =>
    cases i with
    | reset =>
      obtain rfl : afterReset s = t := Host.Outcome.next.inj ((exec_reset s).symm.trans h)
      exact .reset
    | inDone => exact rowOutcome_of_inDone h
    | outDone p => exact rowOutcome_of_outDone h
    | dfuseSetAddressPointer arg =>
      obtain rfl := Host.Outcome.next.inj h
      exact .quiet ((quiet_setAddressPointer arg s).trans (quiet_completeWrite _ _))
    | dfuseErasePage arg =>
      obtain rfl := Host.Outcome.next.inj h
      exact .erase (.inl rfl)
    | _ => cases hi

/-! The three rules. -/

/-- Settles O23: of the outcomes only the poll leaves a transfer open in `Error`; the others that enter it end in a stall. -/
theorem classErrorForcesStall : Obligations.ClassErrorForcesStall := by
  intro i s t hw h herr hnew
  cases rowOutcome hw h with
  | quiet q => exact absurd hnew (by simp [q.noEntry herr, q.code])
  | reset => cases herr
  | violation r => exact .inl rfl
  | poll r buf n hs hp => exact .inr ⟨_, _, rfl, hs, hp⟩
  | clrstatus hc hp => cases herr
  | erase hi => exact .inl (completeWrite_cts _ _)
  | badCommand => exact .inl rfl

/-- Settles O56: of the outcomes only the poll that runs a block and the erase command do not leave flash. -/
theorem flashChangesOnlyInPollOrErase : Obligations.FlashChangesOnlyInPollOrErase := by
  intro i s t hw h hflash
  cases rowOutcome hw h with
  | quiet q => exact absurd q.flash hflash
  | reset => exact absurd (sameFlash_refl s) hflash
  | violation r => exact absurd (sameFlash_refl s) hflash
  | poll r buf n hs hp => exact .inl ⟨_, _, rfl, hs, hp⟩
  | clrstatus hc hp => exact absurd (sameFlash_refl s) hflash
  | erase hi =>
    obtain rfl | ⟨rfl, hk⟩ := hi
    · exact .inr (.inl ⟨_, rfl⟩)
    · exact .inr (.inr ⟨_, rfl, hk⟩)
  | badCommand => exact absurd (sameFlash_refl s) hflash

/-- The status code is kept, or is an error code in `Error` (R31). -/
def CodeKeptOrError (s t : State) : Prop :=
  t.dfuStatusCode = s.dfuStatusCode ∨ t.dfuState = .error ∧ t.dfuStatusCode ≠ .ok

theorem pollBlock_code (pb : PendingBlock) (s : State) : CodeKeptOrError s (pollBlock pb s).2 := by
  simp only [CodeKeptOrError, pollBlock, blockExec_eq, apply_dfuState, apply_dfuStatusCode]
  cases hc : (blockOutcome s.cfg pb s.flash).error with
  | none => exact .inl rfl
  | some c => exact .inr ⟨rfl, fun hok => blockOutcome_error s.cfg pb s.flash (hc.trans (congrArg some hok))⟩

theorem erasePageCommand_code (arg : Word) (s : State) : CodeKeptOrError s (erasePageCommand arg s).2 := by
  unfold erasePageCommand
  dsimp only
  split
  · split
    · exact .inl rfl
    · exact .inr ⟨rfl, nofun⟩
  · exact .inr ⟨rfl, nofun⟩

/-- R31 of one row: the code is kept, or an error code in `Error`, or `OK` by `RESET` or by a completed `CLRSTATUS`. -/
theorem exec_code {i : Instr} {s t : State} (hw : i.wf = true) (h : exec i s = .next t) :
    CodeKeptOrError s t ∨ t.dfuStatusCode = .ok ∧ (i = .reset ∨
      i = .inDone ∧ s.cts = .statusIn ∧ ∃ f, s.pendOut = some (requestOfDfu .clrstatus f)) := by
  cases rowOutcome hw h with
  | quiet q => exact .inl (.inl q.code)
  | reset => exact .inr ⟨rfl, .inl rfl⟩
  | violation r => exact .inl (.inr ⟨rfl, nofun⟩)
  | poll r buf n hs hp =>
    left
    simpa [CodeKeptOrError] using pollBlock_code _ (newTransfer r s)
  | clrstatus hc hp => exact .inr ⟨rfl, .inr ⟨rfl, hc, _, hp⟩⟩
  | erase hi =>
    left
    simpa [CodeKeptOrError] using erasePageCommand_code _ s
  | badCommand => exact .inl (.inr ⟨rfl, nofun⟩)

/-- R31 of the step that takes an event and runs its row; `RESET` and `IN` are the rows of their own events only. -/
theorem code_of_event {e : Event} {rest : List Event} {i : Instr} {s t : State} (he : s.events = e :: rest)
    (hw : i.wf = true) (h : exec i { s with events := rest } = .next t) (hreset : i = .reset → e = .reset)
    (hin : i = .inDone → e = .inDone) :
    CodeKeptOrError s t ∨ t.dfuStatusCode = .ok ∧ ((∃ rest, s.events = .reset :: rest) ∨
      (∃ rest f, s.events = .inDone :: rest ∧ s.cts = .statusIn ∧ s.pendOut = some (requestOfDfu .clrstatus f))) := by
  obtain kept | ⟨hok, hi | ⟨hi, hc, f, hp⟩⟩ := exec_code hw h
  · exact .inl kept
  · exact .inr ⟨hok, .inl ⟨rest, hreset hi ▸ he⟩⟩
  · exact .inr ⟨hok, .inr ⟨rest, f, hin hi ▸ he, hc, hp⟩⟩

theorem decodeSetup_ne {i : Instr} (hi : isSetup i = false) (p : List Byte) : decodeSetup p ≠ i := by
  rintro rfl
  simp [isSetup_decodeSetup] at hi

/-- Settles O55: by the inversion of `step`, one kind of event at a time; the rule of one row needs no invariant. -/
theorem statusCodeIsSticky : Obligations.StatusCodeIsSticky := by
  intro s t _ h hne
  have changed : ∀ {Q : Prop}, CodeKeptOrError s t ∨ Q → t.dfuState = .error ∧ t.dfuStatusCode ≠ .ok ∨ Q :=
    fun hk => hk.imp_left fun kept => kept.resolve_left hne
  obtain ⟨-, ⟨-, rfl⟩ | ⟨rest, he, rfl⟩ | ⟨rest, p, he, hx⟩ | ⟨rest, he, hx⟩ | ⟨rest, p, he, rfl⟩⟩ := step_cases h
  · exact absurd rfl hne
  · exact changed (code_of_event (i := .reset) he rfl rfl (fun _ => rfl) nofun)
  · exact changed (code_of_event he (wf_decodeSetup p) hx (fun hi => absurd hi (decodeSetup_ne rfl p))
      (fun hi => absurd hi (decodeSetup_ne rfl p)))
  · exact changed (code_of_event he rfl hx nofun fun _ => rfl)
  · exact changed (code_of_event (i := .outDone p) he rfl rfl nofun nofun)

end Sys2Proof.Proofs
end

section
/-! PROOFS of the family 20_memory.md: which flash bytes a poll, an erase command and any step can change (R61, R66). -/

namespace Sys2Proof.Proofs

open Machine Laws

/-! What a poll and the erase command leave in flash, said once. -/

theorem pollBlock_flashByte (pb : PendingBlock) (s : State) (x : Nat) :
    (pollBlock pb s).2.flashByte x = Memory.read (unlistedByte s.cfg) (blockOutcome s.cfg pb s.flash).flash x := by
  simp [pollBlock, State.flashByte, blockExec_eq]

theorem erasePageCommand_flash (arg : Word) (s : State) :
    (erasePageCommand arg s).2.flash =
      if addressInRange s.cfg arg.toNat then fpErasePage s.cfg s.flash arg.toNat else s.flash := by
  unfold erasePageCommand
  dsimp only
  split
  · split <;> rfl
  · rfl

theorem erasePageCommand_flashByte (arg : Word) (s : State) (x : Nat) :
    (erasePageCommand arg s).2.flashByte x = Memory.read (unlistedByte s.cfg)
      (if addressInRange s.cfg arg.toNat then fpErasePage s.cfg s.flash arg.toNat else s.flash) x := by
  rw [State.flashByte, (erasePageCommand_sameInputs arg s).cfg, erasePageCommand_flash]

/-- The two ways a row changes flash (R295): the poll runs the pending block; the erase command, as its own row or as the `IN`
it is, runs on its argument. -/
theorem exec_flash_cases {i : Instr} {s t : State} (hw : i.wf = true) (h : exec i s = .next t) :
    SameFlash s t ∨
    (∃ f pb, i = .dfuGetstatus f ∧ s.pending = .block pb ∧ ∀ x,
      t.flashByte x = Memory.read (unlistedByte s.cfg) (blockOutcome s.cfg pb s.flash).flash x) ∨
    (∃ arg, (i = .dfuseErasePage arg ∨ i = .inDone) ∧ ∀ x,
      t.flashByte x = (erasePageCommand arg s).2.flashByte x) := by
  cases rowOutcome hw h with
  | quiet q => exact .inl q.flash
  | reset => exact .inl (sameFlash_refl s)
  | violation r => exact .inl (sameFlash_refl s)
  | poll r buf n hs hp =>
    refine .inr (.inl ⟨_, _, rfl, hp, fun x => ?_⟩)
    exact (startRead_flashByte _ _ _ x).trans (pollBlock_flashByte _ (newTransfer r s) x)
  | clrstatus hc hp => exact .inl (sameFlash_refl s)
  | erase hi => exact .inr (.inr ⟨_, hi.imp_right And.left, fun x => completeWrite_flashByte _ _ x⟩)
  | badCommand => exact .inl (sameFlash_refl s)

/-! The frame by pages. -/

theorem erasePageCommand_flashByte_outside {arg : Word} {s : State} {x : Nat} (hr : referenceProgrammer s.cfg = true)
    (hx : x < pageBase s.cfg arg.toNat ∨ pageBase s.cfg arg.toNat + s.cfg.pageSize ≤ x) :
    (erasePageCommand arg s).2.flashByte x = s.flashByte x := by
  rw [erasePageCommand_flashByte]
  split
  · exact read_fpErasePage_outside hr hx
  · rfl

/-- Settles O40: the poll's frame is the block run's, and the command erases at most the page of its argument. -/
theorem flashFrameOfPollAndErase : Obligations.FlashFrameOfPollAndErase := by
  intro s hr hc
  refine ⟨fun f pb t hp hd hl h x hx => ?_, fun arg t h x hx => ?_⟩
  · obtain same | ⟨_, pb', _, hp', read⟩ | ⟨_, hi, _⟩ := exec_flash_cases rfl h
    · exact same x
    · obtain rfl : pb = pb' := Pending.block.inj (hp.symm.trans hp')
      exact (read x).trans (read_blockOutcome_outside hr (validFacts_page_pos (validFacts hc)) hd hl hx)
    · simp at hi
  · obtain rfl := Host.Outcome.next.inj h
    exact (completeWrite_flashByte _ _ x).trans (erasePageCommand_flashByte_outside hr hx)

/-! The frame by the programmable region: what is checked in range has its pages in the region, what is not changes nothing. -/

/-- Under a valid configuration an address outside the region is outside every page of a range that passes the check (R61). -/
theorem not_inBlockPages_of_not_inRegion {c : Config} {a l x : Nat} (hc : Config.valid c = true) (hl : 1 ≤ l)
    (hr : inRange c a l = true) (hx : ¬inRegion c x) : ¬inBlockPages c a l x :=
  have v := validFacts hc
  fun hin => hx (inBlockPages_region (validFacts_page_pos v) v.aligned.1 v.aligned.2 hl hr hin)

theorem blockOutcome_flash_of_not_inRange {c : Config} {pb : PendingBlock} {m : List Host.Cell}
    (h : inRange c pb.target (paddedLength pb.length.toNat) = false) : (blockOutcome c pb m).flash = m := by
  simp [blockOutcome, h]

theorem read_blockOutcome_of_not_inRegion {c : Config} {pb : PendingBlock} {m : List Host.Cell} {x : Nat}
    (hc : Config.valid c = true) (hr : referenceProgrammer c = true) (hd : pb.data.length = pb.length.toNat)
    (hl : 1 ≤ pb.length.toNat) (hx : ¬inRegion c x) :
    Memory.read (unlistedByte c) (blockOutcome c pb m).flash x = Memory.read (unlistedByte c) m x := by
  cases hin : inRange c pb.target (paddedLength pb.length.toNat) with
  | false => rw [blockOutcome_flash_of_not_inRange hin]
  | true =>
    have outside := not_inBlockPages_of_not_inRegion hc (hl.trans (le_paddedLength _)) hin hx
    exact read_blockOutcome_outside hr (validFacts_page_pos (validFacts hc)) hd hl outside

/-- The erased page is the page of the one-byte range at the argument, which the command checks (R254). -/
theorem erasePageCommand_flashByte_of_not_inRegion {arg : Word} {s : State} {x : Nat} (hc : Config.valid s.cfg = true)
    (hr : referenceProgrammer s.cfg = true) (hx : ¬inRegion s.cfg x) :
    (erasePageCommand arg s).2.flashByte x = s.flashByte x := by
  cases hin : addressInRange s.cfg arg.toNat with
  | false =>
    rw [erasePageCommand_flashByte, hin]
    rfl
  | true =>
    have outside := not_inBlockPages_of_not_inRegion hc le_rfl hin hx
    rw [inBlockPages, Nat.add_sub_cancel, not_and_or, not_le, not_lt] at outside
    exact erasePageCommand_flashByte_outside hr outside

/-- No row changes a byte outside the region, whatever the engine registers hold. -/
theorem exec_flashByte_of_not_inRegion {i : Instr} {s t : State} {x : Nat} (hw : i.wf = true) (hb : Base s)
    (hr : referenceProgrammer s.cfg = true) (h : exec i s = .next t) (hx : ¬inRegion s.cfg x) :
    t.flashByte x = s.flashByte x := by
  obtain same | ⟨_, pb, -, hp, read⟩ | ⟨arg, -, read⟩ := exec_flash_cases hw h
  · exact same x
  · obtain ⟨-, hl, -, hd, -⟩ := hb.classInv.block pb hp
    exact (read x).trans (read_blockOutcome_of_not_inRegion hb.config hr hd hl hx)
  · exact (read x).trans (erasePageCommand_flashByte_of_not_inRegion hb.config hr hx)

theorem wf_instrOf (s : State) (e : Event) : (instrOf s e).wf = true := by
  cases e with
  | reset => rfl
  | setup p => exact wf_decodeSetup p
  | outDone p => rfl
  | inDone =>
    cases h : awaitedCommand s with
    | none => rw [instrOf_inDone_of_none h]; rfl
    | some c => rw [instrOf_inDone_of_some h]; cases c <;> rfl

/-- Settles O57: a step waits, or runs one row from a state that differs only in its input. -/
theorem flashOutsideRegionIsUntouched : Obligations.FlashOutsideRegionIsUntouched := by
  intro s t hinv hr h x hx
  cases he : s.events with
  | nil =>
    obtain rfl : s = t := Host.Outcome.next.inj ((step_of_noEvent hinv.config he).symm.trans h)
    rfl
  | cons e rest =>
    rw [step_of_event hinv.config he] at h
    have taken := Base.of_inv (inv_takeEvent rest hinv)
    exact exec_flashByte_of_not_inRegion (s := { s with events := rest }) (wf_instrOf s e) taken hr h hx

end Sys2Proof.Proofs
end

section
/-! PROOFS of the family 30_encoding.md, first part: the decoder and the encoder undo each other (R91 to R110). -/

namespace Sys2Proof.Proofs

open Machine Laws

/-! Packets (R92 to R96): the row a packet decodes to, and the packet that row encodes to. -/

theorem decode_encodeRequest (codes : CmdCodes) (r : SetupRequest) :
    decode codes .setup64 (encodeRequest r) = .ok (Instr.ofRequest r) := by
  simp only [decode, decodeRequest_encodeRequest]

/-- The five rows of a standard packet (R110): the four of `STD_REF` by direction and code, and the handler row. -/
inductive StandardRow (f : SetupFields) : Dir → Byte → Instr → Prop where
  | setAddress : StandardRow f .hostToDevice 5 (.stdSetAddress f)
  | getDescriptor : StandardRow f .deviceToHost 6 (.stdGetDescriptor f)
  | getConfiguration : StandardRow f .deviceToHost 8 (.stdGetConfiguration f)
  | setConfiguration : StandardRow f .hostToDevice 9 (.stdSetConfiguration f)
  | handler {dir : Dir} {code : Byte} : StandardRow f dir code (.handlerStandard dir code f)

theorem standardRow_ofStandard (dir : Dir) (code : Byte) (f : SetupFields) :
    StandardRow f dir code (Instr.ofStandard dir code f) := by
  cases dir with
  | hostToDevice =>
    simp only [Instr.ofStandard]
    split_ifs with h5 h9
    · exact h5 ▸ .setAddress
    · exact h9 ▸ .setConfiguration
    · exact .handler
  | deviceToHost =>
    simp only [Instr.ofStandard]
    split_ifs with h6 h8
    · exact h6 ▸ .getDescriptor
    · exact h8 ▸ .getConfiguration
    · exact .handler

theorem encode_standardRow {f : SetupFields} {dir : Dir} {code : Byte} {i : Instr} (codes : CmdCodes)
    (h : StandardRow f dir code i) : encode codes i = (.setup64, encodeRequest (f.request dir .standard code)) := by
  cases h <;> rfl

theorem ofStandard_of_not_mem {dir : Dir} {code : Byte} (h : (dir, code) ∉ standardRows) (f : SetupFields) :
    Instr.ofStandard dir code f = .handlerStandard dir code f := by
  cases dir with
  | hostToDevice =>
    obtain ⟨h5, h9⟩ : code ≠ 5 ∧ code ≠ 9 := by simpa [standardRows] using h
    simp only [Instr.ofStandard, if_neg h5, if_neg h9]
  | deviceToHost =>
    obtain ⟨h6, h8⟩ : code ≠ 6 ∧ code ≠ 8 := by simpa [standardRows] using h
    simp only [Instr.ofStandard, if_neg h6, if_neg h8]

theorem ofClass_of_not_mem {dir : Dir} {code : Byte} (h : (dir, code) ∉ classRows) (f : SetupFields) :
    Instr.ofClass dir code f = .handlerClass dir code f := by
  simp only [Instr.ofClass, (ofSelector_none_iff dir code).mpr h]

theorem ofRequest_requestOfDfu (q : DfuRequest) (f : SetupFields) :
    Instr.ofRequest (requestOfDfu q f) = instrOfDfu q f := by
  cases q <;> rfl

theorem encode_instrOfDfu (codes : CmdCodes) (q : DfuRequest) (f : SetupFields) :
    encode codes (instrOfDfu q f) = (.setup64, encodeRequest (requestOfDfu q f)) := by
  cases q <;> rfl

/-- Whatever row a packet selects, that row's encoding is the packet. -/
theorem encode_ofRequest (codes : CmdCodes) (r : SetupRequest) :
    encode codes (Instr.ofRequest r) = (.setup64, encodeRequest r) := by
  obtain ⟨dir, type, recipient, code, value, index, length⟩ := r
  cases type with
  | standard => exact encode_standardRow codes (standardRow_ofStandard dir code _)
  | classReq =>
    cases hq : DfuRequest.ofSelector dir code with
    | some q =>
      have hr := eq_requestOfDfu (r := ⟨dir, .classReq, recipient, code, value, index, length⟩) rfl hq
      rw [hr, ofRequest_requestOfDfu, encode_instrOfDfu]
    | none =>
      simp only [Instr.ofRequest, Instr.ofClass, hq]
      rfl
  | vendor => rfl
  | reserved => rfl

theorem decodeSetup_of_length_ne {payload : List Byte} (h : payload.length ≠ 8) :
    decodeSetup payload = .setup payload := by
  simp only [decodeSetup, (decodeRequest_none_iff payload).mpr h]

/-! DfuSe commands (R108, R252). -/

/-- With distinct command bytes a command block says which command it is. -/
theorem decodeCommand_encodeCommand {codes : CmdCodes} (h : codes.setAddress ≠ codes.erase) (c : DfuseCommand) :
    decodeCommand codes (encodeCommand codes c) = .ok c := by
  cases c with
  | setAddressPointer arg => simp only [encodeCommand, decodeCommand, le32_extract, if_true]
  | erasePage arg => simp only [encodeCommand, decodeCommand, le32_extract, if_neg h.symm, if_true]

theorem decode_encodeCommand {codes : CmdCodes} (h : codes.setAddress ≠ codes.erase) (c : DfuseCommand) :
    decode codes .dfuseCmd40 (encodeCommand codes c) = .ok (Instr.ofCommand c) := by
  rw [decode, decodeCommand_encodeCommand h]
  rfl

/-- Settles O49: an event record is read back by its kind, a packet by `decode_encodeRequest` into the most specific row,
which for a well-formed handler row is that row, and a command by its distinct byte. -/
theorem decodeOfEncode : Obligations.DecodeOfEncode := by
  intro codes i hcodes hw
  cases i with
  | reset => rfl
  | setup payload =>
    have hlen : payload.length ≠ 8 := by simpa [Instr.wf] using hw
    exact congrArg Except.ok (decodeSetup_of_length_ne hlen)
  | inDone => rfl
  | outDone packet => rfl
  | handlerStandard dir code f =>
    have hrow : (dir, code) ∉ standardRows := by simpa [Instr.wf] using hw
    exact (decode_encodeRequest codes _).trans (congrArg Except.ok (ofStandard_of_not_mem hrow f))
  | handlerClass dir code f =>
    have hrow : (dir, code) ∉ classRows := by simpa [Instr.wf] using hw
    exact (decode_encodeRequest codes _).trans (congrArg Except.ok (ofClass_of_not_mem hrow f))
  | handlerVendor dir code f => exact decode_encodeRequest codes _
  | handlerReserved dir code f => exact decode_encodeRequest codes _
  | dfuDetach f => exact decode_encodeRequest codes _
  | dfuDnload f => exact decode_encodeRequest codes _
  | dfuUpload f => exact decode_encodeRequest codes _
  | dfuGetstatus f => exact decode_encodeRequest codes _
  | dfuClrstatus f => exact decode_encodeRequest codes _
  | dfuGetstate f => exact decode_encodeRequest codes _
  | dfuAbort f => exact decode_encodeRequest codes _
  | dfuseSetAddressPointer arg => exact decode_encodeCommand hcodes (.setAddressPointer arg)
  | dfuseErasePage arg => exact decode_encodeCommand hcodes (.erasePage arg)
  | stdSetAddress f => exact decode_encodeRequest codes _
  | stdGetDescriptor f => exact decode_encodeRequest codes _
  | stdGetConfiguration f => exact decode_encodeRequest codes _
  | stdSetConfiguration f => exact decode_encodeRequest codes _

/-- Settles O50: an 8-byte packet decodes to a request, whose row encodes to the request's own bytes. -/
theorem encodeOfDecodedPacket : Obligations.EncodeOfDecodedPacket := by
  intro codes packet hlen
  refine ⟨wf_decodeSetup packet, ?_⟩
  cases hd : decodeRequest packet with
  | none => exact absurd hlen ((decodeRequest_none_iff packet).mp hd)
  | some r =>
    have hi : decodeSetup packet = Instr.ofRequest r := by simp only [decodeSetup, hd]
    rw [hi, encode_ofRequest, encodeRequest_of_decodeRequest hd]

/-- Settles O48: each word is fixed, and the decoder computes its row. -/
theorem specWordsDecode : Obligations.SpecWordsDecode :=
  ⟨rfl, rfl, rfl, rfl, rfl, rfl, rfl, rfl⟩

end Sys2Proof.Proofs
end

section
/-! PROOFS of the family 30_encoding.md, second part: what the rows of a packet do with it (R92, R97, R103, R106, R108). -/

namespace Sys2Proof.Proofs

open Machine Laws

/-! A payload that is no packet (R92, R133 step 2). -/

theorem exec_setup_of_length_ne {payload : List Byte} (h : payload.length ≠ 8) (s : State) :
    exec (.setup payload) s = .next (parseFailure s) := by
  simp only [exec, execSetup, onSetup, (decodeRequest_none_iff payload).mpr h]

/-- Settles O2: a payload of another length is no packet, and `parseFailure` is a stall with the request dropped. -/
theorem setupOfWrongLengthStalls : Obligations.SetupOfWrongLengthStalls := by
  intro payload s
  refine ⟨decodeRequest_none_iff payload, fun h => ⟨decodeSetup_of_length_ne h, _, exec_setup_of_length_ne h s, ?_⟩⟩
  exact ⟨fail_stalled rfl, rfl, ⟨⟨rfl, rfl⟩, ⟨rfl, rfl, rfl, rfl, rfl⟩, ⟨rfl, rfl, rfl, rfl⟩, sameFlash_refl s⟩⟩

/-! Legality as the table of R203 writes it, and a read that is answered (R133 step 5). -/

theorem legalIn_iff_mem_legalStates (q : DfuRequest) (d : DfuState) : legalIn q d = true ↔ d ∈ legalStates q := by
  cases q <;> cases d <;> decide

theorem readAnswered_startRead {r : SetupRequest} {buf : List Byte} {out : List Action} {s u : State}
    (hp : u.pendOut = none) (hr : u.setupReq = some r) (ht : u.trace = s.trace ++ out) (hi : SameInputs s u)
    (hd : SameDevice s u) : ReadAnswered r buf out s (startRead buf r.length.toNat u) where
  begun := readBegun_startRead hi.cfg hp ht
  setupReq := (startRead_setupReq ..).trans hr
  inputs := ⟨(startRead_cfg ..).trans hi.cfg, (startRead_events ..).trans hi.events⟩
  device := ⟨(startRead_usbDevState ..).trans hd.usbDevState, (startRead_usbAddr ..).trans hd.usbAddr,
    (startRead_usbConfig ..).trans hd.usbConfig, (startRead_stdOwn ..).trans hd.stdOwn,
    (startRead_vndOwn ..).trans hd.vndOwn⟩

theorem sameClass_newTransfer (r : SetupRequest) (s : State) : SameClass s (newTransfer r s) := ⟨rfl, rfl, rfl, rfl⟩

theorem sameClass_startRead {s u : State} (h : SameClass s u) (buf : List Byte) (n : Nat) :
    SameClass s (startRead buf n u) :=
  ⟨(startRead_dfuState ..).trans h.dfuState, (startRead_dfuStatusCode ..).trans h.dfuStatusCode,
    (startRead_addrPtr ..).trans h.addrPtr, (startRead_pending ..).trans h.pending⟩

/-- Settles O28: `GETSTATE` reads the state and writes nothing, so the answer is sent from the freshly opened transfer. -/
theorem getstateReportsState : Obligations.GetstateReportsState := by
  rintro f s hg ⟨hbusy, hmanifest, hwait⟩
  have hl : legal .getstate (requestOfDfu .getstate f) s = true := by
    simp [legal, legalIn, extraCondition, hbusy, hmanifest, hwait]
  have he : exec (.dfuGetstate f) s = .next (startRead [s.cfg.stateCodes.code s.dfuState] f.length.toNat
      (newTransfer (requestOfDfu .getstate f) s)) := exec_dfu_read hg hl rfl rfl
  refine ⟨_, he, ?_, sameClass_startRead (sameClass_newTransfer _ s) _ _, startRead_flashByte _ _ _⟩
  exact readAnswered_startRead rfl rfl (List.append_nil _).symm ⟨rfl, rfl⟩ ⟨rfl, rfl, rfl, rfl, rfl⟩

/-! The status record (R103). -/

/-- The three bytes that `bytesLe 3` gives are the low 24 bits (R8). -/
theorem toNat_bytes_three (t : Nat) :
    (BitVec.ofNat 8 t).toNat + 2 ^ 8 * (BitVec.ofNat 8 (t / 256)).toNat + 2 ^ 16 * (BitVec.ofNat 8 (t / 256 / 256)).toNat =
      t % 2 ^ 24 := by
  simp only [BitVec.toNat_ofNat]
  omega

/-- Every poll answers a status record with the status code as it is before the poll (R230). -/
theorem getstatusGet_answer (s : State) :
    ∃ ms d, (getstatusGet s).1 = statusBytes s.cfg s.dfuStatusCode ms d := by
  unfold getstatusGet
  cases s.dfuState with
  | dnloadSync => cases s.pending <;> exact ⟨_, _, rfl⟩
  | manifestSync => cases s.pending <;> exact ⟨_, _, rfl⟩
  | _ => exact ⟨_, _, rfl⟩

/-- Settles O32: `bytesLe` spells the timeout out in three bytes, and each legal poll sends its answer, a record, clamped. -/
theorem statusRecordLayout : Obligations.StatusRecordLayout := by
  intro c code t d
  refine ⟨⟨_, _, _, rfl, toNat_bytes_three t⟩, fun f s hg hs => ?_⟩
  have hl : legal .getstatus (requestOfDfu .getstatus f) s = true := by
    simp [legal, extraCondition, (legalIn_iff_mem_legalStates _ _).mpr hs]
  obtain ⟨ms, reported, answer⟩ := getstatusGet_answer (newTransfer (requestOfDfu .getstatus f) s)
  refine ⟨_, ms, reported, exec_dfu_read hg hl rfl (congrArg some answer), ?_, ?_⟩
  · exact startRead_xferLen ..
  · exact startRead_xferData ..

/-! The DfuSe command that an `IN` completes (R108, R252). -/

theorem le32_eq_ofNat (a0 a1 a2 a3 : Byte) : le32 a0 a1 a2 a3 =
    BitVec.ofNat 32 (a0.toNat + 2 ^ 8 * a1.toNat + 2 ^ 16 * a2.toNat + 2 ^ 24 * a3.toNat) := by
  rw [← toNat_le32, BitVec.ofNat_toNat, BitVec.setWidth_eq]

theorem isCommandRequest_dnload {c : Config} {f : SetupFields} (hv : c.variant = .dfuse) (h0 : f.value = 0)
    (hl : 0 < f.length.toNat) : isCommandRequest c (requestOfDfu .dnload f) = true := by
  simp [isCommandRequest, requestOfDfu, SetupFields.request, DfuRequest.ofSelector, hv, h0, hl]

theorem commandOf_of_five_le {length : Half} (h : 5 ≤ length.toNat) (c : Config) (data : List Byte) :
    commandOf c length data = decodeCommand c.cmdCodes data := if_neg (by omega)

theorem decodeCommand_setAddress (codes : CmdCodes) (a0 a1 a2 a3 : Byte) (rest : List Byte) :
    decodeCommand codes (codes.setAddress :: a0 :: a1 :: a2 :: a3 :: rest) =
      .ok (.setAddressPointer (le32 a0 a1 a2 a3)) := if_pos rfl

theorem decodeCommand_erase {codes : CmdCodes} (h : codes.setAddress ≠ codes.erase) (a0 a1 a2 a3 : Byte)
    (rest : List Byte) :
    decodeCommand codes (codes.erase :: a0 :: a1 :: a2 :: a3 :: rest) = .ok (.erasePage (le32 a0 a1 a2 a3)) :=
  (if_neg h.symm).trans (if_pos rfl)

/-- Settles O45: the received block decodes to the command, so that command is awaited, and the row of an awaited command is
the `IN` that completes it. -/
theorem commandRowsAreTheCompletingIn : Obligations.CommandRowsAreTheCompletingIn := by
  intro f code a0 a1 a2 a3 rest s hv hcodes hc hp h0 hlen hdata arg
  have awaited : ∀ c, decodeCommand s.cfg.cmdCodes (code :: a0 :: a1 :: a2 :: a3 :: rest) = .ok c →
      instrOf s .inDone = Instr.ofCommand c ∧ exec (Instr.ofCommand c) s = exec .inDone s := by
    intro c hk
    have hk' : commandOf s.cfg f.length (s.xferData.take s.xferLen) = .ok c := by
      rw [commandOf_of_five_le (by omega), hdata, hk]
    have hw := awaitedCommand_of hc hp (isCommandRequest_dnload hv h0 (by omega)) hk'
    exact ⟨instrOf_inDone_of_some hw, exec_ofCommand hw⟩
  have harg : le32 a0 a1 a2 a3 = arg := le32_eq_ofNat a0 a1 a2 a3
  constructor
  · rintro rfl
    exact awaited (.setAddressPointer arg) (harg ▸ decodeCommand_setAddress ..)
  · rintro rfl
    exact awaited (.erasePage arg) (harg ▸ decodeCommand_erase hcodes ..)

end Sys2Proof.Proofs
end

section
/-! PROOFS of the family 30_encoding.md, third part: which handler and which fields decide what a packet does (R97, R100). -/

namespace Sys2Proof.Proofs

open Machine Laws

/-! A replacement handler, Standard or Vendor (R100, R176): what it leaves of a transfer, whatever it is (R133, R141). -/

/-- The event latched the request and left the class group, flash, the device registers and the inputs. -/
structure OnlyHandlerRan (r : SetupRequest) (s t : State) : Prop where
  setupReq    : t.setupReq = some r
  inputs      : SameInputs s t
  cls         : SameClass s t
  flash       : SameFlash s t
  usbDevState : t.usbDevState = s.usbDevState
  usbAddr     : t.usbAddr = s.usbAddr
  usbConfig   : t.usbConfig = s.usbConfig

/-- A handler ran on an opened transfer, and emitted nothing. -/
structure HandlerRan (r : SetupRequest) (s u : State) : Prop extends OnlyHandlerRan r s u where
  noTransfer : NoTransfer u
  trace      : u.trace = s.trace

/-- The handlers' own states are as before. -/
structure SameOwn (s t : State) : Prop where
  stdOwn : t.stdOwn = s.stdOwn
  vndOwn : t.vndOwn = s.vndOwn

theorem onlyHandlerRan_fail {r : SetupRequest} {s u : State} (h : OnlyHandlerRan r s u) : OnlyHandlerRan r s (fail u) :=
  ⟨h.setupReq, ⟨h.inputs.cfg, h.inputs.events⟩, ⟨h.cls.dfuState, h.cls.dfuStatusCode, h.cls.addrPtr, h.cls.pending⟩,
    h.flash, h.usbDevState, h.usbAddr, h.usbConfig⟩

theorem onlyHandlerRan_startRead {r : SetupRequest} {s u : State} (h : OnlyHandlerRan r s u) (buf : List Byte) (n : Nat) :
    OnlyHandlerRan r s (startRead buf n u) where
  setupReq := (startRead_setupReq ..).trans h.setupReq
  inputs := ⟨(startRead_cfg ..).trans h.inputs.cfg, (startRead_events ..).trans h.inputs.events⟩
  cls := sameClass_startRead h.cls buf n
  flash := fun a => (startRead_flashByte ..).trans (h.flash a)
  usbDevState := (startRead_usbDevState ..).trans h.usbDevState
  usbAddr := (startRead_usbAddr ..).trans h.usbAddr
  usbConfig := (startRead_usbConfig ..).trans h.usbConfig

theorem onlyHandlerRan_startWrite {r : SetupRequest} {s u : State} (h : OnlyHandlerRan r s u) :
    OnlyHandlerRan r s (startWrite r u) where
  setupReq := (startWrite_setupReq ..).trans h.setupReq
  inputs := ⟨(startWrite_cfg ..).trans h.inputs.cfg, (startWrite_events ..).trans h.inputs.events⟩
  cls := ⟨(startWrite_dfuState ..).trans h.cls.dfuState, (startWrite_dfuStatusCode ..).trans h.cls.dfuStatusCode,
    (startWrite_addrPtr ..).trans h.cls.addrPtr, (startWrite_pending ..).trans h.cls.pending⟩
  flash := fun a => (startWrite_flashByte ..).trans (h.flash a)
  usbDevState := (startWrite_usbDevState ..).trans h.usbDevState
  usbAddr := (startWrite_usbAddr ..).trans h.usbAddr
  usbConfig := (startWrite_usbConfig ..).trans h.usbConfig

/-- How the handler's answers decide a transfer: `validate` leaves the state `w`, and `execute_get` after it the state `z`. -/
structure Decided (r : SetupRequest) (ok : Bool) (answer : Option (List Byte)) (s w z t : State) : Prop where
  only    : OnlyHandlerRan r s t
  ran     : SameOwn w t ∨ SameOwn z t
  refused : ok = false → Stalled s t ∧ SameOwn w t
  write   : ok = true → r.dir = .hostToDevice →
    SameOwn w t ∧ if s.cfg.ctrlBufSize < r.length.toNat then Stalled s t else WriteBegun r s t
  read    : ok = true → r.dir = .deviceToHost →
    SameOwn z t ∧ (answer = none → Stalled s t) ∧ ∀ buf, answer = some buf → ReadBegun buf r.length.toNat [] s t

theorem stalled_or_begun_startWrite {r : SetupRequest} {s w : State} (h : HandlerRan r s w) :
    if s.cfg.ctrlBufSize < r.length.toNat then Stalled s (startWrite r w) else WriteBegun r s (startWrite r w) := by
  split_ifs with hl
  · rw [startWrite_oversized (h.inputs.cfg ▸ hl)]
    exact fail_stalled h.trace
  · exact writeBegun_startWrite h.inputs.cfg h.noTransfer h.trace (Nat.le_of_not_lt hl)

theorem decided_transfer {r : SetupRequest} {v : State → Bool × State} {g : State → Option (List Byte) × State}
    {s w z : State} {ok : Bool} {answer : Option (List Byte)} (hv : v (newTransfer r s) = (ok, w))
    (hg : g w = (answer, z)) (hw : HandlerRan r s w) (hz : HandlerRan r s z) :
    Decided r ok answer s w z (transfer r v g s) := by
  cases ok with
  | false =>
    have ht : transfer r v g s = fail w := by simp only [transfer, hv, Bool.false_eq_true, if_false]
    rw [ht]
    exact {
      only := onlyHandlerRan_fail hw.toOnlyHandlerRan
      ran := .inl ⟨rfl, rfl⟩
      refused := fun _ => ⟨fail_stalled hw.trace, rfl, rfl⟩
      write := nofun
      read := nofun }
  | true =>
    cases hd : r.dir with
    | hostToDevice =>
      have ht : transfer r v g s = startWrite r w := by simp only [transfer, hv, hd, if_true]
      have own : SameOwn w (startWrite r w) := ⟨startWrite_stdOwn .., startWrite_vndOwn ..⟩
      rw [ht]
      exact {
        only := onlyHandlerRan_startWrite hw.toOnlyHandlerRan
        ran := .inl own
        refused := nofun
        write := fun _ _ => ⟨own, stalled_or_begun_startWrite hw⟩
        read := fun _ hd' => nomatch hd.symm.trans hd' }
    | deviceToHost =>
      cases answer with
      | none =>
        have ht : transfer r v g s = fail z := by simp only [transfer, hv, hd, hg, if_true]
        rw [ht]
        exact {
          only := onlyHandlerRan_fail hz.toOnlyHandlerRan
          ran := .inr ⟨rfl, rfl⟩
          refused := nofun
          write := fun _ hd' => nomatch hd.symm.trans hd'
          read := fun _ _ => ⟨⟨rfl, rfl⟩, fun _ => fail_stalled hz.trace, nofun⟩ }
      | some buf =>
        have ht : transfer r v g s = startRead buf r.length.toNat z := by simp only [transfer, hv, hd, hg, if_true]
        have own : SameOwn z (startRead buf r.length.toNat z) := ⟨startRead_stdOwn .., startRead_vndOwn ..⟩
        have begun : ReadBegun buf r.length.toNat [] s (startRead buf r.length.toNat z) :=
          readBegun_startRead hz.inputs.cfg hz.noTransfer.pendOut (hz.trace.trans (List.append_nil _).symm)
        rw [ht]
        exact {
          only := onlyHandlerRan_startRead hz.toOnlyHandlerRan buf _
          ran := .inr own
          refused := nofun
          write := fun _ hd' => nomatch hd.symm.trans hd'
          read := fun _ _ => ⟨own, nofun, fun _ hbuf => Option.some.inj hbuf ▸ begun⟩ }

/-- A transfer depends on its handler only through the two calls it makes. -/
theorem transfer_congr {r : SetupRequest} {v v' : State → Bool × State} {g g' : State → Option (List Byte) × State}
    {s : State} (hv : v (newTransfer r s) = v' (newTransfer r s))
    (hg : g (v' (newTransfer r s)).2 = g' (v' (newTransfer r s)).2) : transfer r v g s = transfer r v' g' s := by
  simp only [transfer, hv, hg]

/-- A handler call that writes the handlers' own states, and nothing else, is a handler that ran. -/
theorem handlerRan_of_own (r : SetupRequest) (s : State) (std vnd : List Byte) :
    HandlerRan r s { newTransfer r s with stdOwn := std, vndOwn := vnd } :=
  ⟨⟨rfl, ⟨rfl, rfl⟩, ⟨rfl, rfl, rfl, rfl⟩, sameFlash_refl s, rfl, rfl, rfl⟩, ⟨rfl, rfl, rfl, rfl, rfl⟩, rfl⟩

/-! The end of a write transfer leaves what `execute_set` left (R141). -/

theorem noTransfer_completeWrite (ok : Bool) (u : State) : NoTransfer (completeWrite ok u) :=
  ⟨completeWrite_cts .., completeWrite_pendOut .., completeWrite_xferLen .., completeWrite_xferPos ..,
    completeWrite_xferData ..⟩

theorem completeWrite_trace_append (ok : Bool) (u : State) :
    (completeWrite ok u).trace = u.trace ++ if ok then [] else [.stall] := by
  cases ok with
  | false => rfl
  | true => exact (List.append_nil _).symm

/-! The Standard handler (R171, R173, R174). -/

/-- Under a replacement handler every standard packet is the handler's, whichever row the packet selects. -/
theorem exec_ofStandard_other {id : Nat} {s : State} (h : s.cfg.std = .other id) (dir : Dir) (code : Byte)
    (f : SetupFields) :
    exec (Instr.ofStandard dir code f) s = .next (transfer (f.request dir .standard code)
      (stdOtherValidate id (f.request dir .standard code)) (stdOtherGet id (f.request dir .standard code)) s) := by
  have other : ∀ r ok get, transfer r (stdJudge ok r) (stdRead get r) s =
      transfer r (stdOtherValidate id r) (stdOtherGet id r) s := by
    intro r ok get
    apply transfer_congr
    · simp only [stdJudge, newTransfer_cfg, h]
    · simp only [stdRead, stdOtherValidate, newTransfer_cfg, h]
  have row := standardRow_ofStandard dir code f
  generalize Instr.ofStandard dir code f = i at row
  cases row <;> exact congrArg Host.Outcome.next (other _ _ _)

theorem dispatcherSet_std_other {id : Nat} {s : State} {r : SetupRequest} (ht : r.type = .standard)
    (h : s.cfg.std = .other id) (data : List Byte) :
    dispatcherSet r data s = some (stdOtherSet id r data s) := by
  simp only [dispatcherSet, ht, stdSet, h]

/-- Settles O13: every standard packet is the handler's transfer, decided by its answers; the `IN` runs its `execute_set`. -/
theorem replacedStandardHandlerDecides : Obligations.ReplacedStandardHandlerDecides := by
  intro id dir code f s hstd r v g
  constructor
  · have d : Decided r v.1 g.1 s { newTransfer r s with stdOwn := v.2 } { newTransfer r s with stdOwn := g.2 } _ :=
      decided_transfer (v := stdOtherValidate id r) (g := stdOtherGet id r) rfl rfl
        (handlerRan_of_own r s v.2 s.vndOwn) (handlerRan_of_own r s g.2 s.vndOwn)
    exact ⟨_, exec_ofStandard_other hstd dir code f, d.only.setupReq, d.only.inputs, d.only.cls, d.only.flash,
      d.ran.elim SameOwn.vndOwn SameOwn.vndOwn, d.only.usbDevState, d.only.usbAddr, d.only.usbConfig,
      fun hv => (d.refused hv).imp_right SameOwn.stdOwn, fun hv hd => (d.write hv hd).imp_left SameOwn.stdOwn,
      fun hv hd => (d.read hv hd).imp_left SameOwn.stdOwn⟩
  · intro hc hp x dev
    refine ⟨_, exec_inDone_writes hc hp (dispatcherSet_std_other rfl hstd _), ?_⟩
    exact ⟨noTransfer_completeWrite _ _, completeWrite_setupReq .., ⟨completeWrite_cfg .., completeWrite_events ..⟩,
      ⟨completeWrite_dfuState .., completeWrite_dfuStatusCode .., completeWrite_addrPtr .., completeWrite_pending ..⟩,
      completeWrite_flashByte _ _, completeWrite_stdOwn .., completeWrite_vndOwn .., completeWrite_usbDevState ..,
      completeWrite_usbAddr .., completeWrite_usbConfig .., completeWrite_trace_append ..⟩

/-! The Vendor handler. -/

/-- `VND.validate` of a replacement handler (R176). -/
def vndOtherValidate (id : Nat) (r : SetupRequest) (s : State) : Bool × State :=
  let v := Config.handlerValidate id r s.usbDevState s.vndOwn
  (v.1, { s with vndOwn := v.2 })

/-- `VND.execute_get` of a replacement handler (R176). -/
def vndOtherGet (id : Nat) (r : SetupRequest) (s : State) : Option (List Byte) × State :=
  let g := Config.handlerGet id r s.vndOwn
  (g.1, { s with vndOwn := g.2 })

/-- `VND.execute_set` of a replacement handler (R176). -/
def vndOtherSet (id : Nat) (r : SetupRequest) (data : List Byte) (s : State) : Bool × State :=
  let x := Config.handlerSet id r data s.vndOwn
  (x.1, { s with vndOwn := x.2 })

theorem vndValidate_other {id : Nat} {s : State} (h : s.cfg.vnd = .other id) (r : SetupRequest) :
    vndValidate r s = vndOtherValidate id r s := by
  simp only [vndValidate, h, vndOtherValidate]

theorem vndGet_other {id : Nat} {s : State} (h : s.cfg.vnd = .other id) (r : SetupRequest) :
    vndGet r s = vndOtherGet id r s := by
  simp only [vndGet, h, vndOtherGet]

theorem exec_handlerVendor_other {id : Nat} {s : State} (h : s.cfg.vnd = .other id) (dir : Dir) (code : Byte)
    (f : SetupFields) :
    exec (.handlerVendor dir code f) s = .next (transfer (f.request dir .vendor code)
      (vndOtherValidate id (f.request dir .vendor code)) (vndOtherGet id (f.request dir .vendor code)) s) :=
  congrArg Host.Outcome.next (transfer_congr (vndValidate_other (s := newTransfer _ s) h _)
    (vndGet_other (s := (vndOtherValidate _ _ (newTransfer _ s)).2) h _))

theorem dispatcherSet_vnd_other {id : Nat} {s : State} {r : SetupRequest} (ht : r.type = .vendor)
    (h : s.cfg.vnd = .other id) (data : List Byte) :
    dispatcherSet r data s = some (vndOtherSet id r data s) := by
  simp only [dispatcherSet, ht, vndSet, h, vndOtherSet]

/-- Settles O14: every vendor packet is the handler's transfer, decided by its answers; the `IN` runs its `execute_set`. -/
theorem replacedVendorHandlerDecides : Obligations.ReplacedVendorHandlerDecides := by
  intro id dir code f s hvnd r v g
  constructor
  · have d : Decided r v.1 g.1 s { newTransfer r s with vndOwn := v.2 } { newTransfer r s with vndOwn := g.2 } _ :=
      decided_transfer (v := vndOtherValidate id r) (g := vndOtherGet id r) rfl rfl
        (handlerRan_of_own r s s.stdOwn v.2) (handlerRan_of_own r s s.stdOwn g.2)
    exact ⟨_, exec_handlerVendor_other hvnd dir code f, d.only.setupReq, d.only.inputs, d.only.cls, d.only.flash,
      d.ran.elim SameOwn.stdOwn SameOwn.stdOwn, d.only.usbDevState, d.only.usbAddr, d.only.usbConfig,
      fun hv => (d.refused hv).imp_right SameOwn.vndOwn, fun hv hd => (d.write hv hd).imp_left SameOwn.vndOwn,
      fun hv hd => (d.read hv hd).imp_left SameOwn.vndOwn⟩
  · intro hc hp x
    refine ⟨_, exec_inDone_writes hc hp (dispatcherSet_vnd_other rfl hvnd _), ?_⟩
    exact ⟨noTransfer_completeWrite _ _, completeWrite_setupReq .., ⟨completeWrite_cfg .., completeWrite_events ..⟩,
      ⟨completeWrite_dfuState .., completeWrite_dfuStatusCode .., completeWrite_addrPtr .., completeWrite_pending ..⟩,
      completeWrite_flashByte _ _, completeWrite_stdOwn .., completeWrite_vndOwn .., completeWrite_usbDevState ..,
      completeWrite_usbAddr .., completeWrite_usbConfig .., completeWrite_trace_append ..⟩

/-! The recipient and the index (R97, R172): two packets of one DFU request that differ only there go the same way. -/

/-- The state with another packet in the place of the latched one. -/
def relatch (r : SetupRequest) (t : State) : State :=
  { t with setupReq := some r, pendOut := t.pendOut.map fun _ => r }

theorem relatch_of_pendOut_none {t : State} (h : t.pendOut = none) (r : SetupRequest) :
    relatch r t = { t with setupReq := some r } := by
  simp only [relatch, h, Option.map_none]

theorem length_requestOfDfu (q : DfuRequest) (f : SetupFields) : (requestOfDfu q f).length = f.length := by
  cases q <;> rfl

theorem dir_requestOfDfu_congr (q : DfuRequest) (f f' : SetupFields) :
    (requestOfDfu q f').dir = (requestOfDfu q f).dir := by
  cases q <;> rfl

/-- Legality reads the length and the value of a packet, and no other field of it (R202). -/
theorem legal_requestOfDfu_congr {f f' : SetupFields} (hlen : f'.length = f.length) (hval : f'.value = f.value)
    (q : DfuRequest) (s : State) : legal q (requestOfDfu q f') s = legal q (requestOfDfu q f) s := by
  obtain ⟨recipient, value, index, length⟩ := f'
  obtain rfl : length = f.length := hlen
  obtain rfl : value = f.value := hval
  cases q <;> rfl

/-- A read reads the length of its packet at most. -/
theorem dfuRead_newTransfer_comm {r r' : SetupRequest} (h : r'.length = r.length) (q : DfuRequest) (s : State) :
    dfuRead q r' (newTransfer r' s) =
      ((dfuRead q r (newTransfer r s)).1, { (dfuRead q r (newTransfer r s)).2 with setupReq := some r' }) := by
  cases q with
  | upload =>
    exact congrArg (fun x => (some x.1, x.2)) (uploadGet_setupReq_comm h (some r') (newTransfer r s))
  | getstatus =>
    exact congrArg (fun x => (some x.1, x.2)) (getstatusGet_setupReq_comm (some r') (newTransfer r s))
  | _ => rfl

theorem dfuRead_some {q : DfuRequest} {f : SetupFields} (hd : (requestOfDfu q f).dir = .deviceToHost) (r : SetupRequest)
    (u : State) : ∃ buf, (dfuRead q r u).1 = some buf := by
  cases q with
  | upload => exact ⟨_, rfl⟩
  | getstatus => exact ⟨_, rfl⟩
  | getstate => exact ⟨_, rfl⟩
  | _ => cases hd

/-- Settles O59: behind the gate and the legality check, which are the same for both packets, a write is opened and a read is
answered in the same way. -/
theorem recipientAndIndexAreNotRead : Obligations.RecipientAndIndexAreNotRead := by
  intro q f recipient index s t h f'
  suffices exec (instrOfDfu q f') s = .next (relatch (requestOfDfu q f') t) from this
  have hlen : (requestOfDfu q f').length = (requestOfDfu q f).length := by simp only [length_requestOfDfu, f']
  have hlegal := legal_requestOfDfu_congr (f := f) (f' := f') rfl rfl q s
  have hdir := dir_requestOfDfu_congr q f f'
  cases hg : classGate s with
  | false =>
    obtain rfl := Host.Outcome.next.inj ((exec_dfu_gated hg).symm.trans h)
    exact exec_dfu_gated hg
  | true =>
    cases hl : legal q (requestOfDfu q f) s with
    | false =>
      obtain rfl := Host.Outcome.next.inj ((exec_dfu_violation hg hl).symm.trans h)
      exact exec_dfu_violation hg (hlegal.trans hl)
    | true =>
      cases hd : (requestOfDfu q f).dir with
      | hostToDevice =>
        obtain rfl := Host.Outcome.next.inj ((exec_dfu_write hg hl hd).symm.trans h)
        exact (exec_dfu_write hg (hlegal.trans hl) (hdir.trans hd)).trans (congrArg _ (startWrite_comm hlen s))
      | deviceToHost =>
        obtain ⟨buf, hbuf⟩ := dfuRead_some hd (requestOfDfu q f) (newTransfer (requestOfDfu q f) s)
        obtain rfl := Host.Outcome.next.inj ((exec_dfu_read hg hl hd hbuf).symm.trans h)
        have comm := dfuRead_newTransfer_comm hlen q s
        have hp := (getLaw_dfu hd).pendOut (newTransfer (requestOfDfu q f) s) rfl
        rw [relatch_of_pendOut_none ((startRead_pendOut ..).trans hp), ← startRead_setupReq_comm,
          exec_dfu_read hg (hlegal.trans hl) (hdir.trans hd) ((congrArg Prod.fst comm).trans hbuf), comm]

end Sys2Proof.Proofs
end

section
/-! PROOFS of the family 40_control_transfer_engine.md, first part: `IN`, `OUT` and the oversized data stage, where the engine
acts with no handler (R133 step 6, R140 to R148). -/

namespace Sys2Proof.Proofs

open Machine Laws

/-! The one stall of the engine (R134), whichever row takes it. -/

theorem stalls_of_exec_eq_fail {i : Instr} {s : State} (h : exec i s = .next (fail s)) :
    ∃ t, exec i s = .next t ∧ Stalled s t ∧ t.setupReq = s.setupReq ∧ OnlyEngineChanged s t :=
  ⟨fail s, h, fail_stalled rfl, rfl, fail_onlyEngineChanged s⟩

/-- Whatever an event writes to the trace and to the engine's registers, everything else is as before (R20). -/
theorem onlyEngineChanged_engineWrite (s : State) (trace : List Action) (cts : Cts) (pendOut : Option SetupRequest)
    (xferData : List Byte) (xferLen xferPos : Nat) :
    OnlyEngineChanged s { s with
      trace := trace, cts := cts, pendOut := pendOut, xferData := xferData, xferLen := xferLen, xferPos := xferPos } :=
  onlyEngineChanged_of ⟨rfl, rfl⟩ ⟨rfl, rfl, rfl, rfl, rfl⟩ ⟨rfl, rfl, rfl, rfl⟩ rfl

/-! `IN`, one equation per phase outside `StatusIn` (R140, R142). -/

theorem exec_inDone_dataIn {s : State} (h : s.cts = .dataIn) : exec .inDone s = .next (sendNext s) := by
  simp only [exec, execIn, onInComplete, h]

theorem exec_inDone_lastDataIn {s : State} (h : s.cts = .lastDataIn) :
    exec .inDone s = .next { s with cts := .statusOut } := by
  simp only [exec, execIn, onInComplete, h]

theorem exec_inDone_unexpected {s : State}
    (h : s.cts = .stalled ∨ s.cts = .statusOut ∨ s.cts = .dataOut ∨ s.cts = .lastDataOut) :
    exec .inDone s = .next (fail s) := by
  obtain h | h | h | h := h <;> simp only [exec, execIn, onInComplete, h]

/-- A slice of `k` bytes from `a` on (R8). -/
theorem slice_add (p : List Byte) (a k : Nat) : slice p a (a + k) = (p.drop a).take k := by
  rw [slice, Nat.add_sub_cancel_left]

theorem sendNext_trace (s : State) : (sendNext s).trace =
    s.trace ++ [.tx ((s.xferData.drop s.xferPos).take (min s.cfg.mps (s.xferLen - s.xferPos)))] :=
  congrArg (fun packet => s.trace ++ [.tx packet]) (slice_add ..)

/-- Settles O5: `sendNext` writes the cursor, the phase and the trace, and leaves every other register. -/
theorem inSendsNextPacket : Obligations.InSendsNextPacket :=
  fun s => ⟨fun h => ⟨sendNext s, exec_inDone_dataIn h, sendNext_trace s, rfl, rfl, rfl, rfl, rfl, rfl,
    onlyEngineChanged_engineWrite s _ _ _ _ _ _⟩, exec_inDone_lastDataIn⟩

/-- Settles O6: `IN` in each of the four phases is `fail`. -/
theorem unexpectedInStalls : Obligations.UnexpectedInStalls :=
  fun _ h => stalls_of_exec_eq_fail (exec_inDone_unexpected h)

/-! `OUT`, one equation per phase and length (R145 to R148). -/

theorem exec_outDone_full {packet : List Byte} {s : State} (h : s.cts = .dataOut) (hp : packet.length = s.cfg.mps) :
    exec (.outDone packet) s = .next { storePacket packet s with
      cts := if s.xferLen - (s.xferPos + s.cfg.mps) ≤ s.cfg.mps then .lastDataOut else .dataOut } := by
  simp only [exec, execOut, onOutComplete, h, receiveFull, hp, if_true]

theorem exec_outDone_notFull {packet : List Byte} {s : State} (h : s.cts = .dataOut) (hp : packet.length ≠ s.cfg.mps) :
    exec (.outDone packet) s = .next (fail s) := by
  simp only [exec, execOut, onOutComplete, h, receiveFull, if_neg hp]

theorem exec_outDone_last {packet : List Byte} {s : State} (h : s.cts = .lastDataOut)
    (hp : packet.length = s.xferLen - s.xferPos) :
    exec (.outDone packet) s = .next { emit .zlp (storePacket packet s) with cts := .statusIn } := by
  simp only [exec, execOut, onOutComplete, h, receiveLast, if_pos hp]

theorem exec_outDone_notLast {packet : List Byte} {s : State} (h : s.cts = .lastDataOut)
    (hp : packet.length ≠ s.xferLen - s.xferPos) : exec (.outDone packet) s = .next (fail s) := by
  simp only [exec, execOut, onOutComplete, h, receiveLast, if_neg hp]

/-- An empty status packet and any other clear the same registers; the other one also stalls. -/
theorem receiveStatus_eq (packet : List Byte) (s : State) :
    receiveStatus packet s = { s with
      cts := .stalled, xferLen := 0, xferPos := 0, xferData := [],
      trace := if packet = [] then s.trace else s.trace ++ [.stall] } := by
  cases packet <;> rfl

theorem exec_outDone_statusOut {s : State} (h : s.cts = .statusOut) (packet : List Byte) :
    exec (.outDone packet) s = .next { s with
      cts := .stalled, xferLen := 0, xferPos := 0, xferData := [],
      trace := if packet = [] then s.trace else s.trace ++ [.stall] } := by
  simp only [exec, execOut, onOutComplete, h, receiveStatus_eq]

theorem exec_outDone_unexpected {s : State}
    (h : s.cts = .stalled ∨ s.cts = .dataIn ∨ s.cts = .lastDataIn ∨ s.cts = .statusIn) (packet : List Byte) :
    exec (.outDone packet) s = .next (fail s) := by
  obtain h | h | h | h := h <;> simp only [exec, execOut, onOutComplete, h]

/-- Settles O7: a full packet is stored and moves the cursor and the phase; any other packet is `fail`. -/
theorem outStoresFullPacket : Obligations.OutStoresFullPacket := by
  refine fun packet s h => ⟨fun hp => ?_, fun hp => stalls_of_exec_eq_fail (exec_outDone_notFull h hp)⟩
  exact ⟨_, exec_outDone_full h hp, rfl, congrArg (s.xferPos + ·) hp, rfl, rfl, rfl, rfl, rfl,
    onlyEngineChanged_engineWrite s _ _ _ _ _ _⟩

/-- Settles O8: the packet with the bytes owed is stored and acknowledged; any other packet is `fail`. -/
theorem outEndsDataStage : Obligations.OutEndsDataStage := by
  refine fun packet s h => ⟨fun hp => ?_, fun hp => stalls_of_exec_eq_fail (exec_outDone_notLast h hp)⟩
  exact ⟨_, exec_outDone_last h hp, rfl, rfl, rfl, rfl, rfl, rfl, rfl,
    onlyEngineChanged_engineWrite s _ _ _ _ _ _⟩

/-- Settles O9: the transfer registers are cleared whatever the packet is, and its data decides the stall. -/
theorem outEndsReadTransfer : Obligations.OutEndsReadTransfer :=
  fun packet s h => ⟨_, exec_outDone_statusOut h packet, rfl, rfl, rfl, rfl, rfl, rfl, rfl,
    onlyEngineChanged_engineWrite s _ _ _ _ _ _⟩

/-- Settles O10: `OUT` in each of the four phases is `fail`. -/
theorem unexpectedOutStalls : Obligations.UnexpectedOutStalls :=
  fun packet _ h => stalls_of_exec_eq_fail (exec_outDone_unexpected h packet)

/-! A data stage longer than `CTRL_BUF_SIZE` (R133 step 6, R311). -/

theorem exec_dfu_oversized {q : DfuRequest} {f : SetupFields} {s : State} (hg : classGate s = true)
    (hl : legal q (requestOfDfu q f) s = true) (hd : (requestOfDfu q f).dir = .hostToDevice)
    (hbig : s.cfg.ctrlBufSize < f.length.toNat) :
    exec (instrOfDfu q f) s = .next (fail (newTransfer (requestOfDfu q f) s)) := by
  rw [← length_requestOfDfu q f] at hbig
  exact (exec_dfu_write hg hl hd).trans (congrArg _ (startWrite_oversized (s := newTransfer _ s) hbig))

/-- A request with no extra condition is legal in each state that the table gives it (R202, R203). -/
theorem legal_of_mem_legalStates {q : DfuRequest} {r : SetupRequest} {s : State}
    (hx : extraCondition s.cfg r q = true) (h : s.dfuState ∈ legalStates q) : legal q r s = true := by
  rw [legal, (legalIn_iff_mem_legalStates q s.dfuState).mpr h, hx, Bool.and_self]

/-- Settles O31: both requests are legal and writes, so only the length decides, and it stalls the opened transfer. -/
theorem oversizedDataStageStalls : Obligations.OversizedDataStageStalls := by
  intro f s hg hbig
  constructor
  · intro h
    have hl : legal .clrstatus (requestOfDfu .clrstatus f) s = true :=
      legal_of_mem_legalStates rfl (List.mem_singleton.mpr h)
    exact ⟨_, exec_dfu_oversized hg hl rfl hbig, rejected_newTransfer _ s⟩
  · intro h
    exact ⟨_, exec_dfu_oversized hg (legal_of_mem_legalStates rfl h) rfl hbig, rejected_newTransfer _ s⟩

end Sys2Proof.Proofs
end

section
/-! PROOFS of the family 40_control_transfer_engine.md, second part: every `SETUP` row is the engine's `on_setup` with one
handler's two calls (R132, R133, R154), and where a row stops (R150, R174). -/

namespace Sys2Proof.Proofs

open Machine Laws

/-! A row of a packet does what the Dispatcher's routing does with the packet (R154, R171, R173). -/

/-- A transfer whose handler rejects the request makes no other call, and is a bare stall if the handler writes nothing. -/
theorem transfer_eq_stallRequest {r : SetupRequest} {v : State → Bool × State} {g : State → Option (List Byte) × State}
    {s : State} (h : v (newTransfer r s) = (false, newTransfer r s)) : transfer r v g s = stallRequest r s := by
  simp only [transfer, h, Bool.false_eq_true, if_false, stallRequest]

/-- `STD_REF` accepts no request but its four (R185). -/
theorem stdRefValidate_of_not_mem {r : SetupRequest} (h : (r.dir, r.code) ∉ standardRows) (s : State) :
    stdRefValidate r s = false := by
  unfold stdRefValidate
  cases hd : r.dir with
  | hostToDevice =>
    obtain ⟨h5, h9⟩ : r.code ≠ 5 ∧ r.code ≠ 9 := by simpa [standardRows, hd] using h
    simp only [if_neg h5, if_neg h9]
  | deviceToHost =>
    obtain ⟨h6, h8⟩ : r.code ≠ 6 ∧ r.code ≠ 8 := by simpa [standardRows, hd] using h
    simp only [if_neg h6, if_neg h8]

/-- `HANDLER_STANDARD` on a packet of its own: `STD_REF` rejects it by whichever row it comes, a replacement judges it. -/
theorem exec_handlerStandard_of_not_mem {dir : Dir} {code : Byte} (h : (dir, code) ∉ standardRows) (f : SetupFields)
    (s : State) :
    exec (.handlerStandard dir code f) s = .next (transfer (f.request dir .standard code)
      (stdValidate (f.request dir .standard code)) (stdGet (f.request dir .standard code)) s) := by
  refine congrArg Host.Outcome.next ?_
  cases hstd : s.cfg.std with
  | ref =>
    have rejects : ∀ ok : State → Bool, ok (newTransfer (f.request dir .standard code) s) = false →
        stdJudge ok (f.request dir .standard code) (newTransfer (f.request dir .standard code) s) =
          (false, newTransfer (f.request dir .standard code) s) := by
      intro ok hok
      simp only [stdJudge, newTransfer_cfg, hstd, hok]
    exact (transfer_eq_stallRequest (rejects _ rfl)).trans
      (transfer_eq_stallRequest (rejects _ (stdRefValidate_of_not_mem h _))).symm
  | other id =>
    apply transfer_congr
    · simp only [stdValidate, stdJudge, newTransfer_cfg, hstd]
    · simp only [stdGet, stdRead, stdValidate, stdJudge, stdOtherValidate, newTransfer_cfg, hstd]

/-- The row of a standard packet. The four rows of `STD_REF` are the branches of its `validate` and `execute_get`. -/
theorem exec_ofStandard (dir : Dir) (code : Byte) (f : SetupFields) (s : State) :
    exec (Instr.ofStandard dir code f) s = .next (transfer (f.request dir .standard code)
      (stdValidate (f.request dir .standard code)) (stdGet (f.request dir .standard code)) s) := by
  by_cases h : (dir, code) ∈ standardRows
  · simp only [standardRows, List.mem_cons, Prod.mk.injEq, List.not_mem_nil, or_false] at h
    obtain ⟨rfl, rfl⟩ | ⟨rfl, rfl⟩ | ⟨rfl, rfl⟩ | ⟨rfl, rfl⟩ := h
    · rfl
    · rfl
    · rfl
    · rfl
  · rw [ofStandard_of_not_mem h]
    exact exec_handlerStandard_of_not_mem h f s

theorem dispatcherValidate_requestOfDfu (q : DfuRequest) (f : SetupFields) :
    dispatcherValidate (requestOfDfu q f) = classJudge q (requestOfDfu q f) := by
  cases q <;> rfl

theorem dispatcherGet_requestOfDfu (q : DfuRequest) (f : SetupFields) :
    dispatcherGet (requestOfDfu q f) = dfuRead q (requestOfDfu q f) := by
  cases q <;> rfl

/-- The row of a packet, whatever its type. -/
theorem exec_ofRequest (r : SetupRequest) (s : State) :
    exec (Instr.ofRequest r) s = .next (transfer r (dispatcherValidate r) (dispatcherGet r) s) := by
  obtain ⟨dir, type, recipient, code, value, index, length⟩ := r
  cases type with
  | standard => exact exec_ofStandard dir code _ s
  | classReq =>
    cases hq : DfuRequest.ofSelector dir code with
    | some q =>
      rw [eq_requestOfDfu (r := ⟨dir, .classReq, recipient, code, value, index, length⟩) rfl hq, ofRequest_requestOfDfu,
        exec_instrOfDfu, dispatcherValidate_requestOfDfu, dispatcherGet_requestOfDfu]
    | none =>
      have rejects : ∀ u, classValidate ⟨dir, .classReq, recipient, code, value, index, length⟩ u = (false, u) := by
        intro u
        simp only [classValidate, hq]
      have row : Instr.ofRequest ⟨dir, .classReq, recipient, code, value, index, length⟩ =
          .handlerClass dir code ⟨recipient, value, index, length⟩ := ofClass_of_not_mem ((ofSelector_none_iff _ _).mp hq) _
      rw [row]
      exact congrArg Host.Outcome.next (transfer_eq_stallRequest (rejects _)).symm
  | vendor => rfl
  | reserved => rfl

/-- Settles O4: a packet's row is `exec_ofRequest`; a payload that is no packet is its own row. -/
theorem setupRowsRefineOnSetup : Obligations.SetupRowsRefineOnSetup := by
  intro payload s
  cases hd : decodeRequest payload with
  | none => simp only [decodeSetup, hd, exec, execSetup]
  | some r => simp only [decodeSetup, hd, exec_ofRequest, onSetup]

/-! What every `SETUP` row is (R132, R133). -/

/-- The two meanings of a `SETUP` row: the payload does not parse; or one handler judges the request and answers a read,
and neither call touches an engine register. -/
inductive SetupMeaning (i : Instr) : Prop where
  | parseFailure (h : ∀ s, exec i s = .next (parseFailure s))
  | transfer {r : SetupRequest} {v : State → Bool × State} {g : State → Option (List Byte) × State}
      (h : ∀ s, exec i s = .next (transfer r v g s)) (hv : ValidateLaw r v) (hg : r.dir = .deviceToHost → GetLaw v g)

theorem setupMeaning_std {i : Instr} {ok : State → Bool} {get : State → Option (List Byte)} {r : SetupRequest}
    (h : ∀ s, exec i s = .next (transfer r (stdJudge ok r) (stdRead get r) s)) (ht : r.type = .standard)
    (hok : ∀ s, ok s = true → r.dir = .hostToDevice → stdRefValidate r s = true) : SetupMeaning i :=
  .transfer h (validateLaw_stdJudge ht hok) fun _ => getLaw_std (validateLaw_stdJudge ht hok)

theorem setupMeaning_stall {i : Instr} {r : SetupRequest} (h : ∀ s, exec i s = .next (stallRequest r s)) :
    SetupMeaning i :=
  .transfer (v := fun s => (false, s)) (g := noRead) h
    ⟨fun _ h => h, fun _ h => h, fun _ => rfl, fun _ h => absurd h Bool.false_ne_true⟩
    fun _ => ⟨fun _ h _ => h, fun _ h => h⟩

theorem setupMeaning_instrOfDfu (q : DfuRequest) (f : SetupFields) : SetupMeaning (instrOfDfu q f) := by
  obtain ⟨hq, ht⟩ := ofSelector_requestOfDfu q f
  exact .transfer (exec_instrOfDfu q f) (validateLaw_classJudge ht hq) getLaw_dfu

theorem setupMeaning_packetRow {i : Instr} (hi : isSetup i = true) (hp : ∀ p, i ≠ .setup p) : SetupMeaning i := by
  cases i with
  | setup p => exact absurd rfl (hp p)
  | handlerStandard dir code f => exact setupMeaning_std (fun _ => rfl) rfl fun _ h _ => absurd h Bool.false_ne_true
  | handlerClass dir code f => exact setupMeaning_stall fun _ => rfl
  | handlerVendor dir code f =>
    exact .transfer (fun _ => rfl) (validateLaw_vnd rfl) fun _ => getLaw_vnd (validateLaw_vnd rfl)
  | handlerReserved dir code f => exact setupMeaning_stall fun _ => rfl
  | dfuDetach f => exact setupMeaning_instrOfDfu .detach f
  | dfuDnload f => exact setupMeaning_instrOfDfu .dnload f
  | dfuUpload f => exact setupMeaning_instrOfDfu .upload f
  | dfuGetstatus f => exact setupMeaning_instrOfDfu .getstatus f
  | dfuClrstatus f => exact setupMeaning_instrOfDfu .clrstatus f
  | dfuGetstate f => exact setupMeaning_instrOfDfu .getstate f
  | dfuAbort f => exact setupMeaning_instrOfDfu .abort f
  | stdSetAddress f => exact setupMeaning_std (fun _ => rfl) rfl fun _ h _ => h
  | stdGetDescriptor f =>
    exact setupMeaning_std (fun _ => rfl) rfl fun _ _ (hd : Dir.deviceToHost = .hostToDevice) => nomatch hd
  | stdGetConfiguration f =>
    exact setupMeaning_std (fun _ => rfl) rfl fun _ _ (hd : Dir.deviceToHost = .hostToDevice) => nomatch hd
  | stdSetConfiguration f => exact setupMeaning_std (fun _ => rfl) rfl fun _ h _ => h
  | _ => cases hi

/-- A packet's row is not the bare `SETUP` row: it is encoded as a packet. -/
theorem ofRequest_ne_setup (r : SetupRequest) (p : List Byte) : Instr.ofRequest r ≠ .setup p := by
  intro h
  have hf := congrArg Prod.fst (encode_ofRequest CmdCodes.ref r)
  rw [h] at hf
  cases hf

theorem setupMeaning {i : Instr} (hi : isSetup i = true) : SetupMeaning i := by
  cases i with
  | setup p =>
    cases hd : decodeRequest p with
    | none => exact .parseFailure (exec_setup_of_length_ne ((decodeRequest_none_iff p).mp hd))
    | some r =>
      have row : ∀ s, exec (.setup p) s = exec (Instr.ofRequest r) s := by
        intro s
        rw [exec_ofRequest]
        simp only [exec, execSetup, onSetup, hd]
      cases setupMeaning_packetRow (isSetup_ofRequest r) (ofRequest_ne_setup r) with
      | parseFailure h => exact .parseFailure fun s => (row s).trans (h s)
      | transfer h hv hg => exact .transfer (fun s => (row s).trans (h s)) hv hg
  | _ => exact setupMeaning_packetRow hi nofun

/-- A `SETUP` row reads nothing of the transfer that it discards: `newTransfer` and `parseFailure` overwrite it (R132). -/
theorem setupMeaning_abandon {i : Instr} (m : SetupMeaning i) (s : State) : exec i s = exec i (abandon s) := by
  cases m with
  | parseFailure h => exact (h s).trans (h (abandon s)).symm
  | transfer h _ _ => exact (h s).trans (h (abandon s)).symm

theorem startWrite_pendOut (r : SetupRequest) (s : State) :
    (startWrite r s).pendOut = none ∨ (startWrite r s).pendOut = some r := by
  unfold startWrite
  split
  · exact .inl rfl
  · split
    · exact .inr rfl
    · exact .inr rfl

/-- After a `SETUP` row nothing is pending but its own request (R133 step 6). -/
theorem transfer_pendOut {r : SetupRequest} {v : State → Bool × State} {g : State → Option (List Byte) × State}
    (hv : ValidateLaw r v) (hg : r.dir = .deviceToHost → GetLaw v g) (s : State) :
    (transfer r v g s).pendOut = none ∨ (transfer r v g s).pendOut = (transfer r v g s).setupReq := by
  have validated : NoTransfer (v (newTransfer r s)).2 := hv.transfer _ ⟨rfl, rfl, rfl, rfl, rfl⟩
  apply transfer_cases (P := fun t => t.pendOut = none ∨ t.pendOut = t.setupReq)
  case reject => exact fun _ => .inl rfl
  case write =>
    intro _ _
    rw [startWrite_setupReq, hv.setupReq]
    exact startWrite_pendOut r _
  case read =>
    intro buf _ hd _
    exact .inl ((startRead_pendOut ..).trans ((hg hd).pendOut _ validated.pendOut))
  case readError => exact fun _ _ _ => .inl rfl

theorem setupMeaning_next {i : Instr} (m : SetupMeaning i) (s : State) :
    ∃ t, exec i s = .next t ∧ (t.pendOut = none ∨ t.pendOut = t.setupReq) := by
  cases m with
  | parseFailure h => exact ⟨_, h s, .inl rfl⟩
  | transfer h hv hg => exact ⟨_, h s, transfer_pendOut hv hg s⟩

/-- Settles O3: a `SETUP` row begins with `newTransfer` or `parseFailure`, and both begin with `abandon`. -/
theorem setupAbandonsEveryPhase : Obligations.SetupAbandonsEveryPhase :=
  fun _ s hi => ⟨setupMeaning_next (setupMeaning hi) s, setupMeaning_abandon (setupMeaning hi) s,
    ⟨rfl, rfl, rfl, rfl⟩, ⟨rfl, rfl, rfl, rfl, rfl⟩⟩

/-! Where a row stops: the writes that no `validate` accepts have no `execute_set` (R141, R174, R186, R211). -/

theorem stdSet_eq_none {r : SetupRequest} {data : List Byte} {s : State} (h : stdSet r data s = none) :
    s.cfg.std = .ref ∧ ¬(r.dir = .hostToDevice ∧ (r.code = 5 ∨ r.code = 9)) := by
  unfold stdSet at h
  cases hs : s.cfg.std with
  | other id => simp only [hs, reduceCtorEq] at h
  | ref =>
    refine ⟨rfl, ?_⟩
    rintro ⟨hd, hc | hc⟩ <;> simp [hs, stdRefSet, hd, hc] at h

theorem vndSet_eq_none {r : SetupRequest} {data : List Byte} {s : State} (h : vndSet r data s = none) :
    s.cfg.vnd = .ref := by
  unfold vndSet at h
  cases hs : s.cfg.vnd with
  | ref => rfl
  | other id => simp only [hs, reduceCtorEq] at h

/-- Only the `DNLOAD` of the DfuSe block number 1 with data has no effect given (R220, R251). -/
theorem dnloadSet_eq_none {r : SetupRequest} {data : List Byte} {s : State} (h : dnloadSet r data s = none) :
    s.cfg.variant = .dfuse ∧ r.value = 1 ∧ r.length ≠ 0 := by
  unfold dnloadSet at h
  by_cases hl : r.length.toNat = 0
  · simp only [if_pos hl, reduceCtorEq] at h
  · rw [if_neg hl] at h
    cases hv : s.cfg.variant with
    | plainDfu => simp only [hv, reduceCtorEq] at h
    | dfuse =>
      simp only [hv] at h
      split_ifs at h with h0 h1
      exact ⟨rfl, h1, fun hz => hl (congrArg BitVec.toNat hz)⟩

/-- A pending write that is not executed is none of the three of R211, but for the `DNLOAD` of `dnloadSet_eq_none`. -/
theorem not_classWrite_of_dispatcherSet_eq_none {r : SetupRequest} {data : List Byte} {s : State}
    (h : dispatcherSet r data s = none) :
    (∀ f, r ≠ requestOfDfu .clrstatus f ∧ r ≠ requestOfDfu .abort f) ∧
      ∀ f, r = requestOfDfu .dnload f → s.cfg.variant = .dfuse ∧ f.value = 1 ∧ f.length ≠ 0 := by
  refine ⟨fun f => ⟨?_, ?_⟩, ?_⟩
  · rintro rfl
    cases (dispatcherSet_clrstatus f data s).symm.trans h
  · rintro rfl
    cases (dispatcherSet_abort f data s).symm.trans h
  · rintro f rfl
    exact dnloadSet_eq_none h

theorem exec_inDone_nothingPending {s : State} (hc : s.cts = .statusIn) (hp : s.pendOut = none) :
    exec .inDone s = .fault .noPendingWrite := by
  simp only [exec, execIn, onInComplete, hc, finishWrite, hp]

theorem exec_inDone_unaccepted {s : State} {r : SetupRequest} (hc : s.cts = .statusIn) (hp : s.pendOut = some r)
    (hx : dispatcherSet r (s.xferData.take s.xferLen) s = none) : exec .inDone s = .fault .unacceptedPendingWrite := by
  rw [exec_inDone_statusIn hc hp, hx]

theorem exec_inDone_of_cts_ne {s : State} (hc : s.cts ≠ .statusIn) : ∃ t, exec .inDone s = .next t := by
  cases h : s.cts with
  | dataIn => exact ⟨_, exec_inDone_dataIn h⟩
  | lastDataIn => exact ⟨_, exec_inDone_lastDataIn h⟩
  | stalled => exact ⟨_, exec_inDone_unexpected (.inl h)⟩
  | statusOut => exact ⟨_, exec_inDone_unexpected (.inr (.inl h))⟩
  | dataOut => exact ⟨_, exec_inDone_unexpected (.inr (.inr (.inl h)))⟩
  | lastDataOut => exact ⟨_, exec_inDone_unexpected (.inr (.inr (.inr h)))⟩
  | statusIn => exact absurd h hc

/-- Settles O60: every row but `IN` answers a state outright; `IN` does in every phase but `StatusIn`, and there it does what
`execute_set` lets it. -/
theorem rowsStopOnlyOnUnacceptedWrite : Obligations.RowsStopOnlyOnUnacceptedWrite := by
  intro i s
  cases hi : isSetup i with
  | true =>
    obtain ⟨t, ht, -⟩ := setupMeaning_next (setupMeaning hi) s
    exact .inl ⟨t, ht⟩
  | false =>
    cases i with
    | reset => exact .inl ⟨_, rfl⟩
    | outDone packet => exact .inl ⟨_, rfl⟩
    | dfuseSetAddressPointer arg => exact .inl ⟨_, rfl⟩
    | dfuseErasePage arg => exact .inl ⟨_, rfl⟩
    | inDone =>
      by_cases hc : s.cts = .statusIn
      case neg => exact .inl (exec_inDone_of_cts_ne hc)
      cases hp : s.pendOut with
      | none => exact .inr ⟨rfl, hc, .inl ⟨rfl, exec_inDone_nothingPending hc hp⟩⟩
      | some r =>
        cases hx : dispatcherSet r (s.xferData.take s.xferLen) s with
        | some x => exact .inl ⟨_, exec_inDone_writes hc hp hx⟩
        | none =>
          refine .inr ⟨rfl, hc, .inr ⟨r, rfl, exec_inDone_unaccepted hc hp hx, ?_⟩⟩
          cases ht : r.type with
          | standard => exact stdSet_eq_none (by simpa only [dispatcherSet, ht] using hx)
          | classReq => exact not_classWrite_of_dispatcherSet_eq_none hx
          | vendor => exact vndSet_eq_none (by simpa only [dispatcherSet, ht] using hx)
          | reserved => trivial
    | _ => cases hi

end Sys2Proof.Proofs
end

section
/-! PROOFS of the family 41_request_dispatcher.md: what `STD_REF` and `VND_REF` do with a packet (R180 to R186), and the gate in
front of the class handler (R171). -/

namespace Sys2Proof.Proofs

open Machine Laws

/-! The three ways the row of a standard packet goes under `STD_REF` (R133, R180): its `validate` and `execute_get` write
nothing, so each starts from the freshly opened transfer. -/

section
variable {i : Instr} {r : SetupRequest} {ok : State → Bool} {get : State → Option (List Byte)} {s : State}

theorem stdJudge_newTransfer {b : Bool} (h : s.cfg.std = .ref) (hok : ok (newTransfer r s) = b) :
    stdJudge ok r (newTransfer r s) = (b, newTransfer r s) := by
  simp only [stdJudge, newTransfer_cfg, h, hok]

theorem stdRead_newTransfer {answer : Option (List Byte)} (h : s.cfg.std = .ref)
    (hg : get (newTransfer r s) = answer) : stdRead get r (newTransfer r s) = (answer, newTransfer r s) := by
  simp only [stdRead, newTransfer_cfg, h, hg]

theorem stdRow_rejected (row : exec i s = .next (transfer r (stdJudge ok r) (stdRead get r) s)) (h : s.cfg.std = .ref)
    (hok : ok (newTransfer r s) = false) : ∃ t, exec i s = .next t ∧ Rejected r s t := by
  rw [transfer_eq_stallRequest (stdJudge_newTransfer h hok)] at row
  exact ⟨_, row, rejected_newTransfer r s⟩

theorem stdRow_writeAccepted (row : exec i s = .next (transfer r (stdJudge ok r) (stdRead get r) s))
    (h : s.cfg.std = .ref) (hd : r.dir = .hostToDevice) (hok : ok (newTransfer r s) = true)
    (hl : r.length.toNat ≤ s.cfg.ctrlBufSize) : ∃ t, exec i s = .next t ∧ WriteAccepted r s t := by
  have judged := stdJudge_newTransfer h hok
  rw [transfer_write (congrArg Prod.fst judged) hd, judged] at row
  exact ⟨_, row, writeAccepted_startWrite hl⟩

theorem stdRow_readAnswered {buf : List Byte} (row : exec i s = .next (transfer r (stdJudge ok r) (stdRead get r) s))
    (h : s.cfg.std = .ref) (hd : r.dir = .deviceToHost) (hok : ok (newTransfer r s) = true)
    (hg : get (newTransfer r s) = some buf) :
    ∃ t, exec i s = .next t ∧ ReadAnswered r buf [] s t ∧ SameClass s t ∧ SameFlash s t := by
  have judged := stdJudge_newTransfer h hok
  have answer := stdRead_newTransfer h hg
  rw [transfer_read (congrArg Prod.fst judged) hd (by rw [judged, answer]), judged, answer] at row
  refine ⟨_, row, ?_, sameClass_startRead (sameClass_newTransfer r s) _ _, startRead_flashByte _ _ _⟩
  exact readAnswered_startRead rfl rfl (List.append_nil _).symm ⟨rfl, rfl⟩ ⟨rfl, rfl, rfl, rfl, rfl⟩

/-- The row of a write with no data stage: `validate` decides alone, since the buffer holds no byte of it. -/
theorem stdRow_write_decides {accepts : Prop} (row : exec i s = .next (transfer r (stdJudge ok r) (stdRead get r) s))
    (h : s.cfg.std = .ref) (hd : r.dir = .hostToDevice) (hok : ok (newTransfer r s) = true ↔ accepts)
    (hl : accepts → r.length = 0) :
    (accepts → ∃ t, exec i s = .next t ∧ WriteAccepted r s t) ∧
      (¬accepts → ∃ t, exec i s = .next t ∧ Rejected r s t) := by
  constructor
  · intro ha
    have fits : r.length.toNat ≤ s.cfg.ctrlBufSize := by
      rw [hl ha]
      exact Nat.zero_le _
    exact stdRow_writeAccepted row h hd (hok.mpr ha) fits
  · intro ha
    exact stdRow_rejected row h (Bool.eq_false_iff.mpr (mt hok.mp ha))

end

/-! What each `validate` of `STD_REF` asks (R181 to R184), and the `execute_set` that the `IN` runs (R174). -/

theorem setAddressOk_iff (r : SetupRequest) (s : State) : setAddressOk r s = true ↔
    r.value.toNat ≤ 127 ∧ r.length = 0 ∧ (s.usbDevState = .default ∨ s.usbDevState = .address) := by
  simp only [setAddressOk, Bool.and_eq_true, Bool.or_eq_true, decide_eq_true_eq, beq_iff_eq, and_assoc]

theorem setConfigurationOk_iff (r : SetupRequest) (s : State) : setConfigurationOk r s = true ↔
    r.length = 0 ∧ (s.usbDevState = .address ∨ s.usbDevState = .configured) ∧
      (r.value.extractLsb' 0 8 = 0 ∨ r.value.extractLsb' 0 8 = 1) := by
  simp only [setConfigurationOk, Bool.and_eq_true, Bool.or_eq_true, beq_iff_eq, and_assoc]

theorem getConfigurationOk_iff (s : State) :
    getConfigurationOk s = true ↔ s.usbDevState = .address ∨ s.usbDevState = .configured := by
  simp only [getConfigurationOk, Bool.or_eq_true, beq_iff_eq]

theorem dispatcherSet_std_ref {s : State} {r : SetupRequest} (ht : r.type = .standard) (h : s.cfg.std = .ref)
    (data : List Byte) : dispatcherSet r data s = stdRefSet r s := by
  simp only [dispatcherSet, ht, stdSet, h]

/-- An address that `SET_ADDRESS` admits loses nothing in the register of 8 bits (R182). -/
theorem toNat_setWidth_address {v : Half} (h : v.toNat ≤ 127) : (v.setWidth 8).toNat = v.toNat := by
  rw [BitVec.toNat_setWidth]
  omega

/-! The obligations. -/

/-- Settles O15: a write with no data stage, decided by `setAddressOk`; the `IN` runs `setAddress` and closes the transfer. -/
theorem setAddressRequest : Obligations.SetAddressRequest := by
  intro f s hstd r
  obtain ⟨accepted, rejected⟩ := stdRow_write_decides (i := .stdSetAddress f) rfl hstd rfl
    (setAddressOk_iff r (newTransfer r s)) fun ⟨_, hlen, _⟩ => hlen
  refine ⟨accepted, rejected, fun hc hp hv => ⟨_, exec_inDone_writes hc hp (dispatcherSet_std_ref rfl hstd _), ?_⟩⟩
  exact ⟨noTransfer_completeWrite _ _, rfl, toNat_setWidth_address hv, rfl, rfl, rfl, rfl, rfl, ⟨rfl, rfl⟩,
    ⟨rfl, rfl, rfl, rfl⟩, sameFlash_refl s⟩

/-- Settles O16: a write with no data stage, decided by `setConfigurationOk`; the `IN` runs `setConfiguration`. -/
theorem setConfigurationRequest : Obligations.SetConfigurationRequest := by
  intro f s hstd r low accepts
  obtain ⟨accepted, rejected⟩ := stdRow_write_decides (i := .stdSetConfiguration f) rfl hstd rfl
    (setConfigurationOk_iff r (newTransfer r s)) And.left
  refine ⟨accepted, rejected, fun hc hp => ⟨_, exec_inDone_writes hc hp (dispatcherSet_std_ref rfl hstd _), ?_⟩⟩
  exact ⟨writeDone_abandon rfl rfl ⟨rfl, rfl⟩, rfl, rfl, rfl, rfl, rfl, ⟨rfl, rfl, rfl, rfl⟩, sameFlash_refl s⟩

/-- Settles O12: `STD_REF` refuses what is left to its handler row, and `VND_REF` refuses everything. -/
theorem referenceHandlersStallOthers : Obligations.ReferenceHandlersStallOthers := by
  intro dir code f s
  constructor
  · intro hstd _
    exact stdRow_rejected (r := f.request dir .standard code) rfl hstd rfl
  · intro hvnd
    have refused : vndValidate (f.request dir .vendor code) (newTransfer (f.request dir .vendor code) s) =
        (false, newTransfer (f.request dir .vendor code) s) := by
      simp only [vndValidate, newTransfer_cfg, hvnd]
    exact ⟨_, congrArg Host.Outcome.next (transfer_eq_stallRequest refused), rejected_newTransfer _ s⟩

/-- Settles O17: `validate` and `execute_get` look the same descriptor up. -/
theorem getDescriptorRequest : Obligations.GetDescriptorRequest := by
  intro f s hstd r
  constructor
  · intro d hd
    exact stdRow_readAnswered (r := r) rfl hstd rfl (congrArg Option.isSome hd) hd
  · intro hd
    exact stdRow_rejected (r := r) rfl hstd (congrArg Option.isSome hd)

/-- Settles O18: the device state alone decides; the answer is the register. -/
theorem getConfigurationRequest : Obligations.GetConfigurationRequest := by
  intro f s hstd r
  constructor
  · intro hs
    exact stdRow_readAnswered (r := r) rfl hstd rfl ((getConfigurationOk_iff (newTransfer r s)).mpr hs) rfl
  · intro hs
    have refused : getConfigurationOk (newTransfer r s) = false := by
      simp [getConfigurationOk, hs]
    exact stdRow_rejected rfl hstd refused

/-- Settles O21: behind a closed gate the class validator is not asked, and the opened transfer is stalled. -/
theorem classGateStalls : Obligations.ClassGateStalls :=
  fun q f s hg => ⟨_, exec_dfu_gated hg, rejected_newTransfer (requestOfDfu q f) s⟩

end Sys2Proof.Proofs
end

section
/-! PROOFS of the family 42_dfu_class.md, first part: the validator (R200 to R204, R245), the writes that an `IN` executes
(R220, R222, R240, R242) and `UPLOAD` (R225). -/

namespace Sys2Proof.Proofs

open Machine Laws

/-! The three ways a DFU request goes behind the gate (R133, R202): a violation, an opened write, an answered read. -/

theorem dfu_violation {q : DfuRequest} {f : SetupFields} {s : State} (hg : classGate s = true)
    (hl : legal q (requestOfDfu q f) s = false) :
    ∃ t, exec (instrOfDfu q f) s = .next t ∧ Violation (requestOfDfu q f) s t :=
  ⟨_, exec_dfu_violation hg hl, violation_newTransfer _ s⟩

theorem dfu_writeAccepted {q : DfuRequest} {f : SetupFields} {s : State} (hg : classGate s = true)
    (hl : legal q (requestOfDfu q f) s = true) (hd : (requestOfDfu q f).dir = .hostToDevice)
    (hfit : f.length.toNat ≤ s.cfg.ctrlBufSize) :
    ∃ t, exec (instrOfDfu q f) s = .next t ∧ WriteAccepted (requestOfDfu q f) s t :=
  ⟨_, exec_dfu_write hg hl hd, writeAccepted_startWrite ((length_requestOfDfu q f).symm ▸ hfit)⟩

/-- A read ran on the freshly opened transfer of `r`, with the outputs `out`, and wrote no register of the engine or device. -/
structure ReadRan (r : SetupRequest) (out : List Action) (s u : State) : Prop where
  pendOut  : u.pendOut = none
  setupReq : u.setupReq = some r
  trace    : u.trace = s.trace ++ out
  inputs   : SameInputs s u
  device   : SameDevice s u

theorem exec_dfu_read_of_eq {q : DfuRequest} {f : SetupFields} {s u : State} {buf : List Byte} (hg : classGate s = true)
    (hl : legal q (requestOfDfu q f) s = true) (hd : (requestOfDfu q f).dir = .deviceToHost)
    (hr : dfuRead q (requestOfDfu q f) (newTransfer (requestOfDfu q f) s) = (some buf, u)) :
    exec (instrOfDfu q f) s = .next (startRead buf (requestOfDfu q f).length.toNat u) := by
  rw [exec_dfu_read hg hl hd (congrArg Prod.fst hr), hr, length_requestOfDfu]

theorem ReadRan.answered {r : SetupRequest} {out : List Action} {s u : State} (h : ReadRan r out s u) (buf : List Byte) :
    ReadAnswered r buf out s (startRead buf r.length.toNat u) :=
  readAnswered_startRead h.pendOut h.setupReq h.trace h.inputs h.device

/-! Legality (R202, R203, R251). -/

theorem legal_iff {q : DfuRequest} {r : SetupRequest} {s : State} :
    legal q r s = true ↔ s.dfuState ∈ legalStates q ∧ extraCondition s.cfg r q = true := by
  rw [legal, Bool.and_eq_true, legalIn_iff_mem_legalStates]

theorem not_legal_of_state {q : DfuRequest} {r : SetupRequest} {s : State} (h : s.dfuState ∉ legalStates q) :
    legal q r s = false :=
  Bool.eq_false_iff.mpr fun hl => h (legal_iff.mp hl).1

theorem not_legal_of_extraCondition {q : DfuRequest} {r : SetupRequest} {s : State}
    (h : extraCondition s.cfg r q ≠ true) : legal q r s = false :=
  Bool.eq_false_iff.mpr fun hl => h (legal_iff.mp hl).2

/-- The extra condition of `DNLOAD`: the length, and the reserved block number of DfuSe (R202, R251). -/
theorem extraCondition_dnload_iff (c : Config) (r : SetupRequest) :
    extraCondition c r .dnload = true ↔
      r.length.toNat ≤ c.ts ∧ ¬(c.variant = .dfuse ∧ r.value = 1 ∧ r.length ≠ 0) := by
  have hlen : 0 < r.length.toNat ↔ r.length ≠ 0 := by
    simp [Nat.pos_iff_ne_zero, BitVec.toNat_eq]
  simp only [extraCondition, Bool.and_eq_true, decide_eq_true_eq, Bool.not_eq_true', ← Bool.not_eq_true, beq_iff_eq, hlen,
    and_assoc]

/-! An accepted request leaves a transfer open. -/

theorem writeBegun_cts_ne_stalled {r : SetupRequest} {s t : State} (h : WriteBegun r s t) : t.cts ≠ .stalled := by
  rw [h.cts]
  split_ifs <;> exact nofun

theorem startRead_cts_ne_stalled (buf : List Byte) (n : Nat) (s : State) : (startRead buf n s).cts ≠ .stalled := by
  rw [startRead_cts]
  split_ifs <;> exact nofun

/-- A read keeps the latched packet: it commutes with latching another one. -/
theorem dfuRead_setupReq (q : DfuRequest) (r : SetupRequest) (s : State) :
    (dfuRead q r (newTransfer r s)).2.setupReq = some r :=
  congrArg (fun x => x.2.setupReq) (dfuRead_newTransfer_comm (r := r) rfl q s)

/-- Settles O19: outside its states a request is not legal; in them a write is opened and a read is answered. -/
theorem legalityTable : Obligations.LegalityTable := by
  intro q f s hg
  refine ⟨fun hs hx hfit => ?_, fun hs => dfu_violation hg (not_legal_of_state hs)⟩
  have hl := legal_of_mem_legalStates hx hs
  cases hd : (requestOfDfu q f).dir with
  | hostToDevice =>
    obtain ⟨t, ht, accepted⟩ := dfu_writeAccepted hg hl hd (hfit hd)
    exact ⟨t, ht, writeBegun_cts_ne_stalled accepted.begun, accepted.setupReq⟩
  | deviceToHost =>
    obtain ⟨buf, hbuf⟩ := dfuRead_some hd (requestOfDfu q f) (newTransfer (requestOfDfu q f) s)
    exact ⟨_, exec_dfu_read hg hl hd hbuf, startRead_cts_ne_stalled _ _ _,
      (startRead_setupReq ..).trans (dfuRead_setupReq q _ s)⟩

/-- Settles O20: each of the three breaks the extra condition of its request. -/
theorem extraConditionViolations : Obligations.ExtraConditionViolations := by
  intro f s hg
  constructor
  · intro h
    refine dfu_violation (q := .dnload) hg (not_legal_of_extraCondition fun hx => ?_)
    obtain ⟨hts, hblock⟩ := (extraCondition_dnload_iff s.cfg _).mp hx
    exact h.elim (Nat.not_lt.mpr hts) hblock
  · intro h
    exact dfu_violation (q := .upload) hg (not_legal_of_extraCondition (Bool.eq_false_iff.mp h))

/-- Settles O24: the request is legal, and a valid configuration's buffer holds `TRANSFER_SIZE` bytes. -/
theorem dnloadAcceptedAtSetup : Obligations.DnloadAcceptedAtSetup := by
  intro f s hc hg hs hts hblock
  have hl : legal .dnload (requestOfDfu .dnload f) s = true :=
    legal_iff.mpr ⟨by simpa [legalStates] using hs, (extraCondition_dnload_iff s.cfg _).mpr ⟨hts, hblock⟩⟩
  exact dfu_writeAccepted hg hl rfl (hts.trans (validFacts hc).ctrlBuf.1)

/-! Requests that no state accepts (R201, R245). -/

theorem decodeSetup_encodeRequest (r : SetupRequest) : decodeSetup (encodeRequest r) = Instr.ofRequest r := by
  simp only [decodeSetup, decodeRequest_encodeRequest]

/-- Settles O22: the packet selects the row of `DETACH`, which the table gives no state. -/
theorem detachAlwaysViolates : Obligations.DetachAlwaysViolates :=
  fun f _ => ⟨decodeSetup_encodeRequest (requestOfDfu .detach f),
    fun hg => dfu_violation (q := .detach) hg (not_legal_of_state List.not_mem_nil), fun _ => rfl⟩

/-- Settles O11: both handler rows open the transfer and stall it. -/
theorem packetsOfNoRequestStall : Obligations.PacketsOfNoRequestStall :=
  fun _ _ _ s => ⟨fun _ => ⟨_, rfl, rejected_newTransfer _ s⟩, ⟨_, rfl, rejected_newTransfer _ s⟩⟩

/-! The writes that an `IN` executes (R141, R211). -/

/-- The `IN` that executes a write in success, where the execution wrote the class group only: it leaves what was written
there, and the transfer is gone. -/
theorem inDone_classWrite {s : State} {r : SetupRequest} {d : DfuState} {code : StatusCode} {ptr : Word} {work : Pending}
    (hc : s.cts = .statusIn) (hp : s.pendOut = some r)
    (hx : dispatcherSet r (s.xferData.take s.xferLen) s =
      some (true, { s with dfuState := d, dfuStatusCode := code, addrPtr := ptr, pending := work })) :
    ∃ t, exec .inDone s = .next t ∧ WriteDone s t ∧ SameDevice s t ∧ SameFlash s t ∧
      t.dfuState = d ∧ t.dfuStatusCode = code ∧ t.addrPtr = ptr ∧ t.pending = work :=
  ⟨_, exec_inDone_writes hc hp hx, writeDone_abandon rfl rfl ⟨rfl, rfl⟩, ⟨rfl, rfl, rfl, rfl, rfl⟩, sameFlash_refl s,
    rfl, rfl, rfl, rfl⟩

/-- The target of a captured block: the pointer, or the pointer plus the scaled block number (R68, R220, R256). -/
def captureTarget (s : State) (blockNum : Half) : Nat :=
  if s.cfg.variant = .plainDfu then pointerAddress s else blockAddress s blockNum

/-- A `DNLOAD` with data captures its block, but for the DfuSe blocks 0 and 1 (R220, R256). -/
theorem dnloadSet_capture {r : SetupRequest} {s : State} (hl : r.length ≠ 0)
    (hv : s.cfg.variant = .plainDfu ∨ 2 ≤ r.value.toNat) (data : List Byte) :
    dnloadSet r data s = some (true, captureBlock r data (captureTarget s r.value) s) := by
  have hn : r.length.toNat ≠ 0 := fun h => hl (BitVec.eq_of_toNat_eq h)
  unfold dnloadSet captureTarget
  rw [if_neg hn]
  cases hvar : s.cfg.variant with
  | plainDfu => rfl
  | dfuse =>
    have h2 : 2 ≤ r.value.toNat := hv.resolve_left (by simp [hvar])
    have h0 : r.value ≠ 0 := by rintro h; simp [h] at h2
    have h1 : r.value ≠ 1 := by rintro h; simp [h] at h2
    simp only [if_neg h0, if_neg h1, reduceCtorEq, if_false]

/-- Settles O25: the `IN` runs `captureBlock`, which writes the state and the pending work only. -/
theorem dnloadCapturesBlock : Obligations.DnloadCapturesBlock := by
  intro f s hc hp hl hv
  obtain ⟨t, ht, done, dev, flash, state, code, ptr, pending⟩ :=
    inDone_classWrite hc hp (dnloadSet_capture (r := requestOfDfu .dnload f) hl hv _)
  exact ⟨t, ht, done, dev, flash, state, code, ptr, _, pending, rfl, rfl, rfl, rfl⟩

theorem dnloadSet_noData {r : SetupRequest} (hl : r.length = 0) (data : List Byte) (s : State) :
    dnloadSet r data s = some (true, endDownload s) := by
  simp [dnloadSet, hl]

theorem endDownload_dnloadIdle {s : State} (h : s.dfuState = .dnloadIdle) :
    endDownload s =
      { s with pending := if s.cfg.manifestDelay then .manifestWork else .noWork, dfuState := .manifestSync } :=
  if_pos h

theorem endDownload_of_ne {s : State} (h : s.dfuState ≠ .dnloadIdle) : endDownload s = s := if_neg h

/-- Settles O26: the `IN` runs `endDownload`, which acts in `DnloadIdle` only. -/
theorem zeroLengthDnload : Obligations.ZeroLengthDnload := by
  intro f s hc hp hl
  have ends := dnloadSet_noData (r := requestOfDfu .dnload f) hl (s.xferData.take s.xferLen) s
  constructor
  · intro hs
    rw [endDownload_dnloadIdle hs] at ends
    obtain ⟨t, ht, done, dev, flash, state, code, ptr, pending⟩ := inDone_classWrite hc hp ends
    exact ⟨t, ht, done, dev, flash, state, pending, code, ptr⟩
  · intro hs
    rw [endDownload_of_ne (by simp [hs])] at ends
    obtain ⟨t, ht, done, dev, flash, state, code, ptr, pending⟩ := inDone_classWrite hc hp ends
    exact ⟨t, ht, done, dev, flash, state, code, ptr, pending⟩

/-- Settles O29: `CLRSTATUS` is legal in `Error` alone; the `IN` runs `clrstatusSet`. -/
theorem clrstatusLeavesError : Obligations.ClrstatusLeavesError := by
  intro f s
  refine ⟨fun hg hs hfit => ?_, fun hg hs => ?_, fun hc hp => ?_⟩
  · have hl : legal .clrstatus (requestOfDfu .clrstatus f) s = true :=
      legal_of_mem_legalStates rfl (List.mem_singleton.mpr hs)
    exact dfu_writeAccepted hg hl rfl hfit
  · exact dfu_violation (q := .clrstatus) hg (not_legal_of_state (mt List.mem_singleton.mp hs))
  · obtain ⟨t, ht, done, dev, flash, state, code, ptr, pending⟩ :=
      inDone_classWrite hc hp (dispatcherSet_clrstatus f _ s)
    exact ⟨t, ht, done, dev, flash, code, state, ptr, pending⟩

/-- Settles O30: `ABORT` is legal in its five states; the `IN` runs `abortSet`. -/
theorem abortReturnsToIdle : Obligations.AbortReturnsToIdle := by
  intro f s
  constructor
  · intro hg hfit hs
    exact dfu_writeAccepted hg (legal_of_mem_legalStates (q := .abort) rfl hs) rfl hfit
  · intro hc hp
    obtain ⟨t, ht, done, dev, flash, state, code, ptr, pending⟩ :=
      inDone_classWrite hc hp (dispatcherSet_abort f _ s)
    exact ⟨t, ht, done, dev, flash, code, state, ptr, pending⟩

/-! `UPLOAD` (R225, R258). -/

theorem addressInRange_iff (c : Config) (a : Nat) : addressInRange c a = true ↔ inRegion c a := decide_eq_true_iff

theorem uploadGet_inRegion {s : State} (h : inRegion s.cfg s.addrPtr.toNat) (r : SetupRequest) :
    uploadGet r s = (s.flashRead s.addrPtr.toNat (min r.length.toNat (s.cfg.appEnd - s.addrPtr.toNat)),
      { s with addrPtr := advancedPointer s, dfuState := .uploadIdle }) :=
  if_pos ((addressInRange_iff _ _).mpr h)

theorem uploadGet_outside {s : State} (h : ¬inRegion s.cfg s.addrPtr.toNat) (r : SetupRequest) :
    uploadGet r s = ([], { s with dfuState := .idle }) :=
  if_neg (mt (addressInRange_iff _ _).mp h)

theorem toNat_advancedPointer (s : State) : (advancedPointer s).toNat = (s.addrPtr.toNat + s.cfg.ts) % 2 ^ 32 := by
  simp [advancedPointer]

/-- Settles O27: `UPLOAD` is legal, and its read writes the pointer and the state only. -/
theorem uploadReadsAndAdvances : Obligations.UploadReadsAndAdvances := by
  intro f s hg hs hup
  have hl : legal .upload (requestOfDfu .upload f) s = true := legal_iff.mpr ⟨by simpa [legalStates] using hs, hup⟩
  have answer : ∀ {x : List Byte × State},
      uploadGet (requestOfDfu .upload f) (newTransfer (requestOfDfu .upload f) s) = x →
      exec (.dfuUpload f) s = .next (startRead x.1 (requestOfDfu .upload f).length.toNat x.2) :=
    fun hx => exec_dfu_read_of_eq hg hl rfl (congrArg (fun x => (some x.1, x.2)) hx)
  have ran : ∀ (p : Word) (d : DfuState), ReadRan (requestOfDfu .upload f) [] s
      { newTransfer (requestOfDfu .upload f) s with addrPtr := p, dfuState := d } :=
    fun p d => ⟨rfl, rfl, (List.append_nil _).symm, ⟨rfl, rfl⟩, ⟨rfl, rfl, rfl, rfl, rfl⟩⟩
  constructor
  · intro hin
    refine ⟨_, answer (uploadGet_inRegion (s := newTransfer _ s) hin _), (ran _ _).answered _, ?_, ?_⟩
    · exact (congrArg BitVec.toNat (startRead_addrPtr ..)).trans (toNat_advancedPointer s)
    · exact ⟨startRead_dfuState .., startRead_dfuStatusCode .., startRead_pending .., startRead_flashByte _ _ _⟩
  · intro hout
    refine ⟨_, answer (uploadGet_outside (s := newTransfer _ s) hout _), (ran _ _).answered _, ?_⟩
    exact ⟨startRead_addrPtr .., startRead_dfuState .., startRead_dfuStatusCode .., startRead_pending ..,
      startRead_flashByte _ _ _⟩

end Sys2Proof.Proofs
end

section
/-! PROOFS of the family 42_dfu_class.md, second part: `GETSTATUS` in each state, and the block that a poll runs (R230, R231,
R280 to R291). -/

namespace Sys2Proof.Proofs

open Machine Laws

/-! The poll, whatever its answer is (R230). -/

theorem exec_getstatus {f : SetupFields} {s u : State} {buf : List Byte} (hg : classGate s = true)
    (hs : s.dfuState ∈ legalStates .getstatus)
    (h : getstatusGet (newTransfer (requestOfDfu .getstatus f) s) = (buf, u)) :
    exec (.dfuGetstatus f) s = .next (startRead buf (requestOfDfu .getstatus f).length.toNat u) :=
  exec_dfu_read_of_eq hg (legal_of_mem_legalStates rfl hs) rfl (congrArg (fun x => (some x.1, x.2)) h)

/-- A poll that writes the state and the pending work, and nothing else, ran with no output. -/
theorem readRan_poll (r : SetupRequest) (s : State) (d : DfuState) (p : Pending) :
    ReadRan r [] s { newTransfer r s with dfuState := d, pending := p } :=
  ⟨rfl, rfl, (List.append_nil _).symm, ⟨rfl, rfl⟩, ⟨rfl, rfl, rfl, rfl, rfl⟩⟩

/-- Such a poll leaves what it wrote, and the status code, the pointer and flash as before. -/
theorem exec_getstatus_poll {f : SetupFields} {s : State} {buf : List Byte} {d : DfuState} {p : Pending}
    (hg : classGate s = true) (hs : s.dfuState ∈ legalStates .getstatus)
    (h : getstatusGet (newTransfer (requestOfDfu .getstatus f) s) =
      (buf, { newTransfer (requestOfDfu .getstatus f) s with dfuState := d, pending := p })) :
    ∃ t, exec (.dfuGetstatus f) s = .next t ∧ ReadAnswered (requestOfDfu .getstatus f) buf [] s t ∧
      t.dfuState = d ∧ t.dfuStatusCode = s.dfuStatusCode ∧ t.addrPtr = s.addrPtr ∧ t.pending = p ∧ SameFlash s t :=
  ⟨_, exec_getstatus hg hs h, (readRan_poll _ s d p).answered _, startRead_dfuState .., startRead_dfuStatusCode ..,
    startRead_addrPtr .., startRead_pending .., startRead_flashByte _ _ _⟩

/-- In a resting state the poll reports the state and writes nothing. -/
theorem getstatusGet_resting {s : State} (h : s.dfuState ∈ [DfuState.idle, .dnloadIdle, .uploadIdle, .error]) :
    getstatusGet s = (statusBytes s.cfg s.dfuStatusCode 0 s.dfuState, s) := by
  have poll : getstatusGet s = pollInto s.dfuState s := by
    simp only [List.mem_cons, List.not_mem_nil, or_false] at h
    obtain h | h | h | h := h <;> simp only [getstatusGet, h]
  exact poll

/-- Settles O33: each resting state is one where `GETSTATUS` is legal, and its poll writes nothing. -/
theorem getstatusReportsRestingState : Obligations.GetstatusReportsRestingState := by
  intro f s hg hs
  have legal_of_resting : ∀ d ∈ [DfuState.idle, .dnloadIdle, .uploadIdle, .error], d ∈ legalStates .getstatus := by
    decide
  obtain ⟨t, ht, answered, state, code, ptr, pending, flash⟩ :=
    exec_getstatus_poll hg (legal_of_resting _ hs)
      (getstatusGet_resting (s := newTransfer (requestOfDfu .getstatus f) s) hs)
  exact ⟨t, ht, answered, ⟨state, code, ptr, pending⟩, flash⟩

theorem mem_legalStates_dnloadSync {s : State} (hs : s.dfuState = .dnloadSync) :
    s.dfuState ∈ legalStates .getstatus := by
  simp [legalStates, hs]

theorem mem_legalStates_manifestSync {s : State} (hs : s.dfuState = .manifestSync) :
    s.dfuState ∈ legalStates .getstatus := by
  simp [legalStates, hs]

theorem getstatusGet_dnloadSync_noWork {s : State} (hs : s.dfuState = .dnloadSync) (hp : s.pending = .noWork) :
    getstatusGet s = pollInto .dnloadIdle s := by
  simp only [getstatusGet, hs, hp]

theorem getstatusGet_manifestSync_manifestWork {s : State} (hs : s.dfuState = .manifestSync)
    (hp : s.pending = .manifestWork) : getstatusGet s = pollManifest s := by
  simp only [getstatusGet, hs, hp]

theorem getstatusGet_manifestSync_noWork {s : State} (hs : s.dfuState = .manifestSync) (hp : s.pending = .noWork) :
    getstatusGet s = pollInto .manifestWaitReset s := by
  simp only [getstatusGet, hs, hp]

/-- Settles O34: one branch of the poll per state and pending work; where nothing is pending, that stays so. -/
theorem getstatusLeavesSyncStates : Obligations.GetstatusLeavesSyncStates := by
  intro f s hg answer
  refine ⟨fun hs hp => ?_, fun hs hp => ?_, fun hs hp => ?_⟩
  · rw [← hp]
    exact exec_getstatus_poll hg (mem_legalStates_dnloadSync hs)
      (getstatusGet_dnloadSync_noWork (s := newTransfer _ s) hs hp)
  · exact exec_getstatus_poll hg (mem_legalStates_manifestSync hs)
      (getstatusGet_manifestSync_manifestWork (s := newTransfer _ s) hs hp)
  · rw [← hp]
    exact exec_getstatus_poll hg (mem_legalStates_manifestSync hs)
      (getstatusGet_manifestSync_noWork (s := newTransfer _ s) hs hp)

/-! The poll that runs a block: what it answers, and what the block's outcome leaves (R230, R280). -/

theorem getstatusGet_block {s : State} {pb : PendingBlock} (hs : s.dfuState = .dnloadSync) (hp : s.pending = .block pb) :
    getstatusGet s = (statusBytes s.cfg s.dfuStatusCode (estimate s.cfg.est (wordCount pb.length.toNat)) .dnBusy,
      (blockOutcome s.cfg pb s.flash).apply { s with dfuState := .dnBusy, pending := .noWork }) := by
  simp only [getstatusGet, hs, hp, pollBlock, blockExec_eq]

/-- What a poll leaves whose block ended in the outcome `o`: the answer composed before the run, the calls of the run, and the
class group and flash by its error, if any. -/
structure BlockPolled (f : SetupFields) (pb : PendingBlock) (o : BlockOutcome) (s t : State) : Prop where
  answered : ReadAnswered (requestOfDfu .getstatus f)
    (statusBytes s.cfg s.dfuStatusCode (estimate s.cfg.est (wordCount pb.length.toNat)) .dnBusy) o.calls s t
  flash    : t.flash = o.flash
  pending  : t.pending = .noWork
  state    : t.dfuState = if o.error = none then .dnloadSync else .error
  code     : t.dfuStatusCode = o.error.getD s.dfuStatusCode
  addrPtr  : t.addrPtr = if o.error = none ∧ s.cfg.variant = .plainDfu then advancedPointer s else s.addrPtr

theorem readRan_apply (r : SetupRequest) (o : BlockOutcome) (s : State) (d : DfuState) (p : Pending) :
    ReadRan r o.calls s (o.apply { newTransfer r s with dfuState := d, pending := p }) where
  pendOut := apply_pendOut ..
  setupReq := apply_setupReq ..
  trace := apply_trace ..
  inputs := ⟨apply_cfg .., apply_events ..⟩
  device := ⟨apply_usbDevState .., apply_usbAddr .., apply_usbConfig .., apply_stdOwn .., apply_vndOwn ..⟩

/-- The poll in `DnloadSync` with a block pending runs the block. -/
theorem exec_getstatus_block {f : SetupFields} {pb : PendingBlock} {s : State} (hg : classGate s = true)
    (hs : s.dfuState = .dnloadSync) (hp : s.pending = .block pb) :
    ∃ t, exec (.dfuGetstatus f) s = .next t ∧ BlockPolled f pb (blockOutcome s.cfg pb s.flash) s t := by
  have polled := getstatusGet_block (s := newTransfer (requestOfDfu .getstatus f) s) hs hp
  refine ⟨_, exec_getstatus hg (mem_legalStates_dnloadSync hs) polled, ?_⟩
  exact {
    answered := (readRan_apply _ _ s _ _).answered _
    flash := (startRead_flash ..).trans (apply_flash ..)
    pending := (startRead_pending ..).trans (apply_pending ..)
    state := (startRead_dfuState ..).trans (apply_dfuState ..)
    code := (startRead_dfuStatusCode ..).trans (apply_dfuStatusCode ..)
    addrPtr := (startRead_addrPtr ..).trans (apply_addrPtr ..) }

/-- A block that ended in an error leaves `Error` with that code, and the pointer (R204, R304). -/
theorem BlockPolled.failed {f : SetupFields} {pb : PendingBlock} {o : BlockOutcome} {s t : State} {code : StatusCode}
    (h : BlockPolled f pb o s t) (he : o.error = some code) :
    t.dfuState = .error ∧ t.dfuStatusCode = code ∧ t.addrPtr = s.addrPtr := by
  rw [h.state, h.code, h.addrPtr, he]
  simp

/-- A block that ended in success leaves `DnloadSync` and the status code; the plain variant's pointer advances (R291). -/
theorem BlockPolled.succeeded {f : SetupFields} {pb : PendingBlock} {o : BlockOutcome} {s t : State}
    (h : BlockPolled f pb o s t) (he : o.error = none) :
    t.dfuState = .dnloadSync ∧ t.dfuStatusCode = s.dfuStatusCode ∧
      t.addrPtr = if s.cfg.variant = .plainDfu then s.addrPtr + BitVec.ofNat 32 s.cfg.ts else s.addrPtr := by
  rw [h.state, h.code, h.addrPtr, he]
  simp [advancedPointer]

theorem BlockPolled.flashRead {f : SetupFields} {pb : PendingBlock} {o : BlockOutcome} {s t : State}
    (h : BlockPolled f pb o s t) (a n : Nat) : t.flashRead a n = Memory.readBytes (unlistedByte s.cfg) o.flash a n := by
  rw [State.flashRead, h.answered.inputs.cfg, h.flash]

/-- The error of a programmed block is decided by the read-back of its payload (R290). -/
theorem programOutcome_error_eq (c : Config) (pb : PendingBlock) (m : List Host.Cell) (calls : List Action) :
    (programOutcome c pb m calls).error =
      if Memory.readBytes (unlistedByte c) (programOutcome c pb m calls).flash pb.target pb.length.toNat = pb.data then none
      else some .errVERIFY :=
  rfl

/-- A poll that programmed its block: success if the payload reads back, else `errVERIFY` (R290, R291). -/
theorem BlockPolled.verified {f : SetupFields} {pb : PendingBlock} {m : List Host.Cell} {calls : List Action} {s t : State}
    (h : BlockPolled f pb (programOutcome s.cfg pb m calls) s t) :
    if t.flashRead pb.target pb.length.toNat = pb.data then
      t.dfuState = .dnloadSync ∧ t.dfuStatusCode = s.dfuStatusCode ∧
      t.addrPtr = (if s.cfg.variant = .plainDfu then s.addrPtr + BitVec.ofNat 32 s.cfg.ts else s.addrPtr)
    else t.dfuState = .error ∧ t.dfuStatusCode = .errVERIFY ∧ t.addrPtr = s.addrPtr := by
  rw [h.flashRead]
  split
  next hv => exact h.succeeded ((programOutcome_error_eq ..).trans (if_pos hv))
  next hv => exact h.failed ((programOutcome_error_eq ..).trans (if_neg hv))

/-! The outcome of a block, one equation per way it goes (R280 to R287). -/

/-- The flash after the erase calls of a block that is not erased (R287). -/
def erasedForBlock (c : Config) (pb : PendingBlock) (m : List Host.Cell) : List Host.Cell :=
  erasePages c m (blockPages c pb.target (paddedLength pb.length.toNat))

/-- The calls of a block that is not erased: the check, the pages, the check again (R285, R287). -/
def eraseCalls (c : Config) (pb : PendingBlock) (m : List Host.Cell) : List Action :=
  [.erasedQ pb.target (wordCount pb.length.toNat) false] ++
    (blockPages c pb.target (paddedLength pb.length.toNat)).map .erase ++
    [.erasedQ pb.target (wordCount pb.length.toNat)
      (fpIsErased c (erasedForBlock c pb m) pb.target (wordCount pb.length.toNat))]

section
variable {c : Config} {pb : PendingBlock} {m : List Host.Cell}

theorem blockOutcome_outOfRange (hr : inRange c pb.target (paddedLength pb.length.toNat) = false) :
    blockOutcome c pb m = { flash := m, calls := [], error := some .errADDRESS } := by
  simp only [blockOutcome, hr, Bool.false_eq_true, if_false]

theorem blockOutcome_erased (hr : inRange c pb.target (paddedLength pb.length.toNat) = true)
    (he : fpIsErased c m pb.target (wordCount pb.length.toNat) = true) :
    blockOutcome c pb m = programOutcome c pb m [.erasedQ pb.target (wordCount pb.length.toNat) true] := by
  simp only [blockOutcome, hr, he, if_true]

theorem blockOutcome_erasedFirst (hr : inRange c pb.target (paddedLength pb.length.toNat) = true)
    (he : fpIsErased c m pb.target (wordCount pb.length.toNat) = false)
    (ha : fpIsErased c (erasedForBlock c pb m) pb.target (wordCount pb.length.toNat) = true) :
    blockOutcome c pb m = programOutcome c pb (erasedForBlock c pb m) (eraseCalls c pb m) := by
  rw [erasedForBlock] at ha
  simp only [blockOutcome, hr, he, ha, if_true, Bool.false_eq_true, if_false, eraseCalls, erasedForBlock]

theorem blockOutcome_stillNotErased (hr : inRange c pb.target (paddedLength pb.length.toNat) = true)
    (he : fpIsErased c m pb.target (wordCount pb.length.toNat) = false)
    (ha : fpIsErased c (erasedForBlock c pb m) pb.target (wordCount pb.length.toNat) = false) :
    blockOutcome c pb m =
      { flash := erasedForBlock c pb m, calls := eraseCalls c pb m, error := some .errCHECK_ERASED } := by
  rw [erasedForBlock] at ha
  simp only [blockOutcome, hr, he, ha, if_true, Bool.false_eq_true, if_false, eraseCalls, erasedForBlock]

end

/-- Settles O35: the range check fails first, so the outcome has no call and the flash as it was. -/
theorem pollOfBlockOutOfRange : Obligations.PollOfBlockOutOfRange := by
  intro f pb s hg hs hp hout
  obtain ⟨t, ht, polled⟩ := exec_getstatus_block (f := f) hg hs hp
  rw [blockOutcome_outOfRange (decide_eq_false hout)] at polled
  obtain ⟨state, code, ptr⟩ := polled.failed rfl
  exact ⟨t, ht, polled.answered, state, code, ptr, polled.pending, sameFlash_of polled.answered.inputs.cfg polled.flash⟩

/-! The reported timeout (R7, R231, decision D11). -/

theorem estimate_bounds {c : Config} {n : Nat} (h : c.estOk = true) (h1 : 1 ≤ n) (hn : n ≤ c.maxWords) :
    1 ≤ estimate c.est n ∧ estimate c.est n < 2 ^ 24 := by
  simp only [Config.estOk, List.all_eq_true, List.mem_range, decide_eq_true_eq] at h
  obtain ⟨k, rfl⟩ : ∃ k, n = k + 1 := ⟨n - 1, by omega⟩
  obtain ⟨hlo, hhi, -⟩ := h k hn
  exact ⟨hlo, by omega⟩

theorem wordCount_bounds {c : Config} {n : Nat} (h1 : 1 ≤ n) (hn : n ≤ c.ts) :
    1 ≤ wordCount n ∧ wordCount n ≤ c.maxWords := by
  simp only [wordCount, Config.maxWords, ceilDiv, wordBytes]
  omega

/-- Settles O36: the first check answers true, so the outcome is that of programming at once. -/
theorem pollProgramsErasedBlock : Obligations.PollProgramsErasedBlock := by
  intro f pb s hg hs hp hr he bytes after
  obtain ⟨t, ht, polled⟩ := exec_getstatus_block (f := f) hg hs hp
  rw [blockOutcome_erased hr he] at polled
  refine ⟨t, ht, polled.answered, polled.flash, polled.pending, fun hc h1 hn => ?_, polled.verified⟩
  obtain ⟨hw1, hwn⟩ := wordCount_bounds (c := s.cfg) h1 hn
  exact estimate_bounds (validFacts hc).est hw1 hwn

/-- Settles O37: the first check answers false, so the pages are erased, and the second check decides. -/
theorem pollErasesBeforeProgramming : Obligations.PollErasesBeforeProgramming := by
  intro f pb s hg hs hp hr he n pages erased again bytes calls answer
  obtain ⟨t, ht, polled⟩ := exec_getstatus_block (f := f) hg hs hp
  refine ⟨t, ht, polled.pending, fun ha => ?_, fun ha => ?_⟩
  · rw [blockOutcome_stillNotErased hr he ha] at polled
    exact ⟨polled.answered, polled.flash, polled.failed rfl⟩
  · rw [blockOutcome_erasedFirst hr he ha] at polled
    exact ⟨polled.answered, polled.flash, polled.verified⟩

end Sys2Proof.Proofs
end

section
/-! PROOFS of the family 43_dfuse_extension.md: the block-0 commands and the payload that is none (R252 to R255). -/

namespace Sys2Proof.Proofs

open Machine Laws

/-! `ERASE_PAGE`, one equation per way it goes (R254). -/

/-- The answer of the check that follows the erase call of the command (R254, R271). -/
def pageCheck (arg : Word) (s : State) : Bool :=
  fpIsErased s.cfg (fpErasePage s.cfg s.flash arg.toNat) (pageBase s.cfg arg.toNat) (s.cfg.pageSize / wordBytes)

/-- The two calls of the command, with the check's answer (R254, R270). -/
def pageCalls (arg : Word) (s : State) : List Action :=
  [.erase arg.toNat, .erasedQ (pageBase s.cfg arg.toNat) (s.cfg.pageSize / wordBytes) (pageCheck arg s)]

/-- What the command leaves once it has made its two calls, before it acts on the check's answer. -/
def pageErased (arg : Word) (s : State) : State :=
  { s with pending := .noWork, flash := fpErasePage s.cfg s.flash arg.toNat, trace := s.trace ++ pageCalls arg s }

section
variable {arg : Word} {s : State}

theorem erasePageCommand_outside (h : ¬inRegion s.cfg arg.toNat) :
    erasePageCommand arg s = (false, classError .errADDRESS { s with pending := .noWork }) :=
  if_neg (mt (addressInRange_iff _ _).mp h)

theorem erasePageCommand_inRegion (h : inRegion s.cfg arg.toNat) :
    erasePageCommand arg s =
      if pageCheck arg s then (true, { pageErased arg s with dfuState := .dnloadSync })
      else (false, classError .errCHECK_ERASED (pageErased arg s)) := by
  have calls : callIsErased (pageBase s.cfg arg.toNat) (s.cfg.pageSize / wordBytes)
      (callErasePage arg.toNat { s with pending := .noWork }) = (pageCheck arg s, pageErased arg s) := by
    simp [callIsErased, callErasePage, emit, pageErased, pageCalls, pageCheck]
  unfold erasePageCommand
  dsimp only
  rw [if_pos ((addressInRange_iff _ _).mpr h), calls]

theorem erasePageCommand_checkFailed (h : inRegion s.cfg arg.toNat) (hok : pageCheck arg s = false) :
    erasePageCommand arg s = (false, classError .errCHECK_ERASED (pageErased arg s)) := by
  simp only [erasePageCommand_inRegion h, hok, Bool.false_eq_true, if_false]

theorem erasePageCommand_succeeds (h : inRegion s.cfg arg.toNat) (hok : pageCheck arg s = true) :
    erasePageCommand arg s = (true, { pageErased arg s with dfuState := .dnloadSync }) := by
  simp only [erasePageCommand_inRegion h, hok, if_true]

end

/-- Whichever way it goes, the command clears the pending work and keeps the pointer and the device (R254). -/
theorem erasePageCommand_frame (arg : Word) (s : State) :
    (erasePageCommand arg s).2.addrPtr = s.addrPtr ∧ (erasePageCommand arg s).2.pending = .noWork ∧
      SameDevice s (erasePageCommand arg s).2 := by
  by_cases h : inRegion s.cfg arg.toNat
  · rw [erasePageCommand_inRegion h]
    split <;> exact ⟨rfl, rfl, rfl, rfl, rfl, rfl, rfl⟩
  · rw [erasePageCommand_outside h]
    exact ⟨rfl, rfl, rfl, rfl, rfl, rfl, rfl⟩

theorem sameDevice_completeWrite {s u : State} (ok : Bool) (h : SameDevice s u) : SameDevice s (completeWrite ok u) :=
  ⟨(completeWrite_usbDevState ..).trans h.usbDevState, (completeWrite_usbAddr ..).trans h.usbAddr,
    (completeWrite_usbConfig ..).trans h.usbConfig, (completeWrite_stdOwn ..).trans h.stdOwn,
    (completeWrite_vndOwn ..).trans h.vndOwn⟩

/-- The page of an address in the region lies in the flash space: the region ends at a page end below `2 ^ 32` (R6, R61). -/
theorem pageEnd_le_flashSpace {c : Config} {a : Nat} (hc : Config.valid c = true) (h : inRegion c a) :
    pageBase c a + c.pageSize ≤ flashSpace :=
  have v := validFacts hc
  calc pageBase c a + c.pageSize
    _ ≤ c.appEnd := pageEnd_le (validFacts_page_pos v) v.aligned.2 h.2
    _ ≤ flashSpace := (Nat.le_add_right _ _).trans v.region.2

/-- Settles O43: outside the region no call is made; inside it the check decides, and `FP_IDEAL` always passes it.
(The name `erasePageCommand` is the model's function's.) -/
theorem erasePageCommandErasesAndChecks : Obligations.ErasePageCommand := by
  intro arg s erased ok calls
  obtain ⟨ptr, pending, device⟩ := erasePageCommand_frame arg s
  refine ⟨_, rfl, (completeWrite_addrPtr ..).trans ptr, (completeWrite_pending ..).trans pending,
    sameDevice_completeWrite _ device, fun hout => ?_, fun hin hok => ?_, fun hin hok => ?_, fun hin hi hc hm => ?_⟩
  · rw [erasePageCommand_outside hout]
    exact ⟨writeFailed_fail rfl (List.append_nil _).symm ⟨rfl, rfl⟩, rfl, rfl, sameFlash_refl s⟩
  · rw [erasePageCommand_checkFailed hin hok]
    exact ⟨writeFailed_fail rfl rfl ⟨rfl, rfl⟩, rfl, rfl, rfl⟩
  · rw [erasePageCommand_succeeds hin hok]
    exact ⟨noTransfer_completeWrite _ _, rfl, ⟨rfl, rfl⟩, rfl, rfl, rfl, rfl⟩
  · have v := validFacts hc
    obtain ⟨hok, bytes⟩ := fpErasePage_ideal hi (validFacts_page_pos v) v.page.2 hm (pageEnd_le_flashSpace hc hin)
    rw [erasePageCommand_succeeds hin hok]
    exact ⟨rfl, rfl, bytes⟩

/-! A payload that is no command (R252, R255). -/

theorem decodeCommand_error {codes : CmdCodes} {data : List Byte} (hset : data.head? ≠ some codes.setAddress)
    (herase : data.head? ≠ some codes.erase) : ∃ e, decodeCommand codes data = .error e := by
  unfold decodeCommand
  split
  · rw [if_neg fun h => hset (congrArg some h), if_neg fun h => herase (congrArg some h)]
    exact ⟨_, rfl⟩
  · exact ⟨_, rfl⟩

theorem dfuseCommand_of_error {length : Half} {data : List Byte} {s : State} {e : DecodeError}
    (h : commandOf s.cfg length data = .error e) : dfuseCommand length data s = badCommand s := by
  simp only [dfuseCommand, h]

/-- A payload of the request's length that is too short, or starts with neither command byte, is no command. -/
theorem commandOf_error {c : Config} {length : Half} {data : List Byte} (hlen : data.length = length.toNat)
    (h : data.length < 5 ∨ data.head? ≠ some c.cmdCodes.setAddress ∧ data.head? ≠ some c.cmdCodes.erase) :
    ∃ e, commandOf c length data = .error e := by
  by_cases h5 : data.length < 5
  · exact ⟨_, if_pos (hlen ▸ h5)⟩
  · obtain ⟨hset, herase⟩ := h.resolve_left h5
    rw [commandOf_of_five_le (by omega)]
    exact decodeCommand_error hset herase

/-- Settles O44: the `IN` runs the block-0 payload as a command, which it is not, so it runs `badCommand`. -/
theorem badCommandStalls : Obligations.BadCommandStalls := by
  rintro f data s hv hc hp h0 hl rfl hlen hbad
  have hpos : 0 < f.length.toNat := Nat.pos_of_ne_zero fun h => hl (BitVec.eq_of_toNat_eq h)
  obtain ⟨e, he⟩ := commandOf_error hlen hbad
  have run := dispatcherSet_command (data := s.xferData.take s.xferLen) (isCommandRequest_dnload hv h0 hpos)
  rw [length_requestOfDfu, dfuseCommand_of_error he] at run
  exact ⟨_, exec_inDone_writes hc hp run, writeFailed_fail rfl (List.append_nil _).symm ⟨rfl, rfl⟩, rfl, rfl, rfl, rfl,
    ⟨rfl, rfl, rfl, rfl, rfl⟩, sameFlash_refl s⟩

/-- Settles O42: the row writes the pointer, the pending work and the state, and its transfer ends in success. -/
theorem setAddressPointerCommand : Obligations.SetAddressPointerCommand :=
  fun _ s => ⟨_, rfl, writeDone_abandon rfl rfl ⟨rfl, rfl⟩, rfl, rfl, rfl, rfl, ⟨rfl, rfl, rfl, rfl, rfl⟩,
    sameFlash_refl s⟩

end Sys2Proof.Proofs
end

section
/-! PROOFS of the family 44_flash_sequencer.md: the pages of a block (R287), what `FP_IDEAL` leaves of one (R294), and what a
block run depends on (R293). -/

namespace Sys2Proof.Proofs

open Machine Laws

/-! The pages of a block (R287). -/

theorem pairwise_lt_blockPages {c : Config} (hp : 0 < c.pageSize) (a l : Nat) :
    (blockPages c a l).Pairwise (· < ·) :=
  List.pairwise_lt_range.map _ fun _ _ h => Nat.add_lt_add_left (Nat.mul_lt_mul_of_pos_right h hp) _

/-- The region starts and ends at a page boundary (R7), so no page of a range inside it reaches out of it. -/
theorem blockPage_region {c : Config} {a l p : Nat} (hc : Config.valid c = true) (hl : 1 ≤ l) (hr : inRange c a l = true)
    (hm : p ∈ blockPages c a l) : c.appBase ≤ p ∧ p + c.pageSize ≤ c.appEnd := by
  have v := validFacts hc
  have hp := validFacts_page_pos v
  obtain ⟨hbase, hstart, -⟩ := mem_blockPages_bounds hp hl hm
  obtain ⟨-, hlast, -⟩ := (mem_blockPages hp hl).mp hm
  obtain ⟨hlo, hhi⟩ := of_decide_eq_true hr
  constructor
  · exact (le_pageBase v.aligned.1 hlo).trans hstart
  · have := pageEnd_le hp v.aligned.2 (hlast.trans_le hhi)
    rwa [hbase] at this

/-- Settles O38: the bases are an arithmetic progression of the page size between two bases inside the aligned region. -/
theorem blockPagesAreThePagesOfTheBlock : Obligations.BlockPagesAreThePagesOfTheBlock := by
  intro c a l hc hl hr
  have hp := validFacts_page_pos (validFacts hc)
  exact ⟨pairwise_lt_blockPages hp a l, fun p => ⟨mem_blockPages hp hl, blockPage_region hc hl hr⟩⟩

/-! The outcome of a block on `FP_IDEAL` (R271 to R273, R294). -/

theorem fpIsErased_ideal {c : Config} {m : List Host.Cell} {a n : Nat} (hi : c.fp = .ideal) :
    fpIsErased c m a (wordCount n) = allErased c m a (paddedLength n) := by
  simp only [fpIsErased, hi, paddedLength]

theorem inBlockPages_of_mem_range {c : Config} {a l x : Nat} (hp : 0 < c.pageSize) (h1 : a ≤ x) (h2 : x < a + l) :
    inBlockPages c a l x := by
  refine ⟨(pageBase_le c a).trans h1, ?_⟩
  have := lt_pageBase_add hp (a + l - 1)
  omega

/-- What lies in a page of the block's page list lies between its first page's start and its last page's end. -/
theorem inBlockPages_of_mem_blockPages {c : Config} {a l p x : Nat} (hp : 0 < c.pageSize) (hl : 1 ≤ l)
    (hm : p ∈ blockPages c a l) (hx : pageBase c p ≤ x ∧ x < pageBase c p + c.pageSize) : inBlockPages c a l x := by
  obtain ⟨hbase, hfirst, hlast⟩ := mem_blockPages_bounds hp hl hm
  rw [hbase] at hx
  exact ⟨hfirst.trans hx.1, by omega⟩

theorem referenceProgrammer_ideal {c : Config} (hi : c.fp = .ideal) : referenceProgrammer c = true := by
  simp only [referenceProgrammer, hi]

section
variable {c : Config} {pb : PendingBlock} {m : List Host.Cell} (hi : c.fp = .ideal) (hc : Config.valid c = true)
  (hm : Memory.wf (unlistedByte c) m = true) (hl : 1 ≤ pb.length.toNat)
  (hr : inRange c pb.target (paddedLength pb.length.toNat) = true)
include hi hc hm hl hr

/-- The erase calls of a block erase the block's pages and nothing else (R272, R287). -/
theorem read_erasedForBlock (x : Nat) :
    Memory.read (unlistedByte c) (erasedForBlock c pb m) x =
      if inBlockPages c pb.target (paddedLength pb.length.toNat) x then c.erasedByte
      else Memory.read (unlistedByte c) m x := by
  have v := validFacts hc
  have hp := validFacts_page_pos v
  have hL : 1 ≤ paddedLength pb.length.toNat := hl.trans (le_paddedLength _)
  split
  next hin =>
    refine read_erasePages_inside hi _ hm (fun p hpm => ?_)
      (.inr ⟨_, exists_blockPage hp hin hL, ?_⟩)
    · obtain ⟨hlo, hhi⟩ := blockPage_region hc hL hr hpm
      exact pageEnd_le_flashSpace hc ⟨hlo, by omega⟩
    · rw [pageBase_of_mod (pageBase_mod c x)]
      exact ⟨pageBase_le c x, lt_pageBase_add hp x⟩
  next hout =>
    refine read_erasePages_outside (referenceProgrammer_ideal hi) _ fun p hpm => ?_
    have := mt (inBlockPages_of_mem_blockPages hp hL hpm) hout
    omega

/-- So the check that follows them succeeds (R271). -/
theorem fpIsErased_erasedForBlock :
    fpIsErased c (erasedForBlock c pb m) pb.target (wordCount pb.length.toNat) = true := by
  rw [fpIsErased_ideal hi, allErased_iff]
  intro i h
  have hp := validFacts_page_pos (validFacts hc)
  rw [read_erasedForBlock hi hc hm hl hr, if_pos (inBlockPages_of_mem_range hp (by omega) (by omega))]

/-- A block in range is always programmed, over flash that was erased in its pages if the destination was not. -/
theorem blockOutcome_ideal :
    ∃ base calls, blockOutcome c pb m = programOutcome c pb base calls ∧ Memory.wf (unlistedByte c) base = true ∧
      ∀ x, Memory.read (unlistedByte c) base x =
        if fpIsErased c m pb.target (wordCount pb.length.toNat) = false ∧
          inBlockPages c pb.target (paddedLength pb.length.toNat) x
        then c.erasedByte else Memory.read (unlistedByte c) m x := by
  cases he : fpIsErased c m pb.target (wordCount pb.length.toNat) with
  | true => exact ⟨m, _, blockOutcome_erased hr he, hm, fun x => by simp⟩
  | false =>
    refine ⟨erasedForBlock c pb m, _, blockOutcome_erasedFirst hr he (fpIsErased_erasedForBlock hi hc hm hl hr),
      erasePages_wf _ hm, fun x => ?_⟩
    simpa using read_erasedForBlock hi hc hm hl hr x

end

theorem BlockPolled.flashByte {f : SetupFields} {pb : PendingBlock} {o : BlockOutcome} {s t : State}
    (h : BlockPolled f pb o s t) (a : Nat) : t.flashByte a = Memory.read (unlistedByte s.cfg) o.flash a := by
  rw [State.flashByte, h.answered.inputs.cfg, h.flash]

/-- Under a valid configuration a range inside the region lies in the flash space (R7, R60). -/
theorem end_le_flashSpace {c : Config} {a l : Nat} (hc : Config.valid c = true) (hr : inRange c a l = true) :
    a + l ≤ flashSpace :=
  calc a + l
    _ ≤ c.appEnd := (of_decide_eq_true hr).2
    _ ≤ flashSpace := (Nat.le_add_right _ _).trans (validFacts hc).region.2

/-- Settles O39: the poll runs the block, whose outcome on `FP_IDEAL` is that of programming, and that always reads back. -/
theorem idealPollWritesBlock : Obligations.IdealPollWritesBlock := by
  intro f pb s hg hi hc hm hs hp hd hl hr
  obtain ⟨t, ht, polled⟩ := exec_getstatus_block (f := f) hg hs hp
  obtain ⟨base, calls, outcome, hbase, erased⟩ := blockOutcome_ideal hi hc hm hl hr
  obtain ⟨noError, payload, padding, outside⟩ :=
    programOutcome_ideal (pb := pb) calls hi hbase hd (end_le_flashSpace hc hr)
  rw [outcome] at polled
  obtain ⟨state, code, -⟩ := polled.succeeded noError
  refine ⟨t, ht, state, code, polled.pending, fun i h => ?_, fun a h1 h2 => ?_, fun a h => ?_⟩
  · exact (polled.flashByte _).trans (payload i h)
  · exact (polled.flashByte a).trans (padding a h1 h2)
  · exact (polled.flashByte a).trans ((outside a h).trans (erased a))

/-! What a block run depends on and what it writes (R280, R293). -/

/-- The outcome does not read the block's number. -/
theorem blockOutcome_congr {pb pb' : PendingBlock} (ht : pb'.target = pb.target) (hd : pb'.data = pb.data)
    (hl : pb'.length = pb.length) (c : Config) (m : List Host.Cell) : blockOutcome c pb' m = blockOutcome c pb m := by
  simp only [blockOutcome, programOutcome, ht, hd, hl]

/-- An outcome writes flash, the trace, the class state and code, and the pointer; nothing else. -/
theorem apply_frame (o : BlockOutcome) (s : State) :
    o.apply s = { s with
      flash := (o.apply s).flash, trace := (o.apply s).trace, dfuState := (o.apply s).dfuState,
      dfuStatusCode := (o.apply s).dfuStatusCode, addrPtr := (o.apply s).addrPtr } := by
  unfold BlockOutcome.apply advanceAfterBlock
  split
  · rfl
  · split <;> rfl

/-- Settles O41: both runs are the same outcome, applied to two states. -/
theorem blockRunIsPure : Obligations.BlockRunIsPure := by
  intro pb pb' s s' hc hf ht hd hl
  have run' : blockExec pb' s' = (blockOutcome s.cfg pb s.flash).apply s' := by
    rw [blockExec_eq, hc, hf, blockOutcome_congr ht hd hl]
  rw [run', blockExec_eq]
  generalize blockOutcome s.cfg pb s.flash = o
  refine ⟨?_, ?_, ?_, fun h => ?_, fun h => ?_, ⟨o.calls, apply_trace o s, apply_trace o s'⟩, apply_frame o s⟩
  · rw [apply_flash, apply_flash]
  · rw [apply_dfuState, apply_dfuState]
  · rw [apply_dfuState]
    exact ite_eq_or_eq _ _ _
  · rw [apply_dfuStatusCode, apply_dfuStatusCode]
    rw [apply_dfuState] at h
    cases he : o.error with
    | none => simp [he] at h
    | some code => rfl
  · rw [apply_addrPtr, ite_ne_right_iff] at h
    obtain ⟨⟨noError, plain⟩, -⟩ := h
    exact ⟨plain, (apply_dfuState o s).trans (if_pos noError)⟩

end Sys2Proof.Proofs
end

section
/-! PROOFS of the family 60_exceptions.md: what a stall leaves (R301, R312), and the two ways out of `Error` (R314). -/

namespace Sys2Proof.Proofs

open Machine Laws

/-! One `STALL` at most, and it ends the transfer (R312). -/

/-- What was appended to the trace holds no `STALL`. -/
def EmitsNoStall (s t : State) : Prop := ∃ calls, t.trace = s.trace ++ calls ∧ Action.stall ∉ calls

theorem emitsNoStall_of_trace_eq {s t : State} (h : t.trace = s.trace) : EmitsNoStall s t :=
  ⟨[], h.trans (List.append_nil _).symm, List.not_mem_nil⟩

theorem traceGrows_of_trace_eq {s t : State} (h : t.trace = s.trace) : TraceGrows s t :=
  traceGrows_of_noStall [] (h.trans (List.append_nil _).symm) List.not_mem_nil

theorem traceGrows_of_stalled {s t : State} (h : Stalled s t) : TraceGrows s t :=
  ⟨[.stall], h.trace, fun _ => ⟨h.noTransfer, [], rfl, List.not_mem_nil⟩⟩

theorem erasePageCommand_emitsNoStall (arg : Word) (s : State) : EmitsNoStall s (erasePageCommand arg s).2 := by
  by_cases h : inRegion s.cfg arg.toNat
  · have noStall : Action.stall ∉ pageCalls arg s := by simp [pageCalls]
    rw [erasePageCommand_inRegion h]
    split
    · exact ⟨pageCalls arg s, rfl, noStall⟩
    · exact ⟨pageCalls arg s, rfl, noStall⟩
  · rw [erasePageCommand_outside h]
    exact emitsNoStall_of_trace_eq rfl

theorem dfuseCommand_emitsNoStall (length : Half) (data : List Byte) (s : State) :
    EmitsNoStall s (dfuseCommand length data s).2 := by
  unfold dfuseCommand
  split
  · exact emitsNoStall_of_trace_eq rfl
  · exact erasePageCommand_emitsNoStall _ s
  · exact emitsNoStall_of_trace_eq rfl

theorem classSet_emitsNoStall {r : SetupRequest} {data : List Byte} {s : State} {x : Bool × State}
    (h : classSet r data s = some x) : EmitsNoStall s x.2 := by
  obtain ⟨-, rfl⟩ | ⟨-, rfl⟩ | ⟨-, rfl | ⟨a, rfl⟩ | ⟨-, -, -, rfl⟩⟩ := classSet_cases h
  · exact emitsNoStall_of_trace_eq rfl
  · exact emitsNoStall_of_trace_eq rfl
  · exact emitsNoStall_of_trace_eq (endDownload_trace s)
  · exact emitsNoStall_of_trace_eq rfl
  · exact dfuseCommand_emitsNoStall r.length data s

theorem exec_inDone_traceGrows {s t : State} (h : exec .inDone s = .next t) : TraceGrows s t := by
  obtain ⟨-, -, grows⟩ | ⟨-, r, x, -, -, hx, rfl⟩ := inDone_effect h
  · exact grows
  · obtain ⟨calls, trace, noStall⟩ := classSet_emitsNoStall hx
    exact completeWrite_traceGrows x.1 calls trace noStall

theorem exec_decodeSetup_traceGrows {p : List Byte} {s t : State} (h : exec (decodeSetup p) s = .next t) :
    TraceGrows s t := by
  obtain ⟨u, hu, -, grows, -⟩ := setup_effect (isSetup_decodeSetup p) (wf_decodeSetup p) s
  obtain rfl : u = t := Host.Outcome.next.inj (hu.symm.trans h)
  exact grows

theorem fail_traceGrows (s : State) : TraceGrows s (fail s) := traceGrows_of_stalled (fail_stalled rfl)

theorem receiveFull_traceGrows (p : List Byte) (s : State) : TraceGrows s (receiveFull p s) := by
  unfold receiveFull
  split
  · exact traceGrows_of_trace_eq rfl
  · exact fail_traceGrows s

theorem receiveLast_traceGrows (p : List Byte) (s : State) : TraceGrows s (receiveLast p s) := by
  unfold receiveLast
  split
  · exact traceGrows_of_noStall [.zlp] rfl (by simp)
  · exact fail_traceGrows s

/-- A status packet that is not empty stalls without `fail`: nothing is pending there, so the transfer is gone too (R147). -/
theorem receiveStatus_traceGrows {s : State} (hp : s.pendOut = none) (p : List Byte) :
    TraceGrows s (receiveStatus p s) := by
  rw [receiveStatus_eq]
  by_cases h : p = []
  · exact traceGrows_of_trace_eq (if_pos h)
  · exact traceGrows_of_stalled ⟨⟨rfl, hp, rfl, rfl, rfl⟩, if_neg h⟩

theorem onOutComplete_traceGrows {s : State} (hp : s.cts = .statusOut → s.pendOut = none) (p : List Byte) :
    TraceGrows s (onOutComplete p s) := by
  unfold onOutComplete
  cases hc : s.cts with
  | dataOut => exact receiveFull_traceGrows p s
  | lastDataOut => exact receiveLast_traceGrows p s
  | statusOut => exact receiveStatus_traceGrows (hp hc) p
  | _ => exact fail_traceGrows s

/-- Settles O58: by the inversion of `step`; the invariant is needed for the `OUT` in `StatusOut` alone, where it says that
nothing is pending. -/
theorem stallEndsTransfer : Obligations.StallEndsTransfer := by
  intro s t hinv h
  suffices TraceGrows s t from this
  obtain ⟨-, ⟨-, rfl⟩ | ⟨rest, -, rfl⟩ | ⟨rest, p, -, hx⟩ | ⟨rest, -, hx⟩ | ⟨rest, p, -, rfl⟩⟩ := step_cases h
  · exact traceGrows_of_trace_eq rfl
  · rw [onReset_eq]
    exact traceGrows_of_trace_eq rfl
  · exact exec_decodeSetup_traceGrows (s := { s with events := rest }) hx
  · exact exec_inDone_traceGrows (s := { s with events := rest }) hx
  · have nothingPending : s.cts = .statusOut → s.pendOut = none := fun hc => (hinv.read (.inr (.inr hc))).1
    exact onOutComplete_traceGrows (s := { s with events := rest }) nothingPending p

/-! A step keeps the invariant: each row does, and taking the event does (R358). -/

theorem inv_of_exec {i : Instr} {s t : State} (keeps : ∃ u, exec i s = .next u ∧ u.Inv) (h : exec i s = .next t) :
    t.Inv := by
  obtain ⟨u, hu, inv⟩ := keeps
  obtain rfl : u = t := Host.Outcome.next.inj (hu.symm.trans h)
  exact inv

theorem inv_onReset {s : State} (h : s.Inv) : (onReset s).Inv :=
  have ⟨base, gone⟩ := base_onReset h.config h.flash
  inv_of_noTransfer base gone

theorem inv_step {s t : State} (hinv : s.Inv) (h : step s = .next t) : t.Inv := by
  have taken : ∀ rest, ({ s with events := rest } : State).Inv := fun rest => inv_takeEvent rest hinv
  obtain ⟨-, ⟨-, rfl⟩ | ⟨rest, -, rfl⟩ | ⟨rest, p, -, hx⟩ | ⟨rest, -, hx⟩ | ⟨rest, p, -, rfl⟩⟩ := step_cases h
  · exact hinv
  · exact inv_onReset (taken rest)
  · exact inv_of_exec (inv_exec_setup (isSetup_decodeSetup p) (Base.of_inv (taken rest))) hx
  · exact inv_of_exec (inv_exec_inDone (taken rest)) hx
  · exact inv_onOutComplete p (taken rest)

/-! The two ways out of `Error` (R314). -/

theorem step_reset {s : State} {rest : List Event} (hc : Config.valid s.cfg = true) (he : s.events = .reset :: rest) :
    step s = .next (afterReset { s with events := rest }) :=
  (step_of_event hc he).trans (exec_reset _)

theorem step_clrstatusDone {s : State} {rest : List Event} {f : SetupFields} (hc : Config.valid s.cfg = true)
    (he : s.events = .inDone :: rest) (hs : s.cts = .statusIn) (hp : s.pendOut = some (requestOfDfu .clrstatus f)) :
    step s = .next (completeWrite true (clrstatusSet { s with events := rest })) :=
  calc step s
    _ = exec (instrOf s .inDone) { s with events := rest } := step_of_event hc he
    _ = exec .inDone { s with events := rest } := exec_instrOf_inDone s rest
    _ = _ := exec_inDone_writes hs hp (dispatcherSet_clrstatus f _ _)

/-- A step that leaves `Error` changes the status code to `OK`, since both its ends meet the invariant (R303). -/
theorem code_changed_of_error_left {s t : State} (hinv : s.Inv) (herr : s.dfuState = .error) (h : step s = .next t)
    (hleft : t.dfuState ≠ .error) : t.dfuStatusCode ≠ s.dfuStatusCode := by
  have before : s.dfuStatusCode ≠ .ok := hinv.classInv.errorCode.mp herr
  have after : t.dfuStatusCode = .ok :=
    Decidable.not_not.mp (mt (inv_step hinv h).classInv.errorCode.mpr hleft)
  exact after ▸ before.symm

/-- Settles O54: leaving `Error` clears the sticky code, and only the two steps do that; both enter `Idle`. `GETSTATUS` and
`GETSTATE` are answered as in any resting state. -/
theorem errorLeftOnlyByClrstatusOrReset : Obligations.ErrorLeftOnlyByClrstatusOrReset := by
  intro s hinv herr
  refine ⟨fun t h => ⟨fun hleft => ?_, ?_⟩, fun hg f => ⟨?_, ?_⟩⟩
  · obtain ⟨stays, -⟩ | ⟨-, cleared⟩ :=
      statusCodeIsSticky s t hinv h (code_changed_of_error_left hinv herr h hleft)
    · exact absurd stays hleft
    · exact cleared
  · rintro (⟨rest, he⟩ | ⟨rest, f, he, hs, hp⟩)
    · obtain rfl := Host.Outcome.next.inj ((step_reset hinv.config he).symm.trans h)
      exact nofun
    · obtain rfl := Host.Outcome.next.inj ((step_clrstatusDone hinv.config he hs hp).symm.trans h)
      exact nofun
  · obtain ⟨t, ht, answered, same, -⟩ := getstatusReportsRestingState f s hg (by simp [herr])
    rw [herr] at answered
    exact ⟨t, ht, same, answered⟩
  · obtain ⟨t, ht, answered, same, -⟩ := getstateReportsState f s hg (by simp [herr])
    rw [herr] at answered
    exact ⟨t, ht, same, answered⟩

end Sys2Proof.Proofs
end

section
/-! PROOFS of the family 70_reset_and_hazards.md: the invariant of the callback boundaries (R358), met by the state after reset
and kept by every step, and the next state that every event has under it (R359). -/

namespace Sys2Proof.Proofs

open Machine Laws

theorem base_reset : Base State.reset where
  config := by decide
  flash := by decide
  usbAddr := by decide
  classInv := classInv_of_noWork rfl (by decide) (by decide)

/-- Settles O51: after reset no transfer is in progress, so only the parts of `Base` are left to check (R341, R358). -/
theorem resetSatisfiesInvariant : Obligations.ResetSatisfiesInvariant :=
  inv_of_noTransfer base_reset ⟨rfl, rfl, rfl, rfl, rfl⟩

/-- Settles O52: `inv_step`, which goes through the inversion of `step` and says for each kind of event that its row keeps the
invariant. -/
theorem stepKeepsInvariant : Obligations.StepKeepsInvariant :=
  fun _ _ => inv_step

/-- Under the invariant the instruction of a delivered event has a next state. `RESET`, `SETUP` and `OUT` have one in every state;
`IN` needs that in `StatusIn` a request that validation accepted is pending (R150, R174). -/
theorem exec_instrOf_next {s : State} (hinv : s.Inv) (e : Event) (rest : List Event) :
    ∃ t, exec (instrOf s e) { s with events := rest } = .next t := by
  have taken : ({ s with events := rest } : State).Inv := inv_takeEvent rest hinv
  cases e with
  | reset => exact ⟨onReset _, rfl⟩
  | setup p =>
    obtain ⟨t, ht, -⟩ := inv_exec_setup (isSetup_decodeSetup p) (Base.of_inv taken)
    exact ⟨t, ht⟩
  | inDone =>
    obtain ⟨t, ht, -⟩ := inv_exec_inDone taken
    exact ⟨t, (exec_instrOf_inDone s rest).trans ht⟩
  | outDone p => exact ⟨onOutComplete p _, rfl⟩

/-- Settles O53: the invariant holds the constraints of R7, so `step` refuses nothing; it waits, or runs the oldest event's
instruction. -/
theorem stepNeverStops : Obligations.StepNeverStops := by
  intro s hinv
  cases he : s.events with
  | nil => exact ⟨s, step_of_noEvent hinv.config he⟩
  | cons e rest =>
    obtain ⟨t, ht⟩ := exec_instrOf_next hinv e rest
    exact ⟨t, (step_of_event hinv.config he).trans ht⟩

end Sys2Proof.Proofs
end
